-- ==== Sys2Proof/Word.lean ====
section
/-!
DEFINITION. The plain value types of the core: the command and status word (30_encoding.md R61, R70), the audio
sample (20_memory.md R51), the message bit and the real number of a configuration (00_scope.md R9).
-/
namespace Sys2Proof

/-- A 32-bit port word: a command word (R61) or the status word (R70). -/
abbrev Word := BitVec 32

/-- One audio sample, `Int16`: 16 bits in two's complement, bit 15 the sign (R9, R51, R68). -/
abbrev Sample := BitVec 16

/-- A message bit (R9). The source stores bits as the characters '0' and '1'. -/
inductive Bit where
  | zero
  | one
deriving DecidableEq, Repr

/-- A `Real` of the configuration (R9, R16, R67) as plain data: a rational number written out, or a real number under a
name. A name stands for one real number, any at all, that nothing in the model fixes (log entry 2). -/
inductive RealNum where
  | rat (q : Rat)
  | named (i : Nat)
deriving DecidableEq, Repr

/-- The number a bit stands for in the status word (R70). -/
def Bit.toBool : Bit → Bool
  | .zero => false
  | .one => true

end Sys2Proof
end

