-- ==== Sys2Proof/Syntax.lean ====
section
/-!
DEFINITION. The five host commands of spec/opcode_table.json (30_encoding.md R62). No command has a field: every
operand arrives on a port (R66, R75), so no constructor carries an argument.
-/
namespace Sys2Proof

/-- One constructor per row of the opcode table (R62). -/
inductive Instr where
  /-- `RESET`, OP `0x01` (45_controller.md R137). -/
  | reset
  /-- `CONFIGURE`, OP `0x02` (R138); it reads the configuration port. -/
  | configure
  /-- `STEP`, OP `0x03` (R140); it reads the chunk port. -/
  | step
  /-- `STOP`, OP `0x04` (R144). -/
  | stop
  /-- `STATUS`, OP `0x05` (R145). -/
  | status
deriving DecidableEq, Repr

end Sys2Proof
end

