-- ==== Sys2Proof/WellFormed.lean ====
section
/-!
DEFINITION. When a command word, and an instruction, is well formed (30_encoding.md R61, R63, R64).
-/
namespace Sys2Proof

/-- `cmd[7:0]`, the operation code (R61). -/
def opField (cmd : Word) : BitVec 8 := cmd.extractLsb' 0 8

/-- `cmd[31:8]`, reserved (R61). -/
def rsvField (cmd : Word) : BitVec 24 := cmd.extractLsb' 8 24

/-- `RSV` must be zero (R63). -/
def rsvIsZero (cmd : Word) : Bool := rsvField cmd == 0

/-- The operation codes that R62 assigns. -/
def opIsAssigned (cmd : Word) : Bool := decide (1 ≤ (opField cmd).toNat ∧ (opField cmd).toNat ≤ 5)

/-- A legal command word (R64): the reserved field is zero and the operation code is assigned. -/
def wordIsWellFormed (cmd : Word) : Bool := rsvIsZero cmd && opIsAssigned cmd

/-- Every term of `Instr` is well formed: a command has no field that could hold an illegal value (R75). -/
def Instr.wf : Instr → Bool
  | .reset => true
  | .configure => true
  | .step => true
  | .stop => true
  | .status => true

end Sys2Proof
end

