-- ==== Sys2Proof/Decode.lean ====
section
/-!
DEFINITION. The command decoder, total over all 32-bit words (30_encoding.md R65), and the encoder beside it (R62).
-/
namespace Sys2Proof

/-- Why a word is no command (R64). Raised by `decode`; the step turns it into the fault `ILLEGAL_COMMAND` or ignores
the word, as the mode says. -/
inductive DecodeError where
  /-- `RSV ≠ 0`, whatever `OP` is (R63). -/
  | reservedNonzero
  /-- `RSV = 0` and `OP` is `0x00` or `0x06 … 0xFF` (R64). -/
  | unassignedOp
deriving DecidableEq, Repr

/-- `decode` of R65. -/
def decode (cmd : Word) : Except DecodeError Instr :=
  if rsvField cmd ≠ 0 then .error .reservedNonzero
  else match (opField cmd).toNat with
    | 0x01 => .ok .reset
    | 0x02 => .ok .configure
    | 0x03 => .ok .step
    | 0x04 => .ok .stop
    | 0x05 => .ok .status
    | _ => .error .unassignedOp

/-- The word of each command (R62). -/
def encode : Instr → Word
  | .reset => 0x00000001
  | .configure => 0x00000002
  | .step => 0x00000003
  | .stop => 0x00000004
  | .status => 0x00000005

/-- The command the decoder reads from a table row's bits: the `nbits` bits of `w` form the one port word, and every
bit above them is 0. -/
def decodeTableWord (nbits w : Nat) : Option Instr :=
  match decode (BitVec.ofNat 32 (w % 2 ^ nbits)) with
  | .ok i => some i
  | .error _ => none

end Sys2Proof
end

