-- ==== Sys2Proof/Config.lean ====
section
/-!
DEFINITION. The design parameters of a build of the core (00_scope.md R6) and the limits of the status word's fields.
`T_TIMEOUT` and `N_MAX` are OPEN in the spec: here each is a constant with no body, so nothing can be proved that
holds for one value of it only. The reals that a configuration names are free in the same way. The machine reads the copy that State holds (`Params`), which no command writes, so a
statement over every state is a statement over every value of the parameters.
-/
namespace Sys2Proof.Config

/-- `MAX_TONES` (R6): the most wake-up tones, so that `NFLAG` fits its 8 bits. -/
def maxTones : Nat := 255

/-- `MAX_BITS` (R6): the most bits of a release sequence, so that `NBITS` fits its 8 bits. -/
def maxBits : Nat := 255

/-- `T_TIMEOUT` (R6), in samples: OPEN in the spec, so a constant without a value (log entry 1). -/
opaque tTimeout : Nat

/-- `N_MAX − 1` (R6), in samples: `N_MAX` is OPEN but at least 1 (log entry 1). -/
opaque nMaxLessOne : Nat

/-- `N_MAX` (R6): the number of slots of the sample ring, at least 1. -/
def nMax : Nat := nMaxLessOne + 1

/-- `PREFIX_REARM` (R6): `true` by decision D22. -/
def prefixRearm : Bool := true

/-- A value that nothing fixes, of any type that has one. The exact arithmetic over the named reals of a configuration
is such a value (Machine/ExactReals.lean, log entry 2). -/
opaque free {α : Type} [Inhabited α] : α

end Sys2Proof.Config
end

