-- ==== Sys2Proof/Machine/FixedPoint.lean ====
section
/-!
DEFINITION. Fixed-point numbers for the spectrum: integer square root, π, and the cosine and sine of the DFT's angles,
each as an integer at a given number of binary places. Laws/FixedPoint.lean proves how far each is from the real
number it stands for; the detector (ToneDetector.lean) takes those distances into account exactly.
-/
namespace Sys2Proof.Machine

/-- The binary digits of `⌊√n⌋` below place `i`, added to the digits `r` found so far. -/
def isqrtDigits : Nat → Nat → Nat → Nat
  | 0, _, r => r
  | i + 1, n, r => if (r + 2 ^ i) * (r + 2 ^ i) ≤ n then isqrtDigits i n (r + 2 ^ i) else isqrtDigits i n r

/-- `⌊√n⌋`. -/
def isqrt (n : Nat) : Nat := isqrtDigits (n.log2 / 2 + 1) n 0

/-- The first `n` terms of the series of `arctan (1/x)`, each cut to `P` binary places. -/
def arctanInv (x P : Nat) : Nat → Int
  | 0 => 0
  | n + 1 =>
    let term : Int := ((2 ^ P / ((2 * n + 1) * x ^ (2 * n + 1)) : Nat) : Int)
    arctanInv x P n + (if n % 2 = 0 then term else -term)

/-- `2^P·π` by Machin's formula `π = 16·arctan(1/5) − 4·arctan(1/239)`. -/
def piApprox (P : Nat) : Int :=
  16 * arctanInv 5 P (P / 4 + 1) - 4 * arctanInv 239 P (P / 4 + 1)

/-- Horner's scheme for the exponential series: with `y = Y/2^P`, the value `(a + b·i)/d` of
`1 + (iy/(m+1))·(1 + (iy/(m+2))·(…))`, `fuel` factors deep. -/
def expSeries (Y : Int) (P : Nat) : Nat → Nat → Int × Int × Nat
  | 0, _ => (1, 0, 1)
  | fuel + 1, m =>
    match expSeries Y P fuel (m + 1) with
    | (a, b, d) => (((d * (2 ^ P * (m + 1)) : Nat) : Int) - Y * b, Y * a, d * (2 ^ P * (m + 1)))

/-- The binary places used inside for a result of `p` places. -/
def workPlaces (p : Nat) : Nat := 2 * p + 16

/-- `2^p·(cos, sin)` of the angle `2π·j/N`. -/
def cosSin (p N j : Nat) : Int × Int :=
  match expSeries (2 * (j : Int) * piApprox (workPlaces p) / (N : Int)) (workPlaces p) (p + 20) 0 with
  | (a, b, d) => (a * ((2 ^ p : Nat) : Int) / (d : Int), b * ((2 ^ p : Nat) : Int) / (d : Int))

/-- `cosSin` of every angle of an `N`-point DFT. -/
def rootTable (p N : Nat) : List (Int × Int) := (List.range N).map (cosSin p N)

end Sys2Proof.Machine
end

