-- ==== Sys2Proof/Laws/FixedPoint.lean ====
section
/-!
SUPPORT. How far the fixed-point numbers of Machine/FixedPoint.lean are from the real numbers they stand for.
-/
namespace Sys2Proof.Laws

open Sys2Proof.Machine

/-! ### The integer square root -/

theorem isqrtDigits_spec (i n r : Nat) (lo : r * r ≤ n) (hi : n < (r + 2 ^ i) * (r + 2 ^ i)) :
    isqrtDigits i n r * isqrtDigits i n r ≤ n ∧ n < (isqrtDigits i n r + 1) * (isqrtDigits i n r + 1) := by
  induction i generalizing r with
  | zero => exact ⟨lo, hi⟩
  | succ i ih =>
    unfold isqrtDigits
    split
    · next h => exact ih _ h (by rwa [add_assoc, ← two_mul, ← pow_succ'])
    · next h => exact ih _ lo (not_le.mp h)

theorem isqrt_spec (n : Nat) : isqrt n * isqrt n ≤ n ∧ n < (isqrt n + 1) * (isqrt n + 1) := by
  refine isqrtDigits_spec _ n 0 (Nat.zero_le _) ?_
  have h := Nat.lt_log2_self (n := n)
  rw [zero_add, ← pow_add]
  exact h.trans_le (Nat.pow_le_pow_right (by norm_num) (by omega))

theorem isqrt_le_sqrt (n : Nat) : (isqrt n : ℝ) ≤ √n :=
  Real.le_sqrt_of_sq_le (by exact_mod_cast (sq (isqrt n)).le.trans (isqrt_spec n).1)

theorem sqrt_lt_isqrt_add_one (n : Nat) : √n < (isqrt n : ℝ) + 1 := by
  rw [Real.sqrt_lt' (by positivity)]
  have h := (isqrt_spec n).2
  have : (n : ℝ) < ((isqrt n + 1) * (isqrt n + 1) : ℕ) := by exact_mod_cast h
  push_cast at this
  nlinarith

/-- `isqrt` is the square root to the integer below. -/
theorem abs_isqrt_sub_sqrt_le (n : Nat) : |(isqrt n : ℝ) - √n| ≤ 1 := by
  rw [abs_le]
  constructor <;> linarith [isqrt_le_sqrt n, sqrt_lt_isqrt_add_one n]

/-! ### π -/

/-- A quotient of naturals is the quotient of the reals to the integer below. -/
theorem abs_natDiv_sub_le (a b : Nat) : |((a / b : Nat) : ℝ) - (a : ℝ) / b| ≤ 1 := by
  have h := Nat.floor_div_eq_div (K := ℝ) a b
  have h0 : (0 : ℝ) ≤ (a : ℝ) / b := by positivity
  rw [← h, abs_le]
  constructor <;> linarith [Nat.floor_le h0, Nat.lt_floor_add_one ((a : ℝ) / b)]

/-- The partial sums of the arctangent series at `1/x`. -/
noncomputable def arctanSum (x : Nat) (n : Nat) : ℝ :=
  ∑ i ∈ Finset.range n, (-1) ^ i * ((x : ℝ)⁻¹) ^ (2 * i + 1) / ((2 * i + 1 : ℕ) : ℝ)

theorem abs_arctanInv_sub_le (x P n : Nat) : |(arctanInv x P n : ℝ) - 2 ^ P * arctanSum x n| ≤ n := by
  induction n with
  | zero => simp [arctanInv, arctanSum]
  | succ n ih =>
    have hterm := abs_natDiv_sub_le (2 ^ P) ((2 * n + 1) * x ^ (2 * n + 1))
    set t : Nat := 2 ^ P / ((2 * n + 1) * x ^ (2 * n + 1)) with ht
    have hreal : ((2 ^ P : Nat) : ℝ) / (((2 * n + 1) * x ^ (2 * n + 1) : Nat) : ℝ)
        = 2 ^ P * (((x : ℝ)⁻¹) ^ (2 * n + 1) / ((2 * n + 1 : ℕ) : ℝ)) := by
      push_cast
      rw [inv_pow]
      field_simp
    rw [hreal] at hterm
    have hsum : arctanSum x (n + 1) = arctanSum x n
        + (-1) ^ n * (((x : ℝ)⁻¹) ^ (2 * n + 1) / ((2 * n + 1 : ℕ) : ℝ)) := by
      rw [arctanSum, Finset.sum_range_succ, ← arctanSum, mul_div_assoc]
    set u : ℝ := ((x : ℝ)⁻¹) ^ (2 * n + 1) / ((2 * n + 1 : ℕ) : ℝ) with hu
    have hcast : (arctanInv x P (n + 1) : ℝ) = arctanInv x P n + (-1) ^ n * (t : ℝ) := by
      rcases Nat.even_or_odd n with he | ho
      · simp [arctanInv, Nat.even_iff.mp he, he.neg_one_pow, ← ht]
      · simp [arctanInv, Nat.odd_iff.mp ho, ho.neg_one_pow, ← ht]
    have hsign : |(-1 : ℝ) ^ n * (t : ℝ) - 2 ^ P * ((-1) ^ n * u)| ≤ 1 := by
      rw [show (-1 : ℝ) ^ n * (t : ℝ) - 2 ^ P * ((-1) ^ n * u) = (-1) ^ n * ((t : ℝ) - 2 ^ P * u) by ring, abs_mul,
        abs_pow, abs_neg, abs_one, one_pow, one_mul]
      exact hterm
    rw [hcast, hsum, mul_add]
    push_cast
    rw [abs_le] at *
    constructor <;> linarith [ih.1, ih.2, hsign.1, hsign.2]

theorem abs_arctan_sub_sum_le (x n : Nat) (hx : 2 ≤ x) :
    |Real.arctan ((x : ℝ)⁻¹) - arctanSum x n| ≤ 2 * ((x : ℝ)⁻¹) ^ (2 * n + 1) := by
  have hx' : (2 : ℝ) ≤ x := by exact_mod_cast hx
  have hpos : (0 : ℝ) < (x : ℝ)⁻¹ := by positivity
  have hle : (x : ℝ)⁻¹ ≤ 2⁻¹ := by gcongr
  set y : ℝ := (x : ℝ)⁻¹ with hy
  have hs := Real.hasSum_arctan (x := y) (by rw [Real.norm_of_nonneg hpos.le]; linarith)
  rw [← hs.tsum_eq, ← hs.summable.sum_add_tsum_nat_add n]
  rw [show (∑ i ∈ Finset.range n, (-1 : ℝ) ^ i * y ^ (2 * i + 1) / ((2 * i + 1 : ℕ) : ℝ)) = arctanSum x n from rfl,
    add_sub_cancel_left]
  have hgeo : HasSum (fun i : ℕ => y ^ (2 * n + 1) * (y ^ 2) ^ i) (y ^ (2 * n + 1) * (1 - y ^ 2)⁻¹) :=
    (hasSum_geometric_of_lt_one (by positivity) (by nlinarith)).mul_left _
  have hbound := tsum_of_norm_bounded hgeo
    (f := fun i => (-1 : ℝ) ^ (i + n) * y ^ (2 * (i + n) + 1) / ((2 * (i + n) + 1 : ℕ) : ℝ)) (fun i => by
      rw [norm_div, norm_mul, norm_pow, norm_neg, norm_one, one_pow, one_mul, Real.norm_of_nonneg (by positivity),
        Real.norm_of_nonneg (by positivity)]
      have h1 : (1 : ℝ) ≤ ((2 * (i + n) + 1 : ℕ) : ℝ) := by exact_mod_cast Nat.le_add_left 1 _
      calc y ^ (2 * (i + n) + 1) / ((2 * (i + n) + 1 : ℕ) : ℝ) ≤ y ^ (2 * (i + n) + 1) :=
            div_le_self (by positivity) h1
        _ = y ^ (2 * n + 1) * (y ^ 2) ^ i := by rw [← pow_mul, ← pow_add]; ring_nf)
  refine hbound.trans ?_
  have : (1 - y ^ 2)⁻¹ ≤ 2 := by
    rw [inv_le_comm₀ (by nlinarith) (by norm_num)]
    nlinarith
  nlinarith [pow_pos hpos (2 * n + 1)]

theorem two_pow_mul_inv_pow_le (x P : Nat) (hx : 5 ≤ x) :
    (2 : ℝ) ^ P * (2 * ((x : ℝ)⁻¹) ^ (2 * (P / 4 + 1) + 1)) ≤ 1 := by
  have hx' : (5 : ℝ) ≤ x := by exact_mod_cast hx
  have hy : ((x : ℝ)⁻¹) ^ (2 * (P / 4 + 1) + 1) ≤ (5⁻¹ : ℝ) ^ (2 * (P / 4 + 1) + 1) := by gcongr
  have hP : (2 : ℝ) ^ P ≤ 2 ^ (4 * (P / 4) + 4) := pow_le_pow_right₀ (by norm_num) (by omega)
  have h16 : (2 : ℝ) ^ (4 * (P / 4) + 4) = 16 * 16 ^ (P / 4) := by
    rw [pow_add, pow_mul]
    norm_num
    ring
  have h25 : (5⁻¹ : ℝ) ^ (2 * (P / 4 + 1) + 1) = 125⁻¹ * (25⁻¹) ^ (P / 4) := by
    rw [show 2 * (P / 4 + 1) + 1 = 2 * (P / 4) + 3 by ring, pow_add, pow_mul]
    norm_num
    ring
  have hle : (16 : ℝ) ^ (P / 4) * (25⁻¹) ^ (P / 4) ≤ 1 := by
    rw [← mul_pow]
    exact pow_le_one₀ (by norm_num) (by norm_num)
  calc (2 : ℝ) ^ P * (2 * ((x : ℝ)⁻¹) ^ (2 * (P / 4 + 1) + 1))
      ≤ (16 * 16 ^ (P / 4)) * (2 * (125⁻¹ * (25⁻¹) ^ (P / 4))) := by
        rw [← h16, ← h25]
        gcongr
    _ = 32 / 125 * (16 ^ (P / 4) * (25⁻¹) ^ (P / 4)) := by ring
    _ ≤ 1 := by linarith

theorem abs_arctanInv_sub_arctan_le (x P : Nat) (hx : 5 ≤ x) :
    |(arctanInv x P (P / 4 + 1) : ℝ) - 2 ^ P * Real.arctan ((x : ℝ)⁻¹)| ≤ P / 4 + 2 := by
  have h1 := abs_arctanInv_sub_le x P (P / 4 + 1)
  have h2 := abs_arctan_sub_sum_le x (P / 4 + 1) (by omega)
  have h3 := two_pow_mul_inv_pow_le x P hx
  have h4 : |2 ^ P * Real.arctan ((x : ℝ)⁻¹) - 2 ^ P * arctanSum x (P / 4 + 1)| ≤ 1 := by
    rw [← mul_sub, abs_mul, abs_of_pos (by positivity : (0 : ℝ) < 2 ^ P)]
    exact (mul_le_mul_of_nonneg_left h2 (by positivity)).trans h3
  have h5 : ((P / 4 + 1 : ℕ) : ℝ) ≤ P / 4 + 1 := by
    push_cast
    linarith [Nat.cast_div_le (α := ℝ) (m := P) (n := 4)]
  rw [abs_le] at *
  constructor <;> linarith [h1.1, h1.2, h4.1, h4.2]

/-- `piApprox P` is within `5·P + 40` of `2^P·π`. -/
theorem abs_piApprox_sub_le (P : Nat) : |(piApprox P : ℝ) - 2 ^ P * Real.pi| ≤ 5 * P + 40 := by
  have h5 := abs_arctanInv_sub_arctan_le 5 P (by norm_num)
  have h239 := abs_arctanInv_sub_arctan_le 239 P (by norm_num)
  have hpi := Real.four_mul_arctan_inv_5_sub_arctan_inv_239
  have hreal : (2 : ℝ) ^ P * Real.pi = 16 * (2 ^ P * Real.arctan (5⁻¹)) - 4 * (2 ^ P * Real.arctan (239⁻¹)) := by
    have : Real.pi = 16 * Real.arctan (5⁻¹) - 4 * Real.arctan (239⁻¹) := by linarith
    rw [this]
    ring
  rw [hreal, piApprox]
  push_cast at *
  rw [abs_le] at *
  constructor <;> linarith [h5.1, h5.2, h239.1, h239.2]


/-! ### Cosine and sine -/

/-- The exponential series after `m` terms, divided by its first term: `fuel + 1` terms of it, in Horner's form. -/
noncomputable def hornerExp (z : ℂ) : Nat → Nat → ℂ
  | 0, _ => 1
  | fuel + 1, m => 1 + z / ((m : ℂ) + 1) * hornerExp z fuel (m + 1)

theorem hornerExp_eq_sum (z : ℂ) (fuel m : Nat) :
    z ^ m / (m.factorial : ℂ) * hornerExp z fuel m
      = ∑ i ∈ Finset.range (fuel + 1), z ^ (m + i) / ((m + i).factorial : ℂ) := by
  induction fuel generalizing m with
  | zero => simp [hornerExp]
  | succ fuel ih =>
    have hm : (m.factorial : ℂ) ≠ 0 := by exact_mod_cast m.factorial_ne_zero
    have hm1 : (m : ℂ) + 1 ≠ 0 := by exact_mod_cast m.succ_ne_zero
    have hstep : z ^ m / (m.factorial : ℂ) * (z / ((m : ℂ) + 1) * hornerExp z fuel (m + 1))
        = z ^ (m + 1) / ((m + 1).factorial : ℂ) * hornerExp z fuel (m + 1) := by
      rw [Nat.factorial_succ]
      push_cast
      field_simp
      ring
    rw [hornerExp, mul_add, mul_one, hstep, ih, Finset.sum_range_succ' _ (fuel + 1), add_zero, add_comm]
    congr 1
    exact Finset.sum_congr rfl fun i _ => by rw [add_right_comm, add_assoc]

theorem expSeries_spec (Y : Int) (P fuel m : Nat) :
    0 < (expSeries Y P fuel m).2.2 ∧
      ((expSeries Y P fuel m).1 + (expSeries Y P fuel m).2.1 * Complex.I : ℂ)
        = (expSeries Y P fuel m).2.2 * hornerExp (Complex.I * (Y / 2 ^ P)) fuel m := by
  induction fuel generalizing m with
  | zero => simp [expSeries, hornerExp]
  | succ fuel ih =>
    obtain ⟨hd, heq⟩ := ih (m + 1)
    rw [expSeries]
    generalize expSeries Y P fuel (m + 1) = e at hd heq
    obtain ⟨a, b, d⟩ := e
    refine ⟨by positivity, ?_⟩
    have hm1 : (m : ℂ) + 1 ≠ 0 := by exact_mod_cast m.succ_ne_zero
    simp only at heq ⊢
    have hcast : (((d * (2 ^ P * (m + 1)) : Nat) : Int) : ℂ) = d * (2 ^ P * ((m : ℂ) + 1)) := by push_cast; rfl
    have hcast' : ((d * (2 ^ P * (m + 1)) : Nat) : ℂ) = d * (2 ^ P * ((m : ℂ) + 1)) := by push_cast; rfl
    rw [hornerExp, Int.cast_sub, Int.cast_mul, Int.cast_mul, hcast, hcast']
    have : (d * (2 ^ P * ((m : ℂ) + 1)) * (Complex.I * (Y / 2 ^ P) / ((m : ℂ) + 1) * hornerExp (Complex.I * (Y / 2 ^ P)) fuel (m + 1)))
        = Complex.I * Y * (d * hornerExp (Complex.I * (Y / 2 ^ P)) fuel (m + 1)) := by
      field_simp
    linear_combination (-1 : ℂ) * this + Complex.I * Y * heq - (Y : ℂ) * b * Complex.I_sq

theorem pow_div_factorial_le (n : Nat) : (7 : ℝ) ^ (n + 14) / ((n + 14).factorial : ℝ) ≤ 8 * (2⁻¹) ^ n := by
  induction n with
  | zero => norm_num [Nat.factorial]
  | succ n ih =>
    rw [show n + 1 + 14 = (n + 14) + 1 by ring, pow_succ, Nat.factorial_succ]
    push_cast
    have h : (7 : ℝ) ^ (n + 14) * 7 / (((n : ℝ) + 14 + 1) * ((n + 14).factorial : ℝ))
        = (7 : ℝ) ^ (n + 14) / ((n + 14).factorial : ℝ) * (7 / ((n : ℝ) + 14 + 1)) := by
      field_simp
    have h7 : (7 : ℝ) / ((n : ℝ) + 14 + 1) ≤ 2⁻¹ := by
      rw [div_le_iff₀ (by positivity)]
      linarith [(Nat.cast_nonneg n : (0 : ℝ) ≤ n)]
    rw [h, pow_succ]
    calc (7 : ℝ) ^ (n + 14) / ((n + 14).factorial : ℝ) * (7 / ((n : ℝ) + 14 + 1))
        ≤ 8 * (2⁻¹) ^ n * 2⁻¹ := by gcongr
      _ = 8 * ((2⁻¹) ^ n * 2⁻¹) := by ring

/-- The series `expSeries` sums is the exponential to `p` places and more. -/
theorem norm_exp_sub_hornerExp_le (y : ℝ) (hy : |y| ≤ 7) (p : Nat) :
    ‖Complex.exp (Complex.I * y) - hornerExp (Complex.I * y) (p + 20) 0‖ ≤ (2⁻¹ : ℝ) ^ (p + 3) := by
  have hnorm : ‖Complex.I * (y : ℂ)‖ = |y| := by simp
  have hsum := hornerExp_eq_sum (Complex.I * y) (p + 20) 0
  simp only [pow_zero, Nat.factorial_zero, Nat.cast_one, div_one, one_mul, zero_add] at hsum
  rw [hsum]
  refine (Complex.exp_bound' ?_).trans ?_
  · rw [hnorm, div_le_iff₀ (by positivity)]
    push_cast
    linarith [(Nat.cast_nonneg p : (0 : ℝ) ≤ p)]
  · rw [hnorm]
    have h7 := pow_div_factorial_le (p + 7)
    rw [show p + 7 + 14 = p + 20 + 1 by ring] at h7
    calc |y| ^ (p + 20 + 1) / ((p + 20 + 1).factorial : ℝ) * 2
        ≤ (7 : ℝ) ^ (p + 20 + 1) / ((p + 20 + 1).factorial : ℝ) * 2 := by gcongr
      _ ≤ 8 * (2⁻¹) ^ (p + 7) * 2 := by gcongr
      _ = (2⁻¹ : ℝ) ^ (p + 3) := by rw [show p + 7 = p + 3 + 4 by ring, pow_add _ (p + 3) 4]; norm_num; ring

/-- The angle `cosSin` uses is `2π·j/N` to `p + 2` places. -/
theorem abs_angle_sub_le (p N j : Nat) (hj : j < N) :
    |((2 * (j : Int) * piApprox (workPlaces p) / (N : Int) : Int) : ℝ) / 2 ^ workPlaces p - 2 * Real.pi * j / N|
      ≤ (2⁻¹ : ℝ) ^ (p + 2) := by
  have hN : (0 : ℝ) < N := by exact_mod_cast (Nat.zero_le j).trans_lt hj
  have hNi : (0 : ℤ) < N := by exact_mod_cast (Nat.zero_le j).trans_lt hj
  set P := workPlaces p with hP
  have hpi := abs_piApprox_sub_le P
  set π' : Int := piApprox P with hπ'
  have hmod1 := Int.emod_nonneg (2 * (j : Int) * π') hNi.ne'
  have hmod2 := Int.emod_lt_of_pos (2 * (j : Int) * π') hNi
  have hdm := Int.emod_add_mul_ediv (2 * (j : Int) * π') (N : Int)
  set q : Int := 2 * (j : Int) * π' / (N : Int) with hq
  set r : Int := 2 * (j : Int) * π' % (N : Int) with hr
  have hdm' : (r : ℝ) + N * q = 2 * j * π' := by exact_mod_cast hdm
  have hr0 : (0 : ℝ) ≤ r := by exact_mod_cast hmod1
  have hr1 : (r : ℝ) < N := by exact_mod_cast hmod2
  have hjN : (j : ℝ) / N ≤ 1 := by
    rw [div_le_one hN]
    exact_mod_cast hj.le
  have hjN0 : (0 : ℝ) ≤ (j : ℝ) / N := by positivity
  have hqeq : (q : ℝ) - 2 ^ P * (2 * Real.pi * j / N) = 2 * (j / N) * (π' - 2 ^ P * Real.pi) - r / N := by
    have : (q : ℝ) = (2 * j * π' - r) / N := by rw [← hdm']; field_simp; ring
    rw [this]
    field_simp
    ring
  have hrN : (r : ℝ) / N ≤ 1 := by rw [div_le_one hN]; exact hr1.le
  have hrN0 : (0 : ℝ) ≤ r / N := by positivity
  have hbig : |(q : ℝ) - 2 ^ P * (2 * Real.pi * j / N)| ≤ 10 * P + 81 := by
    rw [hqeq]
    have h1 : |2 * ((j : ℝ) / N) * (π' - 2 ^ P * Real.pi)| ≤ 2 * (5 * P + 40) := by
      rw [abs_mul, abs_of_nonneg (by positivity)]
      have := mul_le_mul hjN hpi (abs_nonneg _) zero_le_one
      nlinarith
    rw [abs_le] at *
    constructor <;> linarith [h1.1, h1.2]
  have hp2 : (p : ℝ) + 1 ≤ 2 ^ p := by
    have := Nat.lt_two_pow_self (n := p)
    exact_mod_cast this
  have hPp : (10 * (P : ℝ) + 81) * 2 ^ (p + 2) ≤ 2 ^ P := by
    have hPr : (P : ℝ) = 2 * p + 16 := by rw [hP, workPlaces]; push_cast; ring
    rw [hPr, show P = (p + 2) + (p + 14) by rw [hP, workPlaces]; ring, pow_add 2 (p + 2) (p + 14), mul_comm]
    gcongr
    rw [pow_add 2 p 14]
    nlinarith
  have h2P : (0 : ℝ) < 2 ^ P := by positivity
  have hsplit : (q : ℝ) / 2 ^ P - 2 * Real.pi * j / N = ((q : ℝ) - 2 ^ P * (2 * Real.pi * j / N)) / 2 ^ P := by
    field_simp
  rw [hsplit, abs_div, abs_of_pos h2P, inv_pow, div_le_iff₀ h2P, ← div_eq_inv_mul, le_div_iff₀ (by positivity)]
  exact (mul_le_mul_of_nonneg_right hbig (by positivity)).trans hPp

/-- An integer quotient is the quotient of the reals to the integer below. -/
theorem abs_intDiv_sub_le (a : Int) (d : Nat) (hd : 0 < d) : |((a / (d : Int) : Int) : ℝ) - (a : ℝ) / d| ≤ 1 := by
  have hdi : (0 : ℤ) < d := by exact_mod_cast hd
  have hdr : (0 : ℝ) < d := by exact_mod_cast hd
  have h1 : ((a % d : Int) : ℝ) + d * ((a / d : Int) : ℝ) = a := by exact_mod_cast Int.emod_add_mul_ediv a d
  have h2 : (0 : ℝ) ≤ ((a % d : Int) : ℝ) := by exact_mod_cast Int.emod_nonneg a hdi.ne'
  have h3 : ((a % d : Int) : ℝ) < d := by exact_mod_cast Int.emod_lt_of_pos a hdi
  have h4 : ((a / (d : Int) : Int) : ℝ) - (a : ℝ) / d = -(((a % d : Int) : ℝ) / d) := by
    rw [← h1]
    field_simp
    ring
  rw [h4, abs_neg, abs_of_nonneg (by positivity), div_le_one hdr]
  exact h3.le

/-- `cosSin p N j` is `2^p` times the cosine and the sine of `2π·j/N`, each within 2. -/
theorem cosSin_spec (p N j : Nat) (hj : j < N) :
    |((cosSin p N j).1 : ℝ) - 2 ^ p * Real.cos (2 * Real.pi * j / N)| ≤ 2 ∧
      |((cosSin p N j).2 : ℝ) - 2 ^ p * Real.sin (2 * Real.pi * j / N)| ≤ 2 := by
  have hN : (0 : ℝ) < N := by exact_mod_cast (Nat.zero_le j).trans_lt hj
  have hangle := abs_angle_sub_le p N j hj
  rw [cosSin]
  set Y : Int := 2 * (j : Int) * piApprox (workPlaces p) / (N : Int) with hY
  obtain ⟨hd, heq⟩ := expSeries_spec Y (workPlaces p) (p + 20) 0
  generalize expSeries Y (workPlaces p) (p + 20) 0 = e at hd heq
  obtain ⟨a, b, d⟩ := e
  simp only at hd heq ⊢
  set y : ℝ := (Y : ℝ) / 2 ^ workPlaces p with hy
  set α : ℝ := 2 * Real.pi * j / N with hα
  have hyc : ((Y : ℂ) / 2 ^ workPlaces p) = (y : ℂ) := by rw [hy]; push_cast; rfl
  rw [hyc] at heq
  have hα0 : 0 ≤ α := by positivity
  have hα1 : α ≤ 6.5 := by
    rw [hα, div_le_iff₀ hN]
    have hjr : (j : ℝ) ≤ N := by exact_mod_cast hj.le
    nlinarith [Real.pi_lt_d2, Real.pi_pos]
  have h4 : (2⁻¹ : ℝ) ^ (p + 2) ≤ 4⁻¹ := by
    rw [pow_add]
    have : (2⁻¹ : ℝ) ^ p ≤ 1 := pow_le_one₀ (by norm_num) (by norm_num)
    norm_num at *
    linarith
  have hy7 : |y| ≤ 7 := by
    rw [abs_le] at *
    constructor <;> linarith [hangle.1, hangle.2]
  have hdr : (0 : ℝ) < d := by exact_mod_cast hd
  have hdc : (d : ℂ) ≠ 0 := by exact_mod_cast hd.ne'
  have hH : hornerExp (Complex.I * y) (p + 20) 0 = ((a / d : ℝ) : ℂ) + ((b / d : ℝ) : ℂ) * Complex.I := by
    push_cast
    field_simp
    rw [mul_comm, ← heq]
    ring
  have hexp := norm_exp_sub_hornerExp_le y hy7 p
  have hE : Complex.exp (Complex.I * y) = (Real.cos y : ℂ) + (Real.sin y : ℂ) * Complex.I := by
    rw [mul_comm, Complex.exp_mul_I]
    push_cast
    rfl
  rw [hE, hH] at hexp
  have hre := (Complex.abs_re_le_norm _).trans hexp
  have him := (Complex.abs_im_le_norm _).trans hexp
  simp at hre him
  have hcos := (Real.abs_cos_sub_cos_le y α).trans hangle
  have hsin := (Real.abs_sin_sub_sin_le y α).trans hangle
  have h2p : (0 : ℝ) < 2 ^ p := by positivity
  have hscale3 : (2 : ℝ) ^ p * (2⁻¹) ^ (p + 3) = 8⁻¹ := by
    rw [pow_add, ← mul_assoc, ← mul_pow]
    norm_num
  have hscale2 : (2 : ℝ) ^ p * (2⁻¹) ^ (p + 2) = 4⁻¹ := by
    rw [pow_add, ← mul_assoc, ← mul_pow]
    norm_num
  have key : ∀ (v : Int) (t y' : ℝ), |t - v / d| ≤ ((2 : ℝ) ^ (p + 3))⁻¹ → |t - y'| ≤ (2⁻¹ : ℝ) ^ (p + 2) →
      |((v * ((2 ^ p : Nat) : Int) / (d : Int) : Int) : ℝ) - 2 ^ p * y'| ≤ 2 := by
    intro v t y' h1 h2
    have hround := abs_intDiv_sub_le (v * ((2 ^ p : Nat) : Int)) d hd
    push_cast at hround
    push_cast
    rw [show (v : ℝ) * 2 ^ p / d = 2 ^ p * (v / d) by ring] at hround
    rw [← inv_pow] at h1
    have h1' := mul_le_mul_of_nonneg_left h1 h2p.le
    have h2' := mul_le_mul_of_nonneg_left h2 h2p.le
    have habs : ∀ u : ℝ, (2 : ℝ) ^ p * |u| = |2 ^ p * u| := fun u => by rw [abs_mul, abs_of_pos h2p]
    rw [hscale3, habs] at h1'
    rw [hscale2, habs] at h2'
    rw [abs_le] at *
    constructor <;> linarith [hround.1, hround.2, h1'.1, h1'.2, h2'.1, h2'.2]
  exact ⟨key a _ _ hre hcos, key b _ _ him hsin⟩

end Sys2Proof.Laws
end

