-- ==== Sys2Proof/Machine/ToneDetector.lean ====
section
/-!
DEFINITION. The ToneDetector (41_tone_detector.md): the test of DETECT for a rational threshold, decided exactly.
Machine/Detect.lean calls it.

The spec's test for a bin `b` is `A[b] − μ > θ·σ` over the real numbers (R93 to R95). With `θ = num/den` and both sides
times `N·den` it reads `den·(N·A[b] − ΣA) > num·(N·σ)`. A machine cannot hold a real number, so `verdictAt` computes
both sides as integers at a precision of `p` binary places, with a bound on how far they are off. It answers when the
difference exceeds the bound, and doubles `p` when it does not. A difference that stays within the bound at the last
precision is exactly 0, because a difference of these algebraic numbers that is not 0 cannot be that small. So the
verdict is the exact one of R13. Laws/ToneDetector.lean proves it equal to the formula over the reals.
-/
namespace Sys2Proof.Machine

/-- `Σ |x[n]|`: a bound on every magnitude of the spectrum. -/
def absSum (x : List Int) : Nat := (x.map Int.natAbs).sum

/-- One coefficient of the DFT (R93), times `2^p`: the sum of `x[n]·e^{−2πi·k·n/N}` from index `n` on, the roots of unity
read from the table. -/
def dftTerms (tab : List (Int × Int)) (N k : Nat) : Nat → List Int → Int × Int
  | _, [] => (0, 0)
  | n, v :: vs =>
    let root := tab.getD (k * n % N) (0, 0)
    let rest := dftTerms tab N k (n + 1) vs
    (v * root.1 + rest.1, rest.2 - v * root.2)

/-- `2^p·A[k]` (R93), to the integer below. -/
def magnitudeApprox (tab : List (Int × Int)) (x : List Int) (k : Nat) : Nat :=
  match dftTerms tab x.length k 0 x with
  | (re, im) => isqrt ((re * re + im * im).toNat)

/-- How far `magnitudeApprox` may be from `2^p·A[k]`. -/
def magnitudeSlack (x : List Int) : Nat := 4 * absSum x + 1

/-- The statistics of R94 times `N·2^p`, at one precision. -/
structure SpectrumApprox where
  /-- `N·A[k] − ΣA` for every bin `k`: the bin's excess over the mean, times `N`. -/
  excess : List Int
  /-- `N·σ`. -/
  spread : Nat
deriving DecidableEq, Repr

/-- The excess of every bin and the spread of the magnitudes (R94), from the magnitudes of all `N` bins. -/
def spectrumApprox (x : List Int) (p : Nat) : SpectrumApprox :=
  let mags := (List.range x.length).map (magnitudeApprox (rootTable p x.length) x)
  let excess := mags.map fun (a : Nat) => (x.length : Int) * a - (mags.sum : Nat)
  { excess := excess,
    spread := isqrt ((excess.map fun e => e.natAbs * e.natAbs).sum / x.length) }

/-- How far an excess may be from its real value times `2^p`; the spread is at most 1 further. -/
def excessSlack (x : List Int) : Nat := 2 * x.length * magnitudeSlack x

/-- The test of R95 at one precision: `some true` and `some false` are the exact verdict, `none` says that the two sides
are too close to tell. -/
def verdictAt (x : List Int) (θ : Rat) (b : Nat) (a : SpectrumApprox) : Option Bool :=
  let diff := (θ.den : Int) * a.excess.getD b 0 - θ.num * a.spread
  let slack := ((θ.den * excessSlack x + θ.num.natAbs * (excessSlack x + 1) : Nat) : Int)
  if slack < diff then some true else if diff + slack ≤ 0 then some false else none

/-- The number of binary places of the first attempt. -/
def firstPlaces : Nat := 32

/-- How often the precision may double before a difference must be exactly 0. -/
def doublings (x : List Int) (θ : Rat) : Nat :=
  2 * x.length + 4 + (2 * (excessSlack x + 1) * (θ.den + θ.num.natAbs)).log2

/-- The exact verdict, from the approximation at `p` places: the first precision that tells. If none does, the two sides
are equal, and the strict test of R97 fails. -/
def refine (x : List Int) (θ : Rat) (b : Nat) : Nat → Nat → SpectrumApprox → Bool
  | fuel, p, a =>
    match verdictAt x θ b a with
    | some v => v
    | none =>
      match fuel with
      | 0 => false
      | fuel + 1 => refine x θ b fuel (2 * p) (spectrumApprox x (2 * p))

/-- The circular autocorrelation of the window at lag `d`: `|X[k]|²` is the DFT of it. -/
def autocorrelation (x : List Int) (d : Nat) : Int :=
  ((x.zip (x.drop d ++ x.take d)).map fun v => v.1 * v.2).sum

/-- Whether the autocorrelation vanishes at every lag but 0 and `N/2`. The magnitudes then take at most two values, one
at the even bins and one at the odd bins. Silence, an impulse and every other flat spectrum (R96) are of this kind. -/
def isTwoLevel (x : List Int) : Bool :=
  (List.range x.length).all fun d => decide (d = 0) || decide (2 * d = x.length) || decide (autocorrelation x d = 0)

/-- The autocorrelation at lag `N/2`, where there is such a lag other than 0. -/
def halfLag (x : List Int) : Int :=
  if x.length % 2 = 0 ∧ 0 < x.length then autocorrelation x (x.length / 2) else 0

/-- The test of R95 for a two-level spectrum. With equal levels `σ = 0` and nothing is detected (R96). Otherwise half the
bins stand above the mean by exactly `σ` and half below by `σ`. -/
def twoLevelVerdict (x : List Int) (θ : Rat) (b : Nat) : Bool :=
  if halfLag x = 0 then false
  else if decide (b % 2 = 0) = decide (0 < halfLag x) then decide (θ < 1)
  else decide (θ < -1)

/-- DETECT over the window's values (R95) with a rational threshold: one verdict for each position of `bins`. -/
def detectRational (x : List Int) (bins : List Nat) (θ : Rat) : List Bool :=
  if isTwoLevel x then bins.map fun b => twoLevelVerdict x θ (b % x.length)
  else
    let first := spectrumApprox x firstPlaces
    bins.map fun b => refine x θ (b % x.length) (doublings x θ) firstPlaces first

end Sys2Proof.Machine
end

