-- ==== Sys2Proof/Safety/Spectrum.lean ====
section
/-!
DEFINITION. The spectrum of the window and its statistics over the real numbers, as 41_tone_detector.md R93 to R95 write
them. The machine does not call these: claims about DETECT are stated in them, and Laws/ToneDetector.lean
and Laws/Detect.lean prove that the machine's DETECT is the test they define.
-/
namespace Sys2Proof.Safety

/-- `X[k] = Σ_{n<N} x[n]·e^{−2πi·k·n/N}` (R93). -/
noncomputable def coefficient (x : List Int) (k : Nat) : ℂ :=
  ∑ n ∈ Finset.range x.length,
    ((x.getD n 0 : Int) : ℂ) * Complex.exp (-(2 * Real.pi * Complex.I * k * n / x.length))

/-- `A[k] = |X[k]|` (R93). -/
noncomputable def magnitude (x : List Int) (k : Nat) : ℝ := ‖coefficient x k‖

/-- `μ`, over all `N` bins (R94). -/
noncomputable def mean (x : List Int) : ℝ :=
  (∑ k ∈ Finset.range x.length, magnitude x k) / x.length

/-- `σ`, the population standard deviation (R94). -/
noncomputable def stdDev (x : List Int) : ℝ :=
  √((∑ k ∈ Finset.range x.length, (magnitude x k - mean x) ^ 2) / x.length)

/-- The test of R95 for bin `b`: `(A[b] − μ) > θ·σ`. -/
def Detected (x : List Int) (b : Nat) (θ : ℝ) : Prop :=
  θ * stdDev x < magnitude x b - mean x

end Sys2Proof.Safety
end

