-- ==== Sys2Proof/Laws/Spectrum.lean ====
section
/-!
SUPPORT. How far one precision's approximation of the spectrum is from the spectrum over the reals.
-/
namespace Sys2Proof.Laws

open Sys2Proof.Machine Sys2Proof.Safety

/-! ### The coefficients -/

theorem angle_mod (N j : Nat) (hN : 0 < N) :
    ∃ m : ℤ, (2 * Real.pi * (j : ℝ) / N) = 2 * Real.pi * ((j % N : Nat) : ℝ) / N + m * (2 * Real.pi) := by
  have hN' : (N : ℝ) ≠ 0 := by exact_mod_cast hN.ne'
  refine ⟨((j / N : Nat) : ℤ), ?_⟩
  have h : ((j % N : Nat) : ℝ) + N * ((j / N : Nat) : ℝ) = j := by exact_mod_cast Nat.mod_add_div j N
  rw [Int.cast_natCast, ← h]
  field_simp

/-- The table's entry for `k·n`. -/
theorem rootTable_spec (p N j : Nat) (hN : 0 < N) :
    |(((rootTable p N).getD (j % N) (0, 0)).1 : ℝ) - 2 ^ p * Real.cos (2 * Real.pi * j / N)| ≤ 2 ∧
      |(((rootTable p N).getD (j % N) (0, 0)).2 : ℝ) - 2 ^ p * Real.sin (2 * Real.pi * j / N)| ≤ 2 := by
  have hlt := Nat.mod_lt j hN
  have hget : (rootTable p N).getD (j % N) (0, 0) = cosSin p N (j % N) := by
    simp [rootTable, List.getD_eq_getElem?_getD, hlt]
  obtain ⟨m, hm⟩ := angle_mod N j hN
  rw [hget, hm, Real.cos_add_int_mul_two_pi, Real.sin_add_int_mul_two_pi]
  exact cosSin_spec p N (j % N) hlt

/-- The terms of a coefficient, each within `2·|x[n]|`. -/
theorem dftTerms_spec (p N k : Nat) (hN : 0 < N) (n : Nat) (xs : List Int) :
    |((dftTerms (rootTable p N) N k n xs).1 : ℝ)
        - 2 ^ p * ∑ i ∈ Finset.range xs.length, (xs.getD i 0 : ℝ) * Real.cos (2 * Real.pi * ((k * (n + i) : Nat) : ℝ) / N)|
      ≤ 2 * absSum xs ∧
    |((dftTerms (rootTable p N) N k n xs).2 : ℝ)
        - 2 ^ p * -∑ i ∈ Finset.range xs.length, (xs.getD i 0 : ℝ) * Real.sin (2 * Real.pi * ((k * (n + i) : Nat) : ℝ) / N)|
      ≤ 2 * absSum xs := by
  induction xs generalizing n with
  | nil => simp [dftTerms, absSum]
  | cons v vs ih =>
    obtain ⟨ih1, ih2⟩ := ih (n + 1)
    obtain ⟨r1, r2⟩ := rootTable_spec p N (k * n) hN
    have hshift : ∀ i, k * (n + (i + 1)) = k * (n + 1 + i) := fun i => by ring
    have habs : (absSum (v :: vs) : ℝ) = |(v : ℝ)| + absSum vs := by
      simp [absSum, Nat.cast_natAbs]
    have bound : ∀ c t : ℝ, |c - t| ≤ 2 → |(v : ℝ) * (c - t)| ≤ 2 * |(v : ℝ)| := fun c t h => by
      rw [abs_mul, mul_comm]
      gcongr
    have h1 := bound _ _ r1
    have h2 := bound _ _ r2
    simp only [dftTerms, List.length_cons, Finset.sum_range_succ', List.getD_cons_succ, List.getD_cons_zero, hshift,
      add_zero]
    push_cast at *
    rw [habs]
    rw [abs_le] at ih1 ih2 h1 h2
    constructor <;> rw [abs_le] <;> constructor <;> linarith [ih1.1, ih1.2, ih2.1, ih2.2, h1.1, h1.2, h2.1, h2.2]

theorem coefficient_eq (x : List Int) (k : Nat) :
    coefficient x k =
      ((∑ i ∈ Finset.range x.length, (x.getD i 0 : ℝ) * Real.cos (2 * Real.pi * ((k * i : Nat) : ℝ) / x.length) : ℝ) : ℂ)
      + ((-∑ i ∈ Finset.range x.length, (x.getD i 0 : ℝ) * Real.sin (2 * Real.pi * ((k * i : Nat) : ℝ) / x.length) : ℝ) : ℂ)
        * Complex.I := by
  rw [coefficient]
  push_cast
  rw [neg_mul, Finset.sum_mul, ← sub_eq_add_neg, ← Finset.sum_sub_distrib]
  refine Finset.sum_congr rfl fun n _ => ?_
  have : -(2 * (Real.pi : ℂ) * Complex.I * k * n / x.length)
      = (-(2 * (Real.pi : ℂ) * (k * n) / x.length)) * Complex.I := by ring
  rw [this, Complex.exp_mul_I, Complex.cos_neg, Complex.sin_neg]
  ring

/-- `magnitudeApprox` is `2^p·A[k]` within `magnitudeSlack`. -/
theorem magnitudeApprox_spec (x : List Int) (p k : Nat) (hx : 0 < x.length) :
    |(magnitudeApprox (rootTable p x.length) x k : ℝ) - 2 ^ p * magnitude x k| ≤ magnitudeSlack x := by
  obtain ⟨h1, h2⟩ := dftTerms_spec p x.length k hx 0 x
  simp only [zero_add] at h1 h2
  have hc := coefficient_eq x k
  rw [magnitudeApprox]
  generalize dftTerms (rootTable p x.length) x.length k 0 x = t at *
  obtain ⟨re, im⟩ := t
  simp only at h1 h2 ⊢
  generalize (∑ i ∈ Finset.range x.length, (x.getD i 0 : ℝ) * Real.cos (2 * Real.pi * ((k * i : Nat) : ℝ) / x.length)) = R at *
  generalize (-∑ i ∈ Finset.range x.length, (x.getD i 0 : ℝ) * Real.sin (2 * Real.pi * ((k * i : Nat) : ℝ) / x.length)) = J at *
  have hnat : (((re * re + im * im).toNat : Nat) : ℝ) = (re : ℝ) ^ 2 + (im : ℝ) ^ 2 := by
    have : ((re * re + im * im).toNat : Int) = re * re + im * im :=
      Int.toNat_of_nonneg (by nlinarith [mul_self_nonneg re, mul_self_nonneg im])
    have h' : (((re * re + im * im).toNat : Nat) : ℝ) = ((re * re + im * im : Int) : ℝ) := by exact_mod_cast this
    rw [h']
    push_cast
    ring
  have hsq := abs_isqrt_sub_sqrt_le (re * re + im * im).toNat
  rw [hnat] at hsq
  have hnorm : √((re : ℝ) ^ 2 + (im : ℝ) ^ 2) = ‖((re : ℝ) : ℂ) + ((im : ℝ) : ℂ) * Complex.I‖ := by
    rw [Complex.norm_add_mul_I]
  have hscale : 2 ^ p * magnitude x k = ‖((2 ^ p * R : ℝ) : ℂ) + ((2 ^ p * J : ℝ) : ℂ) * Complex.I‖ := by
    rw [magnitude, hc]
    have : ((2 ^ p * R : ℝ) : ℂ) + ((2 ^ p * J : ℝ) : ℂ) * Complex.I = ((2 ^ p : ℝ) : ℂ) * ((R : ℂ) + (J : ℂ) * Complex.I) := by
      push_cast
      ring
    rw [this, norm_mul, Complex.norm_real, Real.norm_of_nonneg (by positivity)]
  have htri : |√((re : ℝ) ^ 2 + (im : ℝ) ^ 2) - 2 ^ p * magnitude x k| ≤ 4 * absSum x := by
    rw [hnorm, hscale]
    refine (abs_norm_sub_norm_le _ _).trans ?_
    have : ((re : ℝ) : ℂ) + ((im : ℝ) : ℂ) * Complex.I - (((2 ^ p * R : ℝ) : ℂ) + ((2 ^ p * J : ℝ) : ℂ) * Complex.I)
        = (((re : ℝ) - 2 ^ p * R : ℝ) : ℂ) + (((im : ℝ) - 2 ^ p * J : ℝ) : ℂ) * Complex.I := by
      push_cast
      ring
    rw [this]
    refine (norm_add_le _ _).trans ?_
    rw [norm_mul, Complex.norm_I, mul_one, Complex.norm_real, Complex.norm_real, Real.norm_eq_abs, Real.norm_eq_abs]
    linarith
  rw [magnitudeSlack]
  push_cast
  rw [abs_le] at *
  constructor <;> linarith [hsq.1, hsq.2, htri.1, htri.2]

/-! ### The statistics -/

theorem list_sum_range {α : Type} [AddCommMonoid α] (f : Nat → α) (n : Nat) :
    ((List.range n).map f).sum = ∑ i ∈ Finset.range n, f i := by
  induction n with
  | zero => simp
  | succ n ih => simp [List.range_succ, Finset.sum_range_succ, ih]

/-- The first `N` values of `f` as a vector, so that a root of a sum of squares is a norm. -/
noncomputable def valueVector (N : Nat) (f : Nat → ℝ) : EuclideanSpace ℝ (Fin N) := WithLp.toLp 2 fun i => f i

theorem norm_valueVector (N : Nat) (f : Nat → ℝ) : ‖valueVector N f‖ = √(∑ k ∈ Finset.range N, f k ^ 2) := by
  rw [EuclideanSpace.norm_eq, Finset.sum_range]
  simp [valueVector]

theorem valueVector_sub (N : Nat) (f g : Nat → ℝ) :
    valueVector N f - valueVector N g = valueVector N fun k => f k - g k := by
  ext i
  simp [valueVector]

/-- A root mean square moves by at most as much as its entries do. -/
theorem abs_rms_sub_le (N : Nat) (f g : Nat → ℝ) (δ : ℝ) (hδ : 0 ≤ δ) (hN : 0 < N)
    (h : ∀ k < N, |f k - g k| ≤ δ) :
    |√((∑ k ∈ Finset.range N, f k ^ 2) / N) - √((∑ k ∈ Finset.range N, g k ^ 2) / N)| ≤ δ := by
  have hNr : (0 : ℝ) < N := by exact_mod_cast hN
  have hsum : ∑ k ∈ Finset.range N, (f k - g k) ^ 2 ≤ N * δ ^ 2 := by
    calc ∑ k ∈ Finset.range N, (f k - g k) ^ 2 ≤ ∑ _k ∈ Finset.range N, δ ^ 2 :=
          Finset.sum_le_sum fun k hk => by
            rw [← sq_abs]
            exact pow_le_pow_left₀ (abs_nonneg _) (h k (Finset.mem_range.mp hk)) 2
      _ = N * δ ^ 2 := by simp
  have hdiff : ‖valueVector N f - valueVector N g‖ ≤ √N * δ := by
    rw [valueVector_sub, norm_valueVector]
    refine (Real.sqrt_le_sqrt hsum).trans ?_
    rw [Real.sqrt_mul hNr.le, Real.sqrt_sq hδ]
  have hsN : 0 < √(N : ℝ) := Real.sqrt_pos.mpr hNr
  rw [Real.sqrt_div' _ hNr.le, Real.sqrt_div' _ hNr.le, ← sub_div, abs_div, abs_of_pos hsN, div_le_iff₀ hsN,
    ← norm_valueVector, ← norm_valueVector, mul_comm δ]
  exact (abs_norm_sub_norm_le _ _).trans hdiff

/-- `isqrt` of a quotient to the integer below is the root of the real quotient to the integer below. -/
theorem abs_isqrt_div_sub_le (n N : Nat) (hN : 0 < N) : |(isqrt (n / N) : ℝ) - √((n : ℝ) / N)| ≤ 1 := by
  have hNr : (0 : ℝ) < N := by exact_mod_cast hN
  obtain ⟨h1, h2⟩ := isqrt_spec (n / N)
  have hlo : ((isqrt (n / N) : ℕ) : ℝ) ≤ √((n : ℝ) / N) := by
    refine Real.le_sqrt_of_sq_le ?_
    rw [le_div_iff₀ hNr]
    have := (Nat.mul_le_mul_right N h1).trans (Nat.div_mul_le_self n N)
    rw [sq]
    exact_mod_cast this
  have hhi : √((n : ℝ) / N) < (isqrt (n / N) : ℝ) + 1 := by
    rw [Real.sqrt_lt' (by positivity), div_lt_iff₀ hNr]
    have h3 : n < (isqrt (n / N) + 1) * (isqrt (n / N) + 1) * N := (Nat.div_lt_iff_lt_mul hN).mp h2
    have : (n : ℝ) < ((isqrt (n / N) + 1) * (isqrt (n / N) + 1) * N : ℕ) := by exact_mod_cast h3
    push_cast at this
    linarith [this]
  rw [abs_le]
  constructor <;> linarith

/-- `N·A[k] − ΣA`, the real excess of a bin. -/
noncomputable def realExcess (x : List Int) (k : Nat) : ℝ :=
  x.length * magnitude x k - ∑ j ∈ Finset.range x.length, magnitude x j

/-- `N·σ`. -/
noncomputable def realSpread (x : List Int) : ℝ :=
  √((∑ k ∈ Finset.range x.length, realExcess x k ^ 2) / x.length)

theorem excess_getD (x : List Int) (p b : Nat) (hb : b < x.length) :
    (spectrumApprox x p).excess.getD b 0
      = (x.length : Int) * (magnitudeApprox (rootTable p x.length) x b : Int)
        - ((∑ j ∈ Finset.range x.length, magnitudeApprox (rootTable p x.length) x j : Nat) : Int) := by
  simp [spectrumApprox, List.getD_eq_getElem?_getD, hb, list_sum_range]

/-- An excess is `2^p` times the real one within `excessSlack`. -/
theorem excess_spec (x : List Int) (p b : Nat) (hb : b < x.length) :
    |((spectrumApprox x p).excess.getD b 0 : ℝ) - 2 ^ p * realExcess x b| ≤ excessSlack x := by
  have hx : 0 < x.length := (Nat.zero_le b).trans_lt hb
  have hNr : (0 : ℝ) < x.length := by exact_mod_cast hx
  rw [excess_getD x p b hb, realExcess, excessSlack]
  have h1 := magnitudeApprox_spec x p b hx
  have h2 : |(∑ j ∈ Finset.range x.length, (magnitudeApprox (rootTable p x.length) x j : ℝ))
      - 2 ^ p * ∑ j ∈ Finset.range x.length, magnitude x j| ≤ x.length * magnitudeSlack x := by
    rw [Finset.mul_sum, ← Finset.sum_sub_distrib]
    refine (Finset.abs_sum_le_sum_abs _ _).trans ?_
    refine (Finset.sum_le_sum fun j _ => magnitudeApprox_spec x p j hx).trans ?_
    simp
  have h3 := mul_le_mul_of_nonneg_left h1 hNr.le
  have h4 : |(x.length : ℝ) * magnitudeApprox (rootTable p x.length) x b - x.length * (2 ^ p * magnitude x b)|
      ≤ x.length * magnitudeSlack x := by
    rw [← mul_sub, abs_mul, abs_of_pos hNr]
    exact h3
  push_cast
  rw [abs_le] at *
  constructor <;> nlinarith [h4.1, h4.2, h2.1, h2.2]

/-- The spread is `2^p` times the real one within `excessSlack + 1`. -/
theorem spread_spec (x : List Int) (p : Nat) (hx : 0 < x.length) :
    |((spectrumApprox x p).spread : ℝ) - 2 ^ p * realSpread x| ≤ excessSlack x + 1 := by
  have hNr : (0 : ℝ) < x.length := by exact_mod_cast hx
  have hsum : ((((spectrumApprox x p).excess.map fun e => e.natAbs * e.natAbs).sum : Nat) : ℝ)
      = ∑ k ∈ Finset.range x.length, ((spectrumApprox x p).excess.getD k 0 : ℝ) ^ 2 := by
    have hlen : (spectrumApprox x p).excess
        = (List.range x.length).map fun k => (spectrumApprox x p).excess.getD k 0 := by
      refine List.ext_getElem (by simp [spectrumApprox]) fun i h1 h2 => ?_
      simp [List.getD_eq_getElem?_getD, h1]
    conv_lhs => rw [hlen]
    rw [List.map_map, list_sum_range]
    push_cast
    refine Finset.sum_congr rfl fun k hk => ?_
    have hk' := Finset.mem_range.mp hk
    simp only [Function.comp_apply]
    rw [Nat.cast_mul, Nat.cast_natAbs, ← sq]
    push_cast
    rw [sq_abs]
  have hspread : (spectrumApprox x p).spread
      = isqrt (((spectrumApprox x p).excess.map fun e => e.natAbs * e.natAbs).sum / x.length) := rfl
  have h1 := abs_isqrt_div_sub_le (((spectrumApprox x p).excess.map fun e => e.natAbs * e.natAbs).sum) x.length hx
  rw [← hspread, hsum] at h1
  have h2 := abs_rms_sub_le x.length (fun k => ((spectrumApprox x p).excess.getD k 0 : ℝ))
    (fun k => 2 ^ p * realExcess x k) (excessSlack x) (by positivity) hx fun k hk => excess_spec x p k hk
  have h3 : √((∑ k ∈ Finset.range x.length, (2 ^ p * realExcess x k) ^ 2) / x.length) = 2 ^ p * realSpread x := by
    have : (∑ k ∈ Finset.range x.length, (2 ^ p * realExcess x k) ^ 2) / (x.length : ℝ)
        = (2 ^ p) ^ 2 * ((∑ k ∈ Finset.range x.length, realExcess x k ^ 2) / x.length) := by
      rw [Finset.sum_congr rfl fun k _ => mul_pow _ _ _, ← Finset.mul_sum]
      ring
    rw [this, Real.sqrt_mul (by positivity), Real.sqrt_sq (by positivity), realSpread]
  rw [h3] at h2
  rw [abs_le] at *
  constructor <;> linarith [h1.1, h1.2, h2.1, h2.2]

/-! ### The verdict at one precision -/

/-- The two sides of R95's test subtracted, times `N·den`. -/
noncomputable def realMargin (x : List Int) (θ : Rat) (b : Nat) : ℝ :=
  θ.den * realExcess x b - θ.num * realSpread x

/-- The bound of `verdictAt` on how far its difference may be off. -/
def marginSlack (x : List Int) (θ : Rat) : Nat :=
  θ.den * excessSlack x + θ.num.natAbs * (excessSlack x + 1)

theorem diff_spec (x : List Int) (θ : Rat) (p b : Nat) (hb : b < x.length) :
    |(((θ.den : Int) * (spectrumApprox x p).excess.getD b 0 - θ.num * (spectrumApprox x p).spread : Int) : ℝ)
      - 2 ^ p * realMargin x θ b| ≤ marginSlack x θ := by
  have h1 := excess_spec x p b hb
  have h2 := spread_spec x p ((Nat.zero_le b).trans_lt hb)
  have h3 : |(θ.den : ℝ) * ((spectrumApprox x p).excess.getD b 0) - θ.den * (2 ^ p * realExcess x b)|
      ≤ θ.den * excessSlack x := by
    rw [← mul_sub, abs_mul, Nat.abs_cast]
    gcongr
  have h4 : |(θ.num : ℝ) * ((spectrumApprox x p).spread) - θ.num * (2 ^ p * realSpread x)|
      ≤ θ.num.natAbs * (excessSlack x + 1) := by
    rw [← mul_sub, abs_mul, Nat.cast_natAbs]
    push_cast
    gcongr
  rw [realMargin, marginSlack]
  push_cast
  rw [abs_le] at *
  constructor <;> linarith [h3.1, h3.2, h4.1, h4.2]

/-- What each answer of `verdictAt` says of the exact margin. -/
theorem verdictAt_spec (x : List Int) (θ : Rat) (p b : Nat) (hb : b < x.length) :
    match verdictAt x θ b (spectrumApprox x p) with
    | some true => 0 < realMargin x θ b
    | some false => realMargin x θ b ≤ 0
    | none => 2 ^ p * |realMargin x θ b| ≤ 2 * marginSlack x θ := by
  have h := diff_spec x θ p b hb
  have h2p : (0 : ℝ) < 2 ^ p := by positivity
  rw [verdictAt]
  generalize hd : (θ.den : Int) * (spectrumApprox x p).excess.getD b 0 - θ.num * (spectrumApprox x p).spread = d at h
  rw [show θ.den * excessSlack x + θ.num.natAbs * (excessSlack x + 1) = marginSlack x θ from rfl]
  rw [abs_le] at h
  split_ifs with h1 h2
  · have : ((marginSlack x θ : Int) : ℝ) < d := by exact_mod_cast h1
    push_cast at this
    have : 0 < 2 ^ p * realMargin x θ b := by linarith [h.2]
    exact pos_of_mul_pos_right this h2p.le |> fun h => h
  · have : ((d + marginSlack x θ : Int) : ℝ) ≤ 0 := by exact_mod_cast h2
    push_cast at this
    have : 2 ^ p * realMargin x θ b ≤ 0 := by linarith [h.1]
    exact nonpos_of_mul_nonpos_right this h2p
  · have h1' : (d : ℝ) ≤ marginSlack x θ := by exact_mod_cast not_lt.mp h1
    have h2' : (0 : ℝ) < d + marginSlack x θ := by exact_mod_cast not_le.mp h2
    change 2 ^ p * |realMargin x θ b| ≤ 2 * marginSlack x θ
    rw [show 2 ^ p * |realMargin x θ b| = |2 ^ p * realMargin x θ b| by rw [abs_mul, abs_of_pos h2p], abs_le]
    constructor <;> linarith [h.1, h.2]

/-- The test of R95 is a positive margin. -/
theorem detected_iff_margin_pos (x : List Int) (θ : Rat) (b : Nat) (hx : 0 < x.length) :
    Detected x b θ ↔ 0 < realMargin x θ b := by
  have hN : (0 : ℝ) < x.length := by exact_mod_cast hx
  have hden : (0 : ℝ) < θ.den := by exact_mod_cast θ.den_pos
  have hexc : ∀ k, realExcess x k = x.length * (magnitude x k - mean x) := fun k => by
    rw [realExcess, mean]
    field_simp
  have hspr : realSpread x = x.length * stdDev x := by
    rw [realSpread, stdDev, ← Real.sqrt_sq hN.le, ← Real.sqrt_mul (by positivity), Real.sqrt_sq hN.le]
    congr 1
    rw [Finset.sum_congr rfl fun k _ => by rw [hexc k, mul_pow], ← Finset.mul_sum]
    ring
  have hθ : (θ : ℝ) = θ.num / θ.den := Rat.cast_def θ
  have : realMargin x θ b = x.length * θ.den * (magnitude x b - mean x - θ * stdDev x) := by
    rw [realMargin, hexc, hspr, hθ]
    field_simp
  rw [this, Detected, ← sub_pos]
  exact (mul_pos_iff_of_pos_left (by positivity)).symm

end Sys2Proof.Laws
end

