-- ==== Sys2Proof/Laws/Separation.lean ====
section
/-!
SUPPORT. A margin of R95's test that is not 0 cannot be arbitrarily small: it is an algebraic integer of bounded degree
with bounded conjugates, so its norm is at least 1.
-/
namespace Sys2Proof.Laws

open Sys2Proof.Machine Sys2Proof.Safety
open Module IntermediateField

/-! ### Nonzero algebraic integers are not small -/

/-- The norm of a nonzero algebraic integer is a nonzero integer, and the product of its conjugates. -/
theorem one_le_norm_mul_pow (L : IntermediateField ℚ ℂ) [FiniteDimensional ℚ L] (t : L) (ht : IsIntegral ℤ t)
    (h0 : t ≠ 0) (B : ℝ) (hB : 1 ≤ B) (hconj : ∀ φ : L →ₐ[ℚ] ℂ, ‖φ t‖ ≤ B) (D : Nat) (hD : finrank ℚ L ≤ D) :
    1 ≤ ‖(t : ℂ)‖ * B ^ D := by
  classical
  obtain ⟨n, hn⟩ := (IsIntegrallyClosed.isIntegral_iff (R := ℤ) (K := ℚ)).mp
    (Algebra.isIntegral_norm (R := ℤ) (L := L) (K := ℚ) ht)
  have hnorm := Algebra.norm_eq_prod_embeddings ℚ ℂ t
  have hn0 : n ≠ 0 := by
    rintro rfl
    rw [map_zero] at hn
    exact h0 (Algebra.norm_eq_zero_iff.mp hn.symm)
  have hone : (1 : ℝ) ≤ ‖∏ φ : L →ₐ[ℚ] ℂ, φ t‖ := by
    rw [← hnorm, ← hn]
    simp only [algebraMap_int_eq, eq_intCast, map_intCast, Complex.norm_intCast]
    exact_mod_cast Int.one_le_abs hn0
  have hsplit := Finset.mul_prod_erase Finset.univ (fun φ : L →ₐ[ℚ] ℂ => ‖φ t‖) (Finset.mem_univ L.val)
  rw [norm_prod, ← hsplit] at hone
  refine hone.trans ?_
  change ‖(t : ℂ)‖ * _ ≤ _
  gcongr
  calc ∏ φ ∈ Finset.univ.erase L.val, ‖φ t‖ ≤ ∏ _φ ∈ Finset.univ.erase L.val, B :=
        Finset.prod_le_prod (fun _ _ => norm_nonneg _) fun φ _ => hconj φ
    _ = B ^ (Finset.univ.erase L.val).card := Finset.prod_const B
    _ ≤ B ^ D := by
        refine pow_le_pow_right₀ hB (le_trans (Finset.card_le_card (Finset.erase_subset _ _)) ?_)
        rw [Finset.card_univ, AlgHom.card]
        exact hD

/-- Adjoining a square root at most doubles the degree. -/
theorem exists_adjoin_root (K : IntermediateField ℚ ℂ) [FiniteDimensional ℚ K] (a : ℂ) (ha : a ^ 2 ∈ K) :
    ∃ K' : IntermediateField ℚ ℂ, K ≤ K' ∧ a ∈ K' ∧ FiniteDimensional ℚ K' ∧ finrank ℚ K' ≤ 2 * finrank ℚ K := by
  let q : Polynomial K := Polynomial.X ^ 2 - Polynomial.C ⟨a ^ 2, ha⟩
  have hmonic : q.Monic := Polynomial.monic_X_pow_sub_C _ two_ne_zero
  have hdeg : q.natDegree = 2 := Polynomial.natDegree_X_pow_sub_C
  have hroot : Polynomial.aeval a q = 0 := by simp [q]
  have hint : IsIntegral K a := ⟨q, hmonic, hroot⟩
  have hfin : FiniteDimensional K K⟮a⟯ := adjoin.finiteDimensional hint
  have hrank : finrank K K⟮a⟯ ≤ 2 := by
    rw [adjoin.finrank hint, ← hdeg]
    exact Polynomial.natDegree_le_natDegree (minpoly.min K a hmonic hroot)
  refine ⟨(K⟮a⟯).restrictScalars ℚ, fun y hy => ?_, mem_adjoin_simple_self K a, ?_, ?_⟩
  · exact (K⟮a⟯).algebraMap_mem ⟨y, hy⟩
  · exact FiniteDimensional.trans ℚ K K⟮a⟯
  · have hmul : finrank ℚ K * finrank K K⟮a⟯ = finrank ℚ K⟮a⟯ := finrank_mul_finrank ℚ K K⟮a⟯
    have hsame : finrank ℚ ((K⟮a⟯).restrictScalars ℚ) = finrank ℚ K⟮a⟯ := rfl
    rw [hsame, ← hmul, mul_comm 2]
    exact Nat.mul_le_mul_left _ hrank

/-- Adjoining `n` square roots multiplies the degree by at most `2^n`. -/
theorem exists_adjoin_roots (K : IntermediateField ℚ ℂ) [FiniteDimensional ℚ K] (a : Nat → ℂ) (n : Nat)
    (ha : ∀ k < n, a k ^ 2 ∈ K) :
    ∃ K' : IntermediateField ℚ ℂ, K ≤ K' ∧ (∀ k < n, a k ∈ K') ∧ FiniteDimensional ℚ K' ∧
      finrank ℚ K' ≤ 2 ^ n * finrank ℚ K := by
  induction n with
  | zero => exact ⟨K, le_rfl, fun k hk => absurd hk (Nat.not_lt_zero k), inferInstance, by simp⟩
  | succ n ih =>
    obtain ⟨K₁, hle, hmem, hfin, hrank⟩ := ih fun k hk => ha k (by omega)
    obtain ⟨K₂, hle₂, hmem₂, hfin₂, hrank₂⟩ := exists_adjoin_root K₁ (a n) (hle (ha n (by omega)))
    refine ⟨K₂, hle.trans hle₂, fun k hk => ?_, hfin₂, hrank₂.trans ?_⟩
    · rcases Nat.lt_succ_iff_lt_or_eq.mp hk with h | rfl
      · exact hle₂ (hmem k h)
      · exact hmem₂
    · rw [pow_succ, mul_comm (2 ^ n), mul_assoc]
      exact Nat.mul_le_mul_left 2 hrank

/-- The field of the `N`-th roots of unity has degree at most `N`. -/
theorem exists_root_field (N : Nat) (hN : 0 < N) (ζ : ℂ) (hζ : ζ ^ N = 1) :
    ∃ K : IntermediateField ℚ ℂ, ζ ∈ K ∧ FiniteDimensional ℚ K ∧ finrank ℚ K ≤ N := by
  let q : Polynomial ℚ := Polynomial.X ^ N - Polynomial.C 1
  have hmonic : q.Monic := Polynomial.monic_X_pow_sub_C _ hN.ne'
  have hdeg : q.natDegree = N := Polynomial.natDegree_X_pow_sub_C
  have hroot : Polynomial.aeval ζ q = 0 := by simp [q, hζ]
  have hint : IsIntegral ℚ ζ := ⟨q, hmonic, hroot⟩
  refine ⟨ℚ⟮ζ⟯, mem_adjoin_simple_self ℚ ζ, adjoin.finiteDimensional hint, ?_⟩
  rw [adjoin.finrank hint, ← hdeg]
  exact Polynomial.natDegree_le_natDegree (minpoly.min ℚ ζ hmonic hroot)

/-! ### The magnitudes as algebraic integers -/

/-- The polynomial `Σ x[n]·z^(k·n)` at `z`; the DFT's coefficient is its value at a root of unity. -/
noncomputable def polyAt {R : Type} [CommRing R] (x : List Int) (k : Nat) (z : R) : R :=
  ∑ n ∈ Finset.range x.length, ((x.getD n 0 : Int) : R) * z ^ (k * n)

/-- The root of unity of an `N`-point DFT. -/
noncomputable def unityRoot (N : Nat) : ℂ := Complex.exp (-(2 * Real.pi * Complex.I / N))

theorem unityRoot_pow (N : Nat) (hN : 0 < N) : unityRoot N ^ N = 1 := by
  have hN' : (N : ℂ) ≠ 0 := by exact_mod_cast hN.ne'
  rw [unityRoot, ← Complex.exp_nat_mul, mul_neg, mul_div_cancel₀ _ hN', Complex.exp_neg, Complex.exp_two_pi_mul_I,
    inv_one]

theorem norm_unityRoot (N : Nat) (hN : 0 < N) : ‖unityRoot N‖ = 1 :=
  Complex.norm_eq_one_of_pow_eq_one (unityRoot_pow N hN) hN.ne'

theorem coefficient_eq_polyAt (x : List Int) (k : Nat) : coefficient x k = polyAt x k (unityRoot x.length) := by
  refine Finset.sum_congr rfl fun n _ => ?_
  rw [unityRoot, ← Complex.exp_nat_mul]
  congr 2
  push_cast
  ring

theorem conj_polyAt (x : List Int) (k : Nat) (hx : 0 < x.length) :
    (starRingEnd ℂ) (polyAt x k (unityRoot x.length)) = polyAt x k (unityRoot x.length)⁻¹ := by
  rw [polyAt, map_sum]
  refine Finset.sum_congr rfl fun n _ => ?_
  rw [map_mul, map_pow, Complex.inv_eq_conj (norm_unityRoot _ hx)]
  simp

/-- `A[k]² = X[k]·conj X[k]`, as values of one polynomial. -/
theorem magnitude_sq (x : List Int) (k : Nat) (hx : 0 < x.length) :
    ((magnitude x k : ℝ) : ℂ) ^ 2 = polyAt x k (unityRoot x.length) * polyAt x k (unityRoot x.length)⁻¹ := by
  rw [← conj_polyAt x k hx, Complex.mul_conj', magnitude, coefficient_eq_polyAt]

theorem norm_polyAt_le (x : List Int) (k : Nat) (z : ℂ) (hz : ‖z‖ = 1) : ‖polyAt x k z‖ ≤ absSum x := by
  refine (norm_sum_le _ _).trans ?_
  have hlist : ∀ l : List Int, (∑ n ∈ Finset.range l.length, ((l.getD n 0).natAbs : ℝ)) = (absSum l : ℝ) := by
    intro l
    induction l with
    | nil => simp [absSum]
    | cons v vs ih =>
      rw [List.length_cons, Finset.sum_range_succ']
      simp only [List.getD_cons_succ, List.getD_cons_zero]
      rw [ih]
      simp [absSum, add_comm]
  rw [← hlist]
  refine Finset.sum_le_sum fun n _ => ?_
  rw [norm_mul, norm_pow, hz, one_pow, mul_one, Complex.norm_intCast, Nat.cast_natAbs]
  simp

theorem map_polyAt {R S : Type} [CommRing R] [CommRing S] (f : R →+* S) (x : List Int) (k : Nat) (z : R) :
    f (polyAt x k z) = polyAt x k (f z) := by
  rw [polyAt, map_sum]
  exact Finset.sum_congr rfl fun n _ => by simp

theorem isIntegral_polyAt {R : Type} [CommRing R] (x : List Int) (k : Nat) (z : R) (hz : IsIntegral ℤ z) :
    IsIntegral ℤ (polyAt x k z) :=
  IsIntegral.sum _ fun n _ => (isIntegral_algebraMap (R := ℤ) (x := x.getD n 0)).mul (hz.pow _)

/-- `(N·σ)² = N·ΣA² − (ΣA)²`. -/
theorem realSpread_sq (x : List Int) (hx : 0 < x.length) :
    realSpread x ^ 2 = x.length * ∑ k ∈ Finset.range x.length, magnitude x k ^ 2
      - (∑ k ∈ Finset.range x.length, magnitude x k) ^ 2 := by
  have hN : (x.length : ℝ) ≠ 0 := by exact_mod_cast hx.ne'
  rw [realSpread, Real.sq_sqrt (by positivity)]
  have hexp : ∑ k ∈ Finset.range x.length, realExcess x k ^ 2
      = x.length ^ 2 * (∑ k ∈ Finset.range x.length, magnitude x k ^ 2)
        - x.length * (∑ k ∈ Finset.range x.length, magnitude x k) ^ 2 := by
    simp only [realExcess, sub_sq, mul_pow]
    rw [Finset.sum_add_distrib, Finset.sum_sub_distrib, ← Finset.mul_sum, ← Finset.sum_mul, Finset.sum_const,
      Finset.card_range, nsmul_eq_mul, ← Finset.mul_sum, ← Finset.mul_sum]
    ring
  rw [hexp]
  field_simp

/-- The bound on the conjugates of a margin. -/
def conjugateBound (x : List Int) (θ : Rat) : Nat := (excessSlack x + 1) * (θ.den + θ.num.natAbs)

/-- A margin that is not 0 is at least `conjugateBound^(−N·2^(N+1))`. -/
theorem margin_separation (x : List Int) (θ : Rat) (b : Nat) (hb : b < x.length) (h0 : realMargin x θ b ≠ 0) :
    1 ≤ |realMargin x θ b| * (conjugateBound x θ : ℝ) ^ (x.length * 2 ^ (x.length + 1)) := by
  have hx : 0 < x.length := (Nat.zero_le b).trans_lt hb
  set N := x.length with hN
  set ζ := unityRoot N with hζ
  have hζN : ζ ^ N = 1 := unityRoot_pow N hx
  obtain ⟨K₀, hζK, hfin₀, hrank₀⟩ := exists_root_field N hx ζ hζN
  have hpow : ∀ k, ((magnitude x k : ℝ) : ℂ) ^ 2 ∈ K₀ := fun k => by
    rw [magnitude_sq x k hx]
    have hpoly : ∀ z ∈ K₀, polyAt x k z ∈ K₀ := fun z hz =>
      sum_mem fun n _ => mul_mem (IntermediateField.intCast_mem K₀ _) (pow_mem hz _)
    exact mul_mem (hpoly _ hζK) (hpoly _ (inv_mem hζK))
  obtain ⟨K₁, hle₁, hmem₁, hfin₁, hrank₁⟩ :=
    exists_adjoin_roots K₀ (fun k => ((magnitude x k : ℝ) : ℂ)) N fun k _ => hpow k
  have hspread : ((realSpread x : ℝ) : ℂ) ^ 2 = N * ∑ k ∈ Finset.range N, ((magnitude x k : ℝ) : ℂ) ^ 2
      - (∑ k ∈ Finset.range N, ((magnitude x k : ℝ) : ℂ)) ^ 2 := by
    exact_mod_cast realSpread_sq x hx
  have hmemSpread : ((realSpread x : ℝ) : ℂ) ^ 2 ∈ K₁ := by
    rw [hspread]
    exact sub_mem (mul_mem (IntermediateField.natCast_mem K₁ _) (sum_mem fun k hk => pow_mem (hmem₁ k (Finset.mem_range.mp hk)) 2))
      (pow_mem (sum_mem fun k hk => hmem₁ k (Finset.mem_range.mp hk)) 2)
  obtain ⟨L, hle₂, hmem₂, hfin₂, hrank₂⟩ := exists_adjoin_root K₁ ((realSpread x : ℝ) : ℂ) hmemSpread
  have hrank : finrank ℚ L ≤ N * 2 ^ (N + 1) := by
    calc finrank ℚ L ≤ 2 * (2 ^ N * N) := hrank₂.trans (Nat.mul_le_mul_left 2 (hrank₁.trans (Nat.mul_le_mul_left _ hrank₀)))
      _ = N * 2 ^ (N + 1) := by ring
  -- the same quantities as elements of `L`
  let z : L := ⟨ζ, hle₂ (hle₁ hζK)⟩
  have hmemA : ∀ k ∈ Finset.range N, ((magnitude x k : ℝ) : ℂ) ∈ L := fun k hk => hle₂ (hmem₁ k (Finset.mem_range.mp hk))
  let A : Nat → L := fun k => if hk : k ∈ Finset.range N then ⟨((magnitude x k : ℝ) : ℂ), hmemA k hk⟩ else 0
  have hA : ∀ k ∈ Finset.range N, ((A k : L) : ℂ) = ((magnitude x k : ℝ) : ℂ) := fun k hk => by simp only [A, dif_pos hk]
  let w : L := ⟨((realSpread x : ℝ) : ℂ), hmem₂⟩
  have hzN : z ^ N = 1 := Subtype.ext hζN
  have hAsq : ∀ k ∈ Finset.range N, A k ^ 2 = polyAt x k z * polyAt x k z⁻¹ := fun k hk => by
    refine Subtype.ext ?_
    have e1 : ((polyAt x k z : L) : ℂ) = polyAt x k ζ := map_polyAt (L.val : L →+* ℂ) x k z
    have e2 : ((polyAt x k z⁻¹ : L) : ℂ) = polyAt x k ζ⁻¹ := map_polyAt (L.val : L →+* ℂ) x k z⁻¹
    have e3 := magnitude_sq x k hx
    rw [MulMemClass.coe_mul, SubmonoidClass.coe_pow, e1, e2, hA k hk]
    exact e3
  have hwsq : w ^ 2 = N * ∑ k ∈ Finset.range N, A k ^ 2 - (∑ k ∈ Finset.range N, A k) ^ 2 := by
    refine Subtype.ext ?_
    have e1 : ((∑ k ∈ Finset.range N, A k ^ 2 : L) : ℂ) = ∑ k ∈ Finset.range N, ((magnitude x k : ℝ) : ℂ) ^ 2 := by
      rw [AddSubmonoidClass.coe_finsetSum]
      exact Finset.sum_congr rfl fun k hk => by rw [SubmonoidClass.coe_pow, hA k hk]
    have e2 : ((∑ k ∈ Finset.range N, A k : L) : ℂ) = ∑ k ∈ Finset.range N, ((magnitude x k : ℝ) : ℂ) := by
      rw [AddSubmonoidClass.coe_finsetSum]
      exact Finset.sum_congr rfl fun k hk => hA k hk
    rw [AddSubgroupClass.coe_sub, MulMemClass.coe_mul, SubmonoidClass.coe_pow, SubmonoidClass.coe_pow, e1, e2]
    exact hspread
  let t : L := θ.den * (N * A b - ∑ k ∈ Finset.range N, A k) - θ.num * w
  have ht : (t : ℂ) = ((realMargin x θ b : ℝ) : ℂ) := by
    have e2 : ((∑ k ∈ Finset.range N, A k : L) : ℂ) = ∑ k ∈ Finset.range N, ((magnitude x k : ℝ) : ℂ) := by
      rw [AddSubmonoidClass.coe_finsetSum]
      exact Finset.sum_congr rfl fun k hk => hA k hk
    have e3 : (t : ℂ) = θ.den * (N * ((A b : L) : ℂ) - ((∑ k ∈ Finset.range N, A k : L) : ℂ)) - θ.num * ((w : L) : ℂ) := rfl
    rw [e3, e2, hA b (Finset.mem_range.mpr hb), realMargin, realExcess]
    push_cast
    rfl
  -- integrality
  have hzint : IsIntegral ℤ z := IsIntegral.of_pow hx (hzN ▸ isIntegral_one)
  have hzinv : z⁻¹ = z ^ (N - 1) := by
    rw [inv_eq_of_mul_eq_one_right]
    rw [← pow_succ', Nat.sub_add_cancel hx, hzN]
  have hzinvint : IsIntegral ℤ z⁻¹ := hzinv ▸ hzint.pow _
  have hAint : ∀ k ∈ Finset.range N, IsIntegral ℤ (A k) := fun k hk =>
    IsIntegral.of_pow two_pos (hAsq k hk ▸ (isIntegral_polyAt x k z hzint).mul (isIntegral_polyAt x k z⁻¹ hzinvint))
  have hNint : IsIntegral ℤ (N : L) := by exact_mod_cast isIntegral_algebraMap (R := ℤ) (A := L) (x := (N : ℤ))
  have hsumint : IsIntegral ℤ (∑ k ∈ Finset.range N, A k) := IsIntegral.sum _ hAint
  have hwint : IsIntegral ℤ w := IsIntegral.of_pow two_pos (by
    rw [hwsq]
    exact (hNint.mul (IsIntegral.sum _ fun k hk => (hAint k hk).pow 2)).sub (hsumint.pow 2))
  have htint : IsIntegral ℤ t := by
    have hden : IsIntegral ℤ (θ.den : L) := by exact_mod_cast isIntegral_algebraMap (R := ℤ) (A := L) (x := (θ.den : ℤ))
    have hnum : IsIntegral ℤ (θ.num : L) := by exact_mod_cast isIntegral_algebraMap (R := ℤ) (A := L) (x := θ.num)
    exact (hden.mul ((hNint.mul (hAint b (Finset.mem_range.mpr hb))).sub hsumint)).sub (hnum.mul hwint)
  -- the conjugates
  have hconj : ∀ φ : L →ₐ[ℚ] ℂ, ‖φ t‖ ≤ (conjugateBound x θ : ℝ) := by
    intro φ
    have hφz : ‖φ z‖ = 1 := Complex.norm_eq_one_of_pow_eq_one (by rw [← map_pow, hzN, map_one]) hx.ne'
    have hφzinv : ‖φ z⁻¹‖ = 1 := by rw [map_inv₀, norm_inv, hφz, inv_one]
    have hφA : ∀ k ∈ Finset.range N, ‖φ (A k)‖ ≤ absSum x := fun k hk => by
      have h1 : φ (A k) ^ 2 = polyAt x k (φ z) * polyAt x k (φ z⁻¹) := by
        rw [← map_pow, hAsq k hk, map_mul]
        congr 1
        · exact map_polyAt (φ : L →+* ℂ) x k z
        · exact map_polyAt (φ : L →+* ℂ) x k z⁻¹
      have h2 : ‖φ (A k)‖ ^ 2 ≤ (absSum x : ℝ) ^ 2 := by
        rw [← norm_pow, h1, norm_mul, sq]
        exact mul_le_mul (norm_polyAt_le x k _ hφz) (norm_polyAt_le x k _ hφzinv) (norm_nonneg _) (by positivity)
      exact (sq_le_sq₀ (norm_nonneg _) (by positivity)).mp h2
    have hφsum : ‖φ (∑ k ∈ Finset.range N, A k)‖ ≤ N * absSum x := by
      rw [map_sum]
      refine (norm_sum_le _ _).trans ((Finset.sum_le_sum hφA).trans ?_)
      simp
    have hφsq : ‖φ (∑ k ∈ Finset.range N, A k ^ 2)‖ ≤ N * absSum x ^ 2 := by
      rw [map_sum]
      refine (norm_sum_le _ _).trans ((Finset.sum_le_sum (g := fun _ => (absSum x : ℝ) ^ 2) fun k hk => ?_).trans ?_)
      · rw [map_pow, norm_pow]
        exact pow_le_pow_left₀ (norm_nonneg _) (hφA k hk) 2
      · simp
    have hφw : ‖φ w‖ ≤ 2 * N * absSum x := by
      have h1 : φ w ^ 2 = N * φ (∑ k ∈ Finset.range N, A k ^ 2) - φ (∑ k ∈ Finset.range N, A k) ^ 2 := by
        rw [← map_pow, hwsq, map_sub, map_mul, map_pow, map_natCast]
      have h2 : ‖φ w‖ ^ 2 ≤ (2 * N * absSum x : ℝ) ^ 2 := by
        rw [← norm_pow, h1]
        refine (norm_sub_le _ _).trans ?_
        rw [norm_mul, norm_pow, Complex.norm_natCast]
        have h3 : ‖φ (∑ k ∈ Finset.range N, A k)‖ ^ 2 ≤ (N * absSum x : ℝ) ^ 2 :=
          pow_le_pow_left₀ (norm_nonneg _) hφsum 2
        have h4 : (N : ℝ) * ‖φ (∑ k ∈ Finset.range N, A k ^ 2)‖ ≤ N * (N * absSum x ^ 2) := by gcongr
        have h5 : (0 : ℝ) ≤ (N * absSum x) ^ 2 := by positivity
        nlinarith [h3, h4, h5]
      exact (sq_le_sq₀ (norm_nonneg _) (by positivity)).mp h2
    have hφt : φ t = θ.den * (N * φ (A b) - φ (∑ k ∈ Finset.range N, A k)) - θ.num * φ w := by
      simp only [t, map_sub, map_mul, map_natCast, map_intCast]
    have hbound : ‖φ t‖ ≤ θ.den * (N * absSum x + N * absSum x) + θ.num.natAbs * (2 * N * absSum x) := by
      rw [hφt]
      refine (norm_sub_le _ _).trans ?_
      rw [norm_mul, norm_mul, Complex.norm_natCast, Complex.norm_intCast, Nat.cast_natAbs]
      push_cast
      have h6 : ‖(N : ℂ) * φ (A b) - φ (∑ k ∈ Finset.range N, A k)‖ ≤ N * absSum x + N * absSum x := by
        refine (norm_sub_le _ _).trans ?_
        rw [norm_mul, Complex.norm_natCast]
        gcongr
        exact hφA b (Finset.mem_range.mpr hb)
      gcongr
    refine hbound.trans ?_
    rw [conjugateBound, excessSlack, magnitudeSlack, ← hN]
    push_cast
    have h7 : (0 : ℝ) ≤ N * absSum x := by positivity
    have h8 : (0 : ℝ) ≤ N := by positivity
    have h9 : (0 : ℝ) ≤ θ.den := by positivity
    have h10 : (0 : ℝ) ≤ θ.num.natAbs := by positivity
    nlinarith [mul_nonneg h9 h7, mul_nonneg h10 h7, mul_nonneg h9 h8, mul_nonneg h10 h8]
  have hB1 : (1 : ℝ) ≤ conjugateBound x θ := by
    have : 1 ≤ conjugateBound x θ := Nat.mul_pos (Nat.succ_pos _) (Nat.add_pos_left θ.den_pos _)
    exact_mod_cast this
  have hne : t ≠ 0 := by
    intro h
    rw [h] at ht
    exact h0 (Complex.ofReal_eq_zero.mp (ht.symm.trans rfl))
  have := one_le_norm_mul_pow L t htint hne _ hB1 hconj _ hrank
  rwa [ht, Complex.norm_real, Real.norm_eq_abs] at this

end Sys2Proof.Laws
end

