-- ==== Sys2Proof/Laws/ToneDetector.lean ====
section
/-!
SUPPORT. The test of R95 over the real numbers is decided rightly, for every window, every bin and every rational threshold.
-/
namespace Sys2Proof.Laws

open Sys2Proof.Machine Sys2Proof.Safety

/-! ### The refinement -/

/-- If the last precision can tell every margin that is not 0, `refine` answers the exact verdict. -/
theorem refine_eq (x : List Int) (θ : Rat) (b : Nat) (hb : b < x.length) (fuel p : Nat)
    (h : realMargin x θ b ≠ 0 → 2 * (marginSlack x θ : ℝ) < 2 ^ (p * 2 ^ fuel) * |realMargin x θ b|) :
    refine x θ b fuel p (spectrumApprox x p) = true ↔ 0 < realMargin x θ b := by
  induction fuel generalizing p with
  | zero =>
    have hs := verdictAt_spec x θ p b hb
    unfold refine
    split at hs
    · next heq => simp [heq, hs]
    · next heq => simp [heq, not_lt.mpr hs]
    · next heq =>
      rw [pow_zero, mul_one] at h
      have h0 : realMargin x θ b = 0 := by
        by_contra hne
        exact absurd (h hne) (not_lt.mpr hs)
      simp [heq, h0]
  | succ fuel ih =>
    have hs := verdictAt_spec x θ p b hb
    unfold refine
    split at hs
    · next heq => simp [heq, hs]
    · next heq => simp [heq, not_lt.mpr hs]
    · next heq =>
      simp only [heq]
      exact ih (2 * p) (by rwa [show 2 * p * 2 ^ fuel = p * 2 ^ (fuel + 1) by ring])

theorem marginSlack_le (x : List Int) (θ : Rat) : marginSlack x θ ≤ conjugateBound x θ := by
  rw [marginSlack, conjugateBound]
  nlinarith

/-- The last precision is fine enough to tell every margin that is not 0. -/
theorem last_precision (x : List Int) (θ : Rat) (b : Nat) (hb : b < x.length) (h0 : realMargin x θ b ≠ 0) :
    2 * (marginSlack x θ : ℝ) < 2 ^ (firstPlaces * 2 ^ doublings x θ) * |realMargin x θ b| := by
  have hsep := margin_separation x θ b hb h0
  set N := x.length
  set B := conjugateBound x θ with hB
  set G := 2 * (excessSlack x + 1) * (θ.den + θ.num.natAbs) with hG
  have hGB : G = 2 * B := by rw [hG, hB, conjugateBound]; ring
  have hB1 : 1 ≤ B := Nat.mul_pos (Nat.succ_pos _) (Nat.add_pos_left θ.den_pos _)
  set D := N * 2 ^ (N + 1) with hD
  have hlog : G < 2 ^ (G.log2 + 1) := Nat.lt_log2_self
  have hpow : 2 * marginSlack x θ * B ^ D < 2 ^ (firstPlaces * 2 ^ doublings x θ) := by
    calc 2 * marginSlack x θ * B ^ D ≤ G * G ^ D := by
          refine Nat.mul_le_mul ?_ (Nat.pow_le_pow_left (by omega) D)
          rw [hGB]
          exact Nat.mul_le_mul_left 2 (marginSlack_le x θ)
      _ = G ^ (D + 1) := by rw [pow_succ, mul_comm]
      _ < (2 ^ (G.log2 + 1)) ^ (D + 1) := Nat.pow_lt_pow_left hlog (Nat.succ_ne_zero D)
      _ = 2 ^ ((G.log2 + 1) * (D + 1)) := by rw [← pow_mul]
      _ ≤ 2 ^ (firstPlaces * 2 ^ doublings x θ) := by
          refine Nat.pow_le_pow_right two_pos ?_
          have h1 : G.log2 + 1 ≤ 2 ^ G.log2 := Nat.lt_two_pow_self
          have h2 : D + 1 ≤ 2 ^ (2 * N + 4) := by
            have hN : N + 1 ≤ 2 ^ N := Nat.lt_two_pow_self
            rw [hD, show 2 * N + 4 = N + (N + 1) + 3 by ring, pow_add 2 (N + (N + 1)) 3, pow_add 2 N (N + 1)]
            have : 1 ≤ 2 ^ (N + 1) := Nat.one_le_two_pow
            nlinarith [Nat.mul_le_mul_right (2 ^ (N + 1)) hN]
          have hdoub : doublings x θ = 2 * N + 4 + G.log2 := rfl
          rw [hdoub, pow_add]
          calc (G.log2 + 1) * (D + 1) ≤ 2 ^ G.log2 * 2 ^ (2 * N + 4) := Nat.mul_le_mul h1 h2
            _ ≤ firstPlaces * (2 ^ (2 * N + 4) * 2 ^ G.log2) := by
                rw [mul_comm]
                exact Nat.le_mul_of_pos_left _ (by decide)
  have hpos : 0 < |realMargin x θ b| := abs_pos.mpr h0
  have hpowR : 2 * (marginSlack x θ : ℝ) * (B : ℝ) ^ D < 2 ^ (firstPlaces * 2 ^ doublings x θ) := by exact_mod_cast hpow
  have hnn : (0 : ℝ) ≤ 2 * (marginSlack x θ : ℝ) := by positivity
  calc 2 * (marginSlack x θ : ℝ) ≤ 2 * (marginSlack x θ : ℝ) * (|realMargin x θ b| * (B : ℝ) ^ D) :=
        le_mul_of_one_le_right hnn hsep
    _ = 2 * (marginSlack x θ : ℝ) * (B : ℝ) ^ D * |realMargin x θ b| := by ring
    _ < 2 ^ (firstPlaces * 2 ^ doublings x θ) * |realMargin x θ b| := by gcongr

/-! ### The magnitudes repeat with period `N` -/

theorem magnitude_mod (x : List Int) (k : Nat) : magnitude x (k % x.length) = magnitude x k := by
  rcases Nat.eq_zero_or_pos x.length with h | hx
  · rw [h, Nat.mod_zero]
  · have hz := unityRoot_pow x.length hx
    rw [magnitude, magnitude, coefficient_eq_polyAt, coefficient_eq_polyAt]
    congr 1
    refine Finset.sum_congr rfl fun n _ => ?_
    congr 1
    conv_rhs => rw [← Nat.mod_add_div k x.length, add_mul, pow_add, mul_assoc, pow_mul _ x.length, hz, one_pow, mul_one]

theorem detected_mod (x : List Int) (b : Nat) (θ : Rat) : Detected x (b % x.length) θ ↔ Detected x b θ := by
  rw [Detected, Detected, magnitude_mod]

/-! ### Two-level spectra -/

/-- A sum over one period of a function with period `N` does not depend on where it starts. -/
theorem sum_period {M : Type} [AddCommGroup M] (g : Nat → M) (N : Nat) (hg : ∀ i, g (i + N) = g i) (n : Nat) :
    ∑ d ∈ Finset.range N, g (n + d) = ∑ d ∈ Finset.range N, g d := by
  induction n with
  | zero => simp
  | succ n ih =>
    rw [← ih]
    have h1 := Finset.sum_range_succ (fun d => g (n + d)) N
    have h2 := Finset.sum_range_succ' (fun d => g (n + d)) N
    rw [h1, hg, add_zero] at h2
    have h3 := add_right_cancel h2
    rw [h3]
    exact Finset.sum_congr rfl fun d _ => by rw [add_right_comm, add_assoc]

theorem autocorrelation_eq_sum (x : List Int) (d : Nat) (hd : d < x.length) :
    autocorrelation x d = ∑ n ∈ Finset.range x.length, x.getD n 0 * x.getD ((n + d) % x.length) 0 := by
  rw [autocorrelation, ← list_sum_range]
  congr 1
  refine List.ext_getElem (by simp; omega) fun i h1 h2 => ?_
  have hi : i < x.length := by simpa using h2
  simp only [List.getElem_map, List.getElem_zip, List.getElem_range, List.getElem_append, List.length_drop,
    List.getElem_drop, List.getElem_take]
  have hmod := Nat.mod_lt (i + d) ((Nat.zero_le i).trans_lt hi)
  rw [List.getD_eq_getElem _ _ hi, List.getD_eq_getElem _ _ hmod]
  congr 1
  split
  · next h => congr 1; rw [Nat.mod_eq_of_lt (by omega), add_comm]
  · next h => congr 1; rw [Nat.mod_eq_sub_mod (by omega), Nat.mod_eq_of_lt (by omega)]; omega

/-- `A[k]²` is the DFT of the autocorrelation. -/
theorem magnitude_sq_eq_sum (x : List Int) (k : Nat) (hx : 0 < x.length) :
    ((magnitude x k : ℝ) : ℂ) ^ 2
      = ∑ d ∈ Finset.range x.length, (autocorrelation x d : ℂ) * ((unityRoot x.length)⁻¹ ^ k) ^ d := by
  have hz := unityRoot_pow x.length hx
  rw [magnitude_sq x k hx]
  set N := x.length with hN
  set z := unityRoot N with hzdef
  have hz0 : z ≠ 0 := by
    intro h
    rw [h, zero_pow hx.ne'] at hz
    exact zero_ne_one hz
  have hzi : z⁻¹ ^ N = 1 := by rw [inv_pow, hz, inv_one]
  set u := z⁻¹ ^ k with hu
  have huN : u ^ N = 1 := by rw [hu, ← pow_mul, mul_comm, pow_mul, hzi, one_pow]
  have humod : ∀ i, u ^ (i % N) = u ^ i := fun i => by
    conv_rhs => rw [← Nat.mod_add_div i N, pow_add, pow_mul, huN, one_pow, mul_one]
  have hzu : ∀ n, z ^ (k * n) * u ^ n = 1 := fun n => by
    rw [hu, ← pow_mul, inv_pow, mul_inv_cancel₀ (pow_ne_zero _ hz0)]
  have hinv : polyAt x k z⁻¹ = ∑ m ∈ Finset.range N, ((x.getD m 0 : Int) : ℂ) * u ^ m :=
    Finset.sum_congr rfl fun m _ => by rw [hu, ← pow_mul]
  rw [hinv, polyAt, Finset.sum_mul_sum]
  have hrow : ∀ n ∈ Finset.range N,
      ∑ m ∈ Finset.range N, ((x.getD n 0 : Int) : ℂ) * z ^ (k * n) * (((x.getD m 0 : Int) : ℂ) * u ^ m)
        = ∑ d ∈ Finset.range N, ((x.getD n 0 * x.getD ((n + d) % N) 0 : Int) : ℂ) * u ^ d := fun n _ => by
    have hper := sum_period (fun m => ((x.getD n 0 : Int) : ℂ) * z ^ (k * n) * (((x.getD (m % N) 0 : Int) : ℂ) * u ^ (m % N)))
      N (fun i => by rw [Nat.add_mod_right]) n
    have hleft : ∑ m ∈ Finset.range N, ((x.getD n 0 : Int) : ℂ) * z ^ (k * n) * (((x.getD m 0 : Int) : ℂ) * u ^ m)
        = ∑ m ∈ Finset.range N, ((x.getD n 0 : Int) : ℂ) * z ^ (k * n) * (((x.getD (m % N) 0 : Int) : ℂ) * u ^ (m % N)) :=
      Finset.sum_congr rfl fun m hm => by rw [Nat.mod_eq_of_lt (Finset.mem_range.mp hm)]
    rw [hleft, ← hper]
    refine Finset.sum_congr rfl fun d _ => ?_
    rw [humod, pow_add]
    push_cast
    linear_combination (((x.getD n 0 : Int) : ℂ) * ((x.getD ((n + d) % N) 0 : Int) : ℂ) * u ^ d) * hzu n
  rw [Finset.sum_congr rfl hrow, Finset.sum_comm]
  refine Finset.sum_congr rfl fun d hd => ?_
  rw [← Finset.sum_mul, autocorrelation_eq_sum x d (Finset.mem_range.mp hd)]
  push_cast
  rfl

theorem unityRoot_half (N : Nat) (hN : 0 < N) (heven : N % 2 = 0) : (unityRoot N)⁻¹ ^ (N / 2) = -1 := by
  have hN' : (N : ℂ) ≠ 0 := by exact_mod_cast hN.ne'
  have hhalf : ((N / 2 : Nat) : ℂ) = N / 2 := by
    rw [Nat.cast_div (Nat.dvd_of_mod_eq_zero heven) two_ne_zero]
    norm_num
  rw [unityRoot, ← Complex.exp_neg, neg_neg, ← Complex.exp_nat_mul, hhalf, ← Complex.exp_pi_mul_I]
  congr 1
  field_simp

/-- In a two-level spectrum the squared magnitude is one value on the even bins and one on the odd bins. -/
theorem magnitude_sq_of_isTwoLevel (x : List Int) (hx : 0 < x.length) (h : isTwoLevel x = true) (k : Nat) :
    magnitude x k ^ 2 = autocorrelation x 0 + (if k % 2 = 0 then 1 else -1) * halfLag x := by
  have hzero : ∀ d ∈ Finset.range x.length, d ≠ 0 → 2 * d ≠ x.length → autocorrelation x d = 0 := fun d hd h0 h2 => by
    have := List.all_eq_true.mp h d (List.mem_range.mpr (Finset.mem_range.mp hd))
    simp only [Bool.or_eq_true, decide_eq_true_eq] at this
    rcases this with (h3 | h3) | h3
    · exact absurd h3 h0
    · exact absurd h3 h2
    · exact h3
  have hsum := magnitude_sq_eq_sum x k hx
  have hgoal : ((magnitude x k : ℝ) : ℂ) ^ 2
      = (autocorrelation x 0 : ℂ) + (if k % 2 = 0 then 1 else -1) * (halfLag x : ℂ) := by
    rw [hsum, ← Finset.add_sum_erase _ _ (Finset.mem_range.mpr hx)]
    congr 1
    · simp
    · rcases Nat.mod_two_eq_zero_or_one x.length with he | ho
      · have hhalf : x.length / 2 ∈ (Finset.range x.length).erase 0 :=
          Finset.mem_erase.mpr ⟨by omega, Finset.mem_range.mpr (by omega)⟩
        have hlag : halfLag x = autocorrelation x (x.length / 2) := by
          unfold halfLag
          exact if_pos ⟨he, hx⟩
        rw [Finset.sum_eq_single_of_mem _ hhalf, hlag, ← pow_mul, mul_comm k, pow_mul, unityRoot_half _ hx he, mul_comm]
        · congr 1
          rcases Nat.mod_two_eq_zero_or_one k with hk | hk
          · rw [if_pos hk, (Nat.even_iff.mpr hk).neg_one_pow]
          · rw [if_neg (by rw [hk]; exact one_ne_zero), (Nat.odd_iff.mpr hk).neg_one_pow]
        · intro d hd hne
          obtain ⟨h0, hd'⟩ := Finset.mem_erase.mp hd
          rw [hzero d hd' h0 (by omega)]
          simp
      · have hlag : halfLag x = 0 := by
          unfold halfLag
          exact if_neg fun h' => by omega
        rw [Finset.sum_eq_zero, hlag]
        · simp
        · intro d hd
          obtain ⟨h0, hd'⟩ := Finset.mem_erase.mp hd
          rw [hzero d hd' h0 (by omega)]
          simp
  have : ((magnitude x k ^ 2 : ℝ) : ℂ) = ((autocorrelation x 0 + (if k % 2 = 0 then 1 else -1) * halfLag x : ℝ) : ℂ) := by
    push_cast
    rw [hgoal]
    split <;> norm_num
  exact_mod_cast this

theorem magnitude_nonneg (x : List Int) (k : Nat) : 0 ≤ magnitude x k := norm_nonneg _

/-- Bins of one parity have one magnitude in a two-level spectrum. -/
theorem magnitude_parity (x : List Int) (hx : 0 < x.length) (h : isTwoLevel x = true) (k : Nat) :
    magnitude x k = magnitude x (k % 2) := by
  refine (sq_eq_sq₀ (magnitude_nonneg x k) (magnitude_nonneg x _)).mp ?_
  rw [magnitude_sq_of_isTwoLevel x hx h, magnitude_sq_of_isTwoLevel x hx h, Nat.mod_mod]

theorem sum_parity (f : Nat → ℝ) (m : Nat) :
    ∑ k ∈ Finset.range (2 * m), f (k % 2) = m * (f 0 + f 1) := by
  induction m with
  | zero => simp
  | succ m ih =>
    rw [show 2 * (m + 1) = 2 * m + 1 + 1 by ring, Finset.sum_range_succ, Finset.sum_range_succ, ih,
      show 2 * m % 2 = 0 by omega, show (2 * m + 1) % 2 = 1 by omega]
    push_cast
    ring

/-- Where every magnitude is the same, nothing is detected (R96). -/
theorem not_detected_of_flat (x : List Int) (hx : 0 < x.length) (a : ℝ) (h : ∀ k, magnitude x k = a) (b : Nat) (θ : Rat) :
    ¬Detected x b θ := by
  have hN : (x.length : ℝ) ≠ 0 := by exact_mod_cast hx.ne'
  have hmean : mean x = a := by
    rw [mean, Finset.sum_congr rfl fun k _ => h k]
    simp [hN]
  have hstd : stdDev x = 0 := by
    rw [stdDev, Finset.sum_congr rfl fun k _ => by rw [h k, hmean, sub_self]]
    simp
  rw [Detected, hstd, hmean, h b]
  simp

theorem twoLevelVerdict_eq (x : List Int) (hx : 0 < x.length) (h : isTwoLevel x = true) (θ : Rat) (b : Nat) :
    twoLevelVerdict x θ b = true ↔ Detected x b θ := by
  have hpar := magnitude_parity x hx h
  rw [twoLevelVerdict]
  by_cases hhalf : halfLag x = 0
  · rw [if_pos hhalf]
    refine iff_of_false (by decide) (not_detected_of_flat x hx (magnitude x 0) (fun k => ?_) b θ)
    refine (sq_eq_sq₀ (magnitude_nonneg x k) (magnitude_nonneg x _)).mp ?_
    rw [magnitude_sq_of_isTwoLevel x hx h, magnitude_sq_of_isTwoLevel x hx h, hhalf]
    simp
  · rw [if_neg hhalf]
    have heven : x.length % 2 = 0 := by
      by_contra hodd
      exact hhalf (by unfold halfLag; exact if_neg fun h' => hodd h'.1)
    obtain ⟨m, hm⟩ : ∃ m, x.length = 2 * m := ⟨x.length / 2, by omega⟩
    have hmpos : (0 : ℝ) < m := by exact_mod_cast (by omega : 0 < m)
    set a := magnitude x 0 with ha
    set c := magnitude x 1 with hc
    have hlen : (x.length : ℝ) = 2 * m := by rw [hm]; push_cast; rfl
    have hmean : mean x = (a + c) / 2 := by
      rw [mean, Finset.sum_congr rfl fun k _ => hpar k, hm, sum_parity (fun k => magnitude x k)]
      push_cast
      rw [← ha, ← hc]
      field_simp
    have hstd : stdDev x = |a - c| / 2 := by
      have : (∑ k ∈ Finset.range x.length, (magnitude x k - mean x) ^ 2) / (x.length : ℝ) = ((a - c) / 2) ^ 2 := by
        rw [Finset.sum_congr rfl fun k _ => by rw [hpar k], hm,
          sum_parity (fun k => (magnitude x k - mean x) ^ 2), hmean]
        push_cast
        field_simp
        ring
      rw [stdDev, this, Real.sqrt_sq_eq_abs, abs_div, abs_two]
    have hsq0 : a ^ 2 = autocorrelation x 0 + halfLag x := by
      rw [ha, magnitude_sq_of_isTwoLevel x hx h]
      simp
    have hsq1 : c ^ 2 = autocorrelation x 0 - halfLag x := by
      rw [hc, magnitude_sq_of_isTwoLevel x hx h]
      simp [sub_eq_add_neg]
    have ha0 : 0 ≤ a := magnitude_nonneg x 0
    have hc0 : 0 ≤ c := magnitude_nonneg x 1
    have hcast1 : ((1 : Rat) : ℝ) = 1 := Rat.cast_one
    rw [Detected, hmean, hstd, hpar b]
    rcases Nat.mod_two_eq_zero_or_one b with hb | hb <;> rcases lt_or_gt_of_ne hhalf with hneg | hpos
    · have hlt : a < c := by
        have : (halfLag x : ℝ) < 0 := by exact_mod_cast hneg
        exact (sq_lt_sq₀ ha0 hc0).mp (by linarith)
      rw [hb, abs_of_neg (by linarith), if_neg (by simp [not_lt.mpr hneg.le]), decide_eq_true_eq, ← Rat.cast_lt (K := ℝ)]
      push_cast
      constructor <;> intro h' <;> nlinarith
    · have hlt : c < a := by
        have : (0 : ℝ) < halfLag x := by exact_mod_cast hpos
        exact (sq_lt_sq₀ hc0 ha0).mp (by linarith)
      rw [hb, abs_of_pos (by linarith), if_pos (by simp [hpos]), decide_eq_true_eq, ← Rat.cast_lt (K := ℝ)]
      push_cast
      constructor <;> intro h' <;> nlinarith
    · have hlt : a < c := by
        have : (halfLag x : ℝ) < 0 := by exact_mod_cast hneg
        exact (sq_lt_sq₀ ha0 hc0).mp (by linarith)
      rw [hb, abs_of_neg (by linarith), if_pos (by simp [not_lt.mpr hneg.le]), decide_eq_true_eq, ← Rat.cast_lt (K := ℝ)]
      push_cast
      constructor <;> intro h' <;> nlinarith
    · have hlt : c < a := by
        have : (0 : ℝ) < halfLag x := by exact_mod_cast hpos
        exact (sq_lt_sq₀ hc0 ha0).mp (by linarith)
      rw [hb, abs_of_pos (by linarith), if_neg (by simp [hpos]), decide_eq_true_eq, ← Rat.cast_lt (K := ℝ)]
      push_cast
      constructor <;> intro h' <;> nlinarith

/-! ### DETECT -/

/-- Where the window is empty nothing is detected. -/
theorem not_detected_nil (b : Nat) (θ : Rat) : ¬Detected [] b θ := by
  simp [Detected, stdDev, mean, magnitude, coefficient]

/-- One entry of DETECT's answer is the test of R95 for its bin. -/
theorem detectBin_iff (x : List Int) (θ : Rat) (b : Nat) :
    (if isTwoLevel x then twoLevelVerdict x θ (b % x.length)
      else refine x θ (b % x.length) (doublings x θ) firstPlaces (spectrumApprox x firstPlaces)) = true
      ↔ Detected x b θ := by
  rcases Nat.eq_zero_or_pos x.length with h0 | hx
  · obtain rfl : x = [] := List.eq_nil_of_length_eq_zero h0
    exact iff_of_false (by simp [isTwoLevel, twoLevelVerdict, halfLag]) (not_detected_nil b θ)
  · have hb := Nat.mod_lt b hx
    rw [← detected_mod]
    split
    · next h => exact twoLevelVerdict_eq x hx h θ _
    · rw [detected_iff_margin_pos x θ _ hx]
      exact refine_eq x θ _ hb _ _ (last_precision x θ _ hb)

open Classical in
/-- DETECT with a rational threshold answers, for each position of `bins`, the test of R95 over the real numbers (R93 to R98). -/
theorem detectRational_eq (x : List Int) (bins : List Nat) (θ : Rat) :
    detectRational x bins θ = bins.map fun b => decide (Detected x b θ) := by
  have hbin : ∀ b, (if isTwoLevel x then twoLevelVerdict x θ (b % x.length)
      else refine x θ (b % x.length) (doublings x θ) firstPlaces (spectrumApprox x firstPlaces))
      = decide (Detected x b θ) := fun b => by
    rw [Bool.eq_iff_iff, detectBin_iff, decide_eq_true_eq]
  rw [detectRational]
  split
  · next h => exact List.map_congr_left fun b _ => by rw [← hbin b, if_pos h]
  · next h => exact List.map_congr_left fun b _ => by rw [← hbin b, if_neg h]

end Sys2Proof.Laws
end

