-- ==== Sys2Proof/Machine/RealExpr.lean ====
section
/-!
DEFINITION. Formulas over the reals of a configuration, as plain data. The rules write such formulas in 10_state.md R17,
41_tone_detector.md R88 to R91 and 45_controller.md R139. The machine reads one only by its integer part
(ExactReals.lean).
-/
namespace Sys2Proof.Machine

/-- A formula: a configuration's real, an integer, or an operation on two formulas. -/
inductive RealExpr where
  | num (r : RealNum)
  | int (z : Int)
  | add (a b : RealExpr)
  | sub (a b : RealExpr)
  | mul (a b : RealExpr)
  | div (a b : RealExpr)
deriving DecidableEq, Repr

/-- Whether no named real stands in the formula. -/
def RealExpr.isRational : RealExpr → Bool
  | .num (.rat _) => true
  | .num (.named _) => false
  | .int _ => true
  | .add a b => a.isRational && b.isRational
  | .sub a b => a.isRational && b.isRational
  | .mul a b => a.isRational && b.isRational
  | .div a b => a.isRational && b.isRational

/-- The value of a formula in which no named real stands. -/
def RealExpr.ratValue : RealExpr → Rat
  | .num (.rat q) => q
  | .num (.named _) => 0
  | .int z => z
  | .add a b => a.ratValue + b.ratValue
  | .sub a b => a.ratValue - b.ratValue
  | .mul a b => a.ratValue * b.ratValue
  | .div a b => a.ratValue / b.ratValue

end Sys2Proof.Machine
end

