-- ==== Sys2Proof/Safety/Reals.lean ====
section
/-!
DEFINITION. What a formula over a configuration's reals means, and what exact arithmetic over named reals is. The machine
calls neither: Machine/ExactReals.lean states by them what it may rely on.
-/
namespace Sys2Proof.Safety

open Sys2Proof.Machine

/-- The real number that a formula stands for, when the names stand for `value`. -/
noncomputable def eval (value : Nat → ℝ) : RealExpr → ℝ
  | .num (.rat q) => q
  | .num (.named i) => value i
  | .int z => z
  | .add a b => eval value a + eval value b
  | .sub a b => eval value a - eval value b
  | .mul a b => eval value a * eval value b
  | .div a b => eval value a / eval value b

/-- `floor` and `exceeds` are exact (R9, R13) for names that stand for `value`: `floor` is the integer part of every
formula, and `exceeds x b i` the verdict of R95 on bin `b` with the threshold named `i`. -/
structure IsExact (value : Nat → ℝ) (floor : RealExpr → Int) (exceeds : List Int → Nat → Nat → Bool) : Prop where
  floor_eq : ∀ e, floor e = ⌊eval value e⌋
  exceeds_iff : ∀ x b i, exceeds x b i = true ↔ Detected x b (value i)

end Sys2Proof.Safety
end

