-- ==== Sys2Proof/Laws/RealExpr.lean ====
section
/-!
SUPPORT. Formulas over a configuration's reals: a rational formula has its rational value, and exact arithmetic exists
for every choice of what the names stand for.
-/
namespace Sys2Proof.Laws

open Sys2Proof.Machine Sys2Proof.Safety

/-- A formula without named reals has its rational value, whatever the names stand for. -/
theorem eval_of_isRational (value : Nat → ℝ) (e : RealExpr) (h : e.isRational = true) :
    eval value e = (e.ratValue : ℝ) := by
  induction e with
  | num r => cases r <;> simp_all [eval, RealExpr.ratValue, RealExpr.isRational]
  | int z => simp [eval, RealExpr.ratValue]
  | add a b iha ihb | sub a b iha ihb | mul a b iha ihb | div a b iha ihb =>
    rw [RealExpr.isRational, Bool.and_eq_true] at h
    simp [eval, RealExpr.ratValue, iha h.1, ihb h.2]

/-- Where every name stands for 0, every formula has its rational value. -/
theorem eval_zero (e : RealExpr) : eval (fun _ => 0) e = (e.ratValue : ℝ) := by
  induction e with
  | num r => cases r <;> simp [eval, RealExpr.ratValue]
  | int z => simp [eval, RealExpr.ratValue]
  | add a b iha ihb | sub a b iha ihb | mul a b iha ihb | div a b iha ihb =>
    simp [eval, RealExpr.ratValue, iha, ihb]

/-- One entry of the rational DETECT. -/
theorem detectRational_headD_iff (x : List Int) (b : Nat) (θ : Rat) :
    (detectRational x [b] θ).headD false = true ↔ Detected x b θ := by
  classical
  simp [detectRational_eq]

/-- Exact arithmetic for names that all stand for 0. -/
theorem isExact_zero :
    IsExact (fun _ => 0) (fun e => e.ratValue.floor) fun x b _ => (detectRational x [b] 0).headD false where
  floor_eq e := by rw [eval_zero]; exact (Rat.floor_cast e.ratValue).symm
  exceeds_iff x b _ := by rw [detectRational_headD_iff, Rat.cast_zero]

open Classical in
/-- Exact arithmetic exists whatever real numbers the names stand for: a named real is any real (R9). -/
theorem exists_isExact (value : Nat → ℝ) : ∃ floor exceeds, IsExact value floor exceeds :=
  ⟨fun e => ⌊eval value e⌋, fun x b i => decide (Detected x b (value i)), fun _ => rfl,
    fun _ _ _ => decide_eq_true_iff⟩

end Sys2Proof.Laws
end

