-- ==== Sys2Proof/Machine/ExactReals.lean ====
section
/-!
DEFINITION. Exact arithmetic over the reals of a configuration (00_scope.md R9, R13). A rational formula is computed. A
formula in which a named real stands is answered by `exactReals`, a free value of which only this is known: there are
real numbers that the names stand for, and every answer is the exact one for them. So a statement that holds for the
model holds for every real configuration (log entry 2).
-/
namespace Sys2Proof.Machine

/-- Answers about formulas over named reals, exact for some choice of what the names stand for. -/
structure ExactReals where
  /-- The integer part of a formula. -/
  floor : RealExpr → Int
  /-- The verdict of R95 on a bin of a window, with a named threshold. -/
  exceeds : List Int → Nat → Nat → Bool
  exact : ∃ value, Safety.IsExact value floor exceeds

/-- The answers of this machine: free (log entry 2). That such answers exist at all is shown by the names that all stand
for 0; no proof can see what the answers are. -/
def exactReals : ExactReals :=
  @Config.free ExactReals
    ⟨{ floor := fun e => e.ratValue.floor,
       exceeds := fun x b _ => (detectRational x [b] 0).headD false,
       exact := ⟨_, Laws.isExact_zero⟩ }⟩

/-- The integer part of a formula. -/
def RealExpr.floor (e : RealExpr) : Int := if e.isRational then e.ratValue.floor else exactReals.floor e

/-- `a < b`, read off the integer part of `a − b`. -/
def RealExpr.lt (a b : RealExpr) : Bool := decide ((RealExpr.sub a b).floor < 0)

end Sys2Proof.Machine
end

