-- ==== Sys2Proof/Machine/State.lean ====
section
/-!
DEFINITION. The machine's state as plain data: the core's record `S` (10_state.md R15), the ports (30_encoding.md
R66), the build's design parameters (00_scope.md R6) and the commands the host is still going to issue (R5).
-/
namespace Sys2Proof.Machine

/-- The mode register (R19). -/
inductive Mode where
  | unconfigured
  | searchingWakeup
  | decodingRelease
  | released
  | stopped
  | faulted
deriving DecidableEq, Repr

/-- The fault-cause register's values (R20, R72, R153). -/
inductive FaultCause where
  | none
  | illegalCommand
  | notConfigured
  | configNotFound
  | configInvalid
  | chunkSize
  | reconfigure
deriving DecidableEq, Repr

/-- Why REARM ran (R73). -/
inductive RearmCause where
  | none
  | tie
  | mismatch
  | timeout
deriving DecidableEq, Repr

/-- The design parameters of the build (R6): fixed, written by no command. They stand in the state so that a
statement over every state covers every build. -/
structure Params where
  /-- `T_TIMEOUT`, samples. -/
  tTimeout : Nat
  /-- `N_MAX`, the number of ring slots. -/
  nMax : Nat
  /-- `PREFIX_REARM`. -/
  prefixRearm : Bool
deriving DecidableEq, Repr

/-- The configuration record on the configuration port (R67). A `Real` of the record is any real number, written out or
named (`RealNum`, log entry 2). -/
structure ConfigRecord where
  lookupOk : Bool
  rxId : String
  pw : RealNum
  pri : RealNum
  fc : RealNum
  fShift : RealNum
  thetaW : RealNum
  thetaR : RealNum
  c : Nat
  wakeFreqs : List RealNum
  n : Nat
  fs : RealNum
  expected : List Bit
deriving DecidableEq, Repr

/-- The configuration registers: the primary ones (R16) and the derived ones (R17). -/
structure Cfg where
  fs : RealNum
  n : Nat
  c : Nat
  fc : RealNum
  /-- `f_shift`: stored, and no rule reads it (90_conflicts.md C1). -/
  fShift : RealNum
  pw : RealNum
  pri : RealNum
  thetaW : RealNum
  thetaR : RealNum
  wakeFreqs : List RealNum
  expected : List Bit
  rxId : String
  /-- `NW` (R17). -/
  nw : Nat
  /-- `wake_bin` (R17, R90). -/
  wakeBin : List Nat
  /-- `bin_hi` (R17, R91). -/
  binHi : Nat
  /-- `bin_lo` (R17, R91). -/
  binLo : Nat
  /-- `L` (R17). -/
  l : Nat
  /-- `W`, the integration window in chunks (R17). -/
  w : Nat
  /-- `P`, the period in chunks (R17). -/
  p : Nat
deriving DecidableEq, Repr

/-- The last-result register (R40). -/
structure Last where
  evTone : Bool
  evStale : Bool
  evBitValid : Bool
  evBit : Bit
  evEoc : Bool
  evRearm : Bool
  rearmCause : RearmCause
  evReleased : Bool
  evIgnored : Bool
deriving DecidableEq, Repr

/-- Every field `false`, `0` or `NONE` (R40, R41). -/
def Last.clear : Last where
  evTone := false
  evStale := false
  evBitValid := false
  evBit := .zero
  evEoc := false
  evRearm := false
  rearmCause := .none
  evReleased := false
  evIgnored := false

/-- The sample ring (R21, R47) as (slot, sample) pairs in one canonical form: slots strictly rising, no pair with
sample 0. An unlisted slot reads 0, the ring's contents after RESET and CONFIGURE (R41). The core's memory has 16-bit
slots and no bytes (R51). -/
abbrev Memory := List (Nat × Sample)

/-- The record `S` of R15. -/
structure Regs where
  /-- The configuration registers; `none` is the spec's "no value" (R16, R41). -/
  cfg : Option Cfg
  mode : Mode
  fault : FaultCause
  ring : Memory
  /-- The write pointer (R22). -/
  wp : Nat
  flag : List Bool
  time : List (Option Nat)
  pos : Nat
  acc : Int
  /-- The chunk position within the period (R31). -/
  k : Nat
  nbits : Nat
  msg : List Bit
  last : Last
deriving DecidableEq, Repr

/-- The state after RESET and at power-on (R41, R169). -/
def Regs.reset : Regs where
  cfg := none
  mode := .unconfigured
  fault := .none
  ring := []
  wp := 0
  flag := []
  time := []
  pos := 0
  acc := 0
  k := 0
  nbits := 0
  msg := []
  last := Last.clear

/-- The full result record that STATUS returns (R69). -/
structure ResultRecord where
  status : Word
  mode : Mode
  fault : FaultCause
  cfg : Option Cfg
  window : List Sample
  flag : List Bool
  time : List (Option Nat)
  pos : Nat
  armed : Bool
  nFlagged : Nat
  earliest : Option Nat
  acc : Int
  k : Nat
  nbits : Nat
  msg : List Bit
  last : Last
deriving DecidableEq, Repr

/-- The result port (R66): the status word, and after STATUS the full record. -/
structure ResultPort where
  word : Word
  record : Option ResultRecord
deriving DecidableEq, Repr

/-- One command as the host issues it: the word it writes to the command port (R61), with what the two operand ports
hold when it does (R66, R175 "operand before command"). -/
structure HostCommand where
  word : Word
  cfgPort : ConfigRecord
  chunkPort : List Sample
deriving DecidableEq, Repr

/-- What the configuration port holds at reset: no lookup has succeeded (log entry 4). -/
def ConfigRecord.blank : ConfigRecord where
  lookupOk := false
  rxId := ""
  pw := .rat 0
  pri := .rat 0
  fc := .rat 0
  fShift := .rat 0
  thetaW := .rat 0
  thetaR := .rat 0
  c := 0
  wakeFreqs := []
  n := 0
  fs := .rat 0
  expected := []

/-- The whole machine: the build's parameters, the core's record, its ports, and the host's coming commands. -/
structure State where
  params : Params
  regs : Regs
  cfgPort : ConfigRecord
  chunkPort : List Sample
  result : ResultPort
  /-- The commands the host is still going to issue, the next one first: the model's own field, the host agent of R5.
  The core itself keeps no queue (R43). -/
  host : List HostCommand
deriving DecidableEq, Repr

/-- The machine right after reset (R41, R169): the core's record is the table of R41, the parameters are the OPEN
constants of Config, and the host has issued nothing. -/
def State.reset : State where
  params := { tTimeout := Config.tTimeout, nMax := Config.nMax, prefixRearm := Config.prefixRearm }
  regs := Regs.reset
  cfgPort := ConfigRecord.blank
  chunkPort := []
  result := { word := 0, record := none }
  host := []

/-- The ways a step stops. No state that a run from reset reaches stops so: each is a precondition that the spec says
always holds. Safe: the model stops where the spec gives no effect. -/
inductive Fault where
  /-- Raised by STEP in `SEARCHING_WAKEUP` or `DECODING_RELEASE` when the configuration registers hold no value: R16
  says no rule reads them then, so the spec gives no effect. Safe. -/
  | noConfiguration
  /-- Raised by STEP when PUSH's precondition `1 ≤ m ≤ N` fails or the ring has fewer than `N` slots, so that a ring
  access would leave the slots that exist (R48, R81 "fail fast"). Safe. -/
  | pushPrecondition
deriving DecidableEq, Repr

/-- Why a step is refused. -/
inductive Refusal where
  /-- Raised by `exec` for a command that has no meaning yet. Safe. Every command has its meaning, so nothing raises
  it. -/
  | notModelled (mnemonic : String)
deriving DecidableEq, Repr

end Sys2Proof.Machine
end

