-- ==== Sys2Proof/Machine/Ops.lean ====
section
/-!
DEFINITION. The named operations over the ring (20_memory.md R48), the fault entry (60_exceptions.md R154) with the
exit from it (R155), the ignored command (45_controller.md R147), and what the host puts on the ports.
-/
namespace Sys2Proof.Machine

/-- The canonical form of the ring: slots strictly rising, and no entry equal to what an unlisted slot reads as. -/
abbrev Memory.wf (m : Memory) : Prop :=
  m.Pairwise (fun x y => x.1 < y.1) ∧ ∀ x ∈ m, x.2 ≠ 0

/-- What a slot that the list does not name reads as: the ring is all 0 after RESET and CONFIGURE (R41). -/
def Memory.unlisted : Sample := 0

/-- `MemRead(a, 1)` (R48). Every caller forms `a` modulo `N`, so `a < N`. -/
def Memory.read : Memory → Nat → Sample
  | [], _ => Memory.unlisted
  | (b, w) :: m, a => if a = b then w else Memory.read m a

/-- `MemWrite(a, 1, v)` (R48), keeping the canonical form. -/
def Memory.write : Memory → Nat → Sample → Memory
  | [], a, v => if v = Memory.unlisted then [] else [(a, v)]
  | (b, w) :: m, a, v =>
    if a < b then
      if v = Memory.unlisted then (b, w) :: m else (a, v) :: (b, w) :: m
    else if a = b then
      if v = Memory.unlisted then m else (a, v) :: m
    else (b, w) :: Memory.write m a v

/-- The modes in which every command but RESET and STATUS is ignored (R147). -/
def Mode.isTerminal : Mode → Bool
  | .unconfigured => false
  | .searchingWakeup => false
  | .decodingRelease => false
  | .released => true
  | .stopped => true
  | .faulted => true

/-- TAKING AN EXCEPTION: `raise Fault(c)` (R154), applied to the record as it stood before the command, so that every
other write of the command is discarded (R156). There is no vector and no saved program counter. -/
def raiseFault (c : FaultCause) (S : Regs) : Regs :=
  { S with fault := c, mode := .faulted, last := Last.clear }

/-- LEAVING AN EXCEPTION: RESET is the only exit (R155); it sets every field of the record to its value in R41, so
nothing of the faulted record is kept. -/
def leaveFault (_ : Regs) : Regs := Regs.reset

/-- An ignored command clears `last`, sets `last.ev_ignored` and writes nothing else (R147). -/
def ignoreCommand (S : Regs) : Regs :=
  { S with last := { Last.clear with evIgnored := true } }

/-- "clear S.last", the first write of every command other than STATUS (R40). -/
def clearLast (S : Regs) : Regs := { S with last := Last.clear }

/-- The host writes the operand ports and issues the command (R66, R175); the commands after it stay to be issued. -/
def State.deliver (s : State) (c : HostCommand) (rest : List HostCommand) : State :=
  { s with cfgPort := c.cfgPort, chunkPort := c.chunkPort, host := rest }

end Sys2Proof.Machine
end

