-- ==== Sys2Proof/Machine/Operands.lean ====
section
/-!
DEFINITION. The operands (30_encoding.md R66 to R68): the rounding of 00_scope.md R10, the frequency-to-bin map
(41_tone_detector.md R88 to R91), the registers CONFIGURE derives from the record (10_state.md R17), the record's
validity (45_controller.md R139), and the value of a chunk's samples.
-/
namespace Sys2Proof.Machine

/-- `round(x)`: to the nearest integer, a tie to the even one (R10). -/
def roundHalfEven (x : RealExpr) : Int :=
  let half : RealExpr := .num (.rat (1 / 2))
  let rest : RealExpr := .sub x (.int x.floor)
  if rest.lt half then x.floor
  else if half.lt rest then x.floor + 1
  else if x.floor % 2 = 0 then x.floor
  else x.floor + 1

/-- `norm_freq(f) = f mod fs` (R88), the remainder of R10. -/
def normFreq (fs f : RealExpr) : RealExpr := .sub f (.mul fs (.int (RealExpr.div f fs).floor))

/-- `norm_freq(f)·N/fs`, the index that R89 rounds. -/
def realIndex (fs : RealExpr) (n : Nat) (f : RealExpr) : RealExpr := .div (.mul (normFreq fs f) (.int n)) fs

/-- `bin_index(f)` (R89): a rounded index `N` is bin 0. -/
def binIndex (fs : RealExpr) (n : Nat) (f : RealExpr) : Nat :=
  let r := (roundHalfEven (realIndex fs n f)).toNat
  if r = n then 0 else r

/-- `t·fs/C`, a duration in chunks (R17). -/
def inChunks (fs : RealExpr) (c : Nat) (t : RealExpr) : RealExpr := .div (.mul t fs) (.int c)

/-- `round(t·fs/C)` (R17). -/
def chunksOf (fs : RealExpr) (c : Nat) (t : RealExpr) : Int := roundHalfEven (inChunks fs c t)

/-- `4·fs/N`, how far the release tones are from the carrier (R91). -/
def ConfigRecord.releaseShift (r : ConfigRecord) : RealExpr := .div (.mul (.int 4) (.num r.fs)) (.int r.n)

/-- `f_c + 4·fs/N` (R91). -/
def ConfigRecord.fHi (r : ConfigRecord) : RealExpr := .add (.num r.fc) r.releaseShift

/-- `f_c − 4·fs/N` (R91). -/
def ConfigRecord.fLo (r : ConfigRecord) : RealExpr := .sub (.num r.fc) r.releaseShift

/-- `PW + PRI` (R17). -/
def ConfigRecord.period (r : ConfigRecord) : RealExpr := .add (.num r.pw) (.num r.pri)

/-- The configuration registers of an accepted record: its fields (R16) and the derived registers (R17). -/
def ConfigRecord.toCfg (r : ConfigRecord) : Cfg where
  fs := r.fs
  n := r.n
  c := r.c
  fc := r.fc
  fShift := r.fShift
  pw := r.pw
  pri := r.pri
  thetaW := r.thetaW
  thetaR := r.thetaR
  wakeFreqs := r.wakeFreqs
  expected := r.expected
  rxId := r.rxId
  nw := r.wakeFreqs.length
  wakeBin := r.wakeFreqs.map fun f => binIndex (.num r.fs) r.n (.num f)
  binHi := binIndex (.num r.fs) r.n r.fHi
  binLo := binIndex (.num r.fs) r.n r.fLo
  l := r.expected.length
  w := (chunksOf (.num r.fs) r.c (.num r.pw)).toNat
  p := (chunksOf (.num r.fs) r.c r.period).toNat

/-- `valid(rec)`: the checks V1 to V8 of R139, in their order. -/
def ConfigRecord.valid (p : Params) (r : ConfigRecord) : Bool :=
  (RealExpr.int 0).lt (.num r.fs)
  && decide (1 ≤ r.n ∧ r.n ≤ p.nMax)
  && decide (1 ≤ r.c ∧ r.c ≤ r.n)
  && decide (1 ≤ r.wakeFreqs.length ∧ r.wakeFreqs.length ≤ Config.maxTones)
  && decide (1 ≤ r.expected.length ∧ r.expected.length ≤ Config.maxBits)
  && decide (1 ≤ chunksOf (.num r.fs) r.c (.num r.pw))
  && !(RealExpr.num r.pri).lt (.int 0)
  && decide (binIndex (.num r.fs) r.n r.fHi ≠ binIndex (.num r.fs) r.n r.fLo)

/-- The value of a sample, `sext_16` of its bits (R68). -/
def sampleValue (v : Sample) : Int := v.toInt

end Sys2Proof.Machine
end

