-- ==== Sys2Proof/Machine/SampleBuffer.lean ====
section
/-!
DEFINITION. The SampleBuffer (40_sample_buffer.md): the window as a view of the ring, and PUSH.
-/
namespace Sys2Proof.Machine

/-- `window(S)` for a buffer of `n` samples (R79): oldest first. -/
def window (n : Nat) (S : Regs) : List Sample :=
  (List.range n).map fun i => S.ring.read ((S.wp + i) % n)

/-- The loop of PUSH (R80): `chunk[j]` goes to slot `(wp + j) mod N`, for `j` from `j₀` on. -/
def pushSamples (n wp : Nat) : Nat → List Sample → Memory → Memory
  | _, [], m => m
  | j, v :: vs, m => pushSamples n wp (j + 1) vs (m.write ((wp + j) % n) v)

/-- PUSH (R80). -/
def push (n : Nat) (chunk : List Sample) (S : Regs) : Regs :=
  { S with ring := pushSamples n S.wp 0 chunk S.ring, wp := (S.wp + chunk.length) % n }

/-- PUSH's precondition `1 ≤ m ≤ N` (R81), with the `N` slots it addresses present in the ring (R47, R48). -/
def pushAllowed (p : Params) (n : Nat) (chunk : List Sample) : Bool :=
  decide (1 ≤ chunk.length) && decide (chunk.length ≤ n) && decide (n ≤ p.nMax)

end Sys2Proof.Machine
end

