-- ==== Sys2Proof/Machine/Detect.lean ====
section
/-!
DEFINITION. DETECT (41_tone_detector.md R95), with any real threshold (R97).
-/
namespace Sys2Proof.Machine

/-- DETECT over the window's values (R95): one verdict for each position of `bins`. -/
def detectValues (x : List Int) (bins : List Nat) : RealNum → List Bool
  | .rat q => detectRational x bins q
  | .named i => bins.map fun b => exactReals.exceeds x b i

/-- DETECT (R95): it reads the window and its operands, and writes nothing (R101). -/
def detect (n : Nat) (S : Regs) (bins : List Nat) (θ : RealNum) : List Bool :=
  detectValues ((window n S).map sampleValue) bins θ

end Sys2Proof.Machine
end

