-- ==== Sys2Proof/Machine/Flags.lean ====
section
/-!
DEFINITION. The derived flags (10_state.md R27 to R29), the codes (30_encoding.md R71 to R73), the status word (R70),
the result record (R69), and what the result port carries after a command (R66).
-/
namespace Sys2Proof.Machine

/-- `armed(S)` (R27). -/
def armed (S : Regs) : Bool := decide (1 ≤ S.flag.length) && S.flag.all id

/-- `n_flagged(S)` (R28). -/
def nFlagged (S : Regs) : Nat := S.flag.count true

/-- `earliest(S)` (R29). -/
def earliest (S : Regs) : Option Nat :=
  if S.flag.any id then (S.time.filterMap id).min? else none

/-- The mode codes of R71. -/
def Mode.code : Mode → BitVec 3
  | .unconfigured => 0
  | .searchingWakeup => 1
  | .decodingRelease => 2
  | .released => 3
  | .stopped => 4
  | .faulted => 5

/-- The fault codes of R72. -/
def FaultCause.code : FaultCause → BitVec 3
  | .none => 0
  | .illegalCommand => 1
  | .notConfigured => 2
  | .configNotFound => 3
  | .configInvalid => 4
  | .chunkSize => 5
  | .reconfigure => 6

/-- The rearm-cause codes of R73. -/
def RearmCause.code : RearmCause → BitVec 2
  | .none => 0
  | .tie => 1
  | .mismatch => 2
  | .timeout => 3

/-- The status word (R70), the field of the highest bits first. -/
def statusWord (S : Regs) : Word :=
  BitVec.ofNat 8 S.nbits ++ BitVec.ofNat 8 (nFlagged S)
    ++ BitVec.ofBool S.last.evIgnored ++ BitVec.ofBool S.last.evReleased
    ++ BitVec.ofBool S.last.evEoc ++ BitVec.ofBool S.last.evBit.toBool
    ++ BitVec.ofBool S.last.evBitValid ++ BitVec.ofBool S.last.evStale
    ++ BitVec.ofBool S.last.evTone ++ BitVec.ofBool (armed S)
    ++ S.last.rearmCause.code ++ S.fault.code ++ S.mode.code

/-- `window[0 … N−1]`, or `[]` while there is no configuration (R69). -/
def statusWindow (S : Regs) : List Sample :=
  match S.cfg with
  | none => []
  | some c => window c.n S

/-- The full result record (R69). -/
def resultRecord (S : Regs) : ResultRecord where
  status := statusWord S
  mode := S.mode
  fault := S.fault
  cfg := S.cfg
  window := statusWindow S
  flag := S.flag
  time := S.time
  pos := S.pos
  armed := armed S
  nFlagged := nFlagged S
  earliest := earliest S
  acc := S.acc
  k := S.k
  nbits := S.nbits
  msg := S.msg
  last := S.last

/-- The end of a command: its writes to the record take effect together (R11, R55), and the result port carries the
status word of the record they leave (R66, R70). -/
def State.respond (s : State) (S : Regs) : State :=
  { s with regs := S, result := { word := statusWord S, record := none } }

/-- The end of STATUS: the record is unchanged, and the result port carries the status word and the full record (R66,
R145). -/
def State.respondStatus (s : State) : State :=
  { s with result := { word := statusWord s.regs, record := some (resultRecord s.regs) } }

end Sys2Proof.Machine
end

