-- ==== Sys2Proof/Machine/SymbolDecoder.lean ====
section
/-!
DEFINITION. The SymbolDecoder (43_symbol_decoder.md): DECODE_STEP.
-/
namespace Sys2Proof.Machine

/-- 1 for a detected tone, 0 for none. -/
def detection (d : Bool) : Int := if d then 1 else 0

/-- The symbol of a cycle (R113), from the verdicts at `[bin_hi, bin_lo]`. -/
def symbol (d : List Bool) : Int := detection (d.getD 0 false) - detection (d.getD 1 false)

/-- What DECODE_STEP returns (R121). -/
structure DecodeResult where
  eoc : Bool
  bits : List Bit
  tie : Bool
  timeout : Bool
deriving DecidableEq, Repr

/-- The accumulator after the cycle's symbol: only positions `k < W` are integrated (R115). -/
def integrate (c : Cfg) (sym : Int) (S : Regs) : Int := if S.k < c.w then S.acc + sym else S.acc

/-- Whether the cycle ends a period, `k = P − 1` (R116). -/
def endsPeriod (c : Cfg) (S : Regs) : Bool := decide (S.k + 1 = c.p)

/-- The bit of a sum (R117); a sum of 0 decides none (R118). -/
def decideBit (acc : Int) : List Bit :=
  if 0 < acc then [.one] else if acc < 0 then [.zero] else []

/-- The global acquisition timeout (R120). -/
def isTimeout (p : Params) (S : Regs) : Bool :=
  match earliest S with
  | none => false
  | some t => decide (S.pos - t > p.tTimeout)

/-- The emitted bit as `last.ev_bit` shows it: 0 when there is none (R40). -/
def shownBit (bits : List Bit) : Bit := bits.headD .zero

/-- DECODE_STEP (R114), from the cycle's symbol. -/
def decodeStepWith (p : Params) (c : Cfg) (sym : Int) (S : Regs) : Regs × DecodeResult :=
  let sum := integrate c sym S
  let ends := endsPeriod c S
  let bits := if ends then decideBit sum else []
  let tie := ends && decide (sum = 0)
  let nbits := S.nbits + bits.length
  let timeout := isTimeout p S
  let eoc := decide (nbits = c.l) || timeout || tie
  ({ S with
     acc := if ends then 0 else sum,
     k := if ends then 0 else S.k + 1,
     nbits := nbits,
     last := { S.last with
       evBitValid := S.last.evBitValid || !bits.isEmpty,
       evBit := if bits.isEmpty then S.last.evBit else shownBit bits,
       evEoc := S.last.evEoc || eoc } },
   { eoc := eoc, bits := bits, tie := tie, timeout := timeout })

/-- DECODE_STEP (R114). -/
def decodeStep (p : Params) (c : Cfg) (S : Regs) : Regs × DecodeResult :=
  decodeStepWith p c (symbol (detect c.n S [c.binHi, c.binLo] c.thetaR)) S

end Sys2Proof.Machine
end

