-- ==== Sys2Proof/Machine/WakeUp.lean ====
section
/-!
DEFINITION. WakeUpAcquisition (42_wakeup.md): WAKE_STEP.
-/
namespace Sys2Proof.Machine

/-- Whether step 2 acquires a tone: its flag is clear and it is detected (R103). -/
def acquires (flag d : Bool) : Bool := !flag && d

/-- Step 2 of WAKE_STEP on the flags (R102, R103): a clear flag whose tone is detected is set. -/
def acquireFlags : List Bool → List Bool → List Bool
  | f :: fs, d :: ds => (f || d) :: acquireFlags fs ds
  | fs, _ => fs

/-- Step 2 of WAKE_STEP on the times: an acquired tone's time is the current position; every other time stays (R103). -/
def acquireTimes (pos : Nat) : List Bool → List (Option Nat) → List Bool → List (Option Nat)
  | f :: fs, t :: ts, d :: ds => (if acquires f d then some pos else t) :: acquireTimes pos fs ts ds
  | _, ts, _ => ts

/-- Whether step 2 acquires at least one tone (R103). -/
def acquiresAny : List Bool → List Bool → Bool
  | f :: fs, d :: ds => acquires f d || acquiresAny fs ds
  | _, _ => false

/-- Step 2 of WAKE_STEP, from the detections `d` (R102). -/
def acquire (d : List Bool) (S : Regs) : Regs :=
  { S with
    flag := acquireFlags S.flag d,
    time := acquireTimes S.pos S.flag S.time d,
    last := { S.last with evTone := S.last.evTone || acquiresAny S.flag d } }

/-- The condition of the stale reset (R105): some tone is flagged, some is not, and the attempt has run past
`T_TIMEOUT`. The comparison is strict. -/
def isStale (p : Params) (S : Regs) : Bool :=
  match earliest S with
  | none => false
  | some t => S.flag.any (! ·) && decide (S.pos - t > p.tTimeout)

/-- The clearing of the WakeUpAcquisition state that the stale reset, REARM and the release action share: every flag,
every time, and the position (R33, R105, R131, R132). -/
def clearWakeUp (S : Regs) : Regs :=
  { S with flag := S.flag.map fun _ => false, time := S.time.map fun _ => none, pos := 0 }

/-- The stale reset (R105). -/
def staleReset (S : Regs) : Regs :=
  { clearWakeUp S with last := { S.last with evStale := true } }

/-- Steps 2 to 4 of WAKE_STEP (R102), from the detections `d` of step 1. -/
def wakeStepWith (p : Params) (d : List Bool) (S : Regs) : Regs × Bool :=
  let S₂ := acquire d S
  let S₃ := if isStale p S₂ then staleReset S₂ else S₂
  (S₃, armed S₃)

/-- WAKE_STEP (R102): the record it leaves, and whether it is armed. -/
def wakeStep (p : Params) (c : Cfg) (S : Regs) : Regs × Bool :=
  wakeStepWith p (detect c.n S c.wakeBin c.thetaW) S

end Sys2Proof.Machine
end

