-- ==== Sys2Proof/Machine/MessageVerifier.lean ====
section
/-!
DEFINITION. The MessageVerifier (44_message_verifier.md): APPEND, VERIFY, REARM and the release action.
-/
namespace Sys2Proof.Machine

/-- APPEND (R126). -/
def append (bits : List Bit) (S : Regs) : Regs := { S with msg := S.msg ++ bits }

/-- What VERIFY returns (R127). -/
structure Verdict where
  isMatch : Bool
  isMismatch : Bool
deriving DecidableEq, Repr

/-- `msg` is a prefix of `expected` (R127). -/
def isPrefix : List Bit → List Bit → Bool
  | [], _ => true
  | _ :: _, [] => false
  | a :: as, b :: bs => decide (a = b) && isPrefix as bs

/-- The mismatch of R129, early or at full length as `PREFIX_REARM` says. -/
def mismatches (p : Params) (c : Cfg) (S : Regs) : Bool :=
  if p.prefixRearm then !isPrefix S.msg c.expected
  else decide (S.msg.length = c.l) && !decide (S.msg = c.expected)

/-- VERIFY (R127): it compares only after an appended bit. -/
def verify (p : Params) (c : Cfg) (bits : List Bit) (S : Regs) : Verdict :=
  if bits.isEmpty then { isMatch := false, isMismatch := false }
  else { isMatch := decide (S.msg = c.expected), isMismatch := mismatches p c S }

/-- REARM (R131). -/
def rearm (cause : RearmCause) (S : Regs) : Regs :=
  { clearWakeUp S with
    msg := [], acc := 0, k := 0, nbits := 0, mode := .searchingWakeup,
    last := { S.last with evRearm := true, rearmCause := cause } }

/-- The release action (R132). -/
def release (S : Regs) : Regs :=
  { clearWakeUp S with mode := .released, last := { S.last with evReleased := true } }

/-- The rearm cause, the first true one in the order of R130. -/
def rearmCause (r : DecodeResult) (v : Verdict) : RearmCause :=
  if r.tie then .tie else if v.isMismatch then .mismatch else .timeout

end Sys2Proof.Machine
end

