-- ==== Sys2Proof/Machine/Controller.lean ====
section
/-!
DEFINITION. The ReceiverController (45_controller.md): CYCLE, the meaning of each of the five commands, and the illegal
word.
-/
namespace Sys2Proof.Machine

/-- The part of CYCLE before the phase (R141): PUSH, and the position advances by `C`. -/
def takeChunk (c : Cfg) (chunk : List Sample) (S : Regs) : Regs :=
  let S₁ := push c.n chunk S
  { S₁ with pos := S₁.pos + c.c }

/-- The phase of `SEARCHING_WAKEUP` (R141): arming changes the mode at the end of the cycle (R106). -/
def searchPhase (p : Params) (c : Cfg) (S : Regs) : Regs :=
  let r := wakeStep p c S
  if r.2 then { r.1 with mode := .decodingRelease } else r.1

/-- The end of a decode cycle (R141): a match wins (R143), any other end of the attempt rearms. -/
def settle (p : Params) (c : Cfg) (r : DecodeResult) (S : Regs) : Regs :=
  let S₁ := append r.bits S
  let v := verify p c r.bits S₁
  if v.isMatch then release S₁
  else if r.tie || v.isMismatch || r.eoc then rearm (rearmCause r v) S₁
  else S₁

/-- The phase of `DECODING_RELEASE` (R141). -/
def decodePhase (p : Params) (c : Cfg) (S : Regs) : Regs :=
  let r := decodeStep p c S
  settle p c r.2 r.1

/-- CYCLE (R141): one push, then exactly one phase, chosen by the mode at the start (R142). -/
def cycle (p : Params) (c : Cfg) (chunk : List Sample) (S : Regs) : Regs :=
  if S.mode = .searchingWakeup then searchPhase p c (takeChunk c chunk S)
  else decodePhase p c (takeChunk c chunk S)

/-- What an accepted CONFIGURE writes (R138, R41). -/
def configureWith (r : ConfigRecord) (S : Regs) : Regs :=
  { S with
    cfg := some r.toCfg,
    ring := [], wp := 0,
    flag := List.replicate r.wakeFreqs.length false,
    time := List.replicate r.wakeFreqs.length none,
    pos := 0, acc := 0, k := 0, nbits := 0, msg := [],
    mode := .searchingWakeup,
    last := Last.clear }

/-- The record after CONFIGURE (R138): its checks in their order (R157). -/
def configureRegs (p : Params) (r : ConfigRecord) (S : Regs) : Regs :=
  if S.mode.isTerminal then ignoreCommand S
  else if S.mode ≠ .unconfigured then raiseFault .reconfigure S
  else if r.lookupOk = false then raiseFault .configNotFound S
  else if r.valid p = false then raiseFault .configInvalid S
  else configureWith r S

/-- The record after STOP (R144). -/
def stopRegs (S : Regs) : Regs :=
  if S.mode.isTerminal then ignoreCommand S
  else { clearLast S with mode := .stopped }

/-- The record after an illegal word (R146). -/
def illegalRegs (S : Regs) : Regs :=
  if S.mode.isTerminal then ignoreCommand S
  else raiseFault .illegalCommand S

/-- `RESET` (R137): accepted in every mode. -/
def execReset (s : State) : Host.Outcome State Fault Refusal :=
  .next (s.respond (leaveFault s.regs))

/-- `CONFIGURE` (R138). -/
def execConfigure (s : State) : Host.Outcome State Fault Refusal :=
  .next (s.respond (configureRegs s.params s.cfgPort s.regs))

/-- The part of STEP past the mode checks (R140): the chunk's length, then CYCLE. -/
def stepConfigured (s : State) (c : Cfg) : Host.Outcome State Fault Refusal :=
  if s.chunkPort.length ≠ c.c then .next (s.respond (raiseFault .chunkSize s.regs))
  else if pushAllowed s.params c.n s.chunkPort then
    .next (s.respond (cycle s.params c s.chunkPort (clearLast s.regs)))
  else .fault .pushPrecondition

/-- `STEP` (R140): its checks in their order (R157). -/
def execStep (s : State) : Host.Outcome State Fault Refusal :=
  if s.regs.mode.isTerminal then .next (s.respond (ignoreCommand s.regs))
  else if s.regs.mode = .unconfigured then .next (s.respond (raiseFault .notConfigured s.regs))
  else
    match s.regs.cfg with
    | none => .fault .noConfiguration
    | some c => stepConfigured s c

/-- `STOP` (R144). -/
def execStop (s : State) : Host.Outcome State Fault Refusal :=
  .next (s.respond (stopRegs s.regs))

/-- `STATUS` (R145): it writes nothing to the record, and reports it on the result port. -/
def execStatus (s : State) : Host.Outcome State Fault Refusal :=
  .next s.respondStatus

/-- A word that is no command (R146). -/
def execIllegal (s : State) : Host.Outcome State Fault Refusal :=
  .next (s.respond (illegalRegs s.regs))

end Sys2Proof.Machine
end

