-- ==== Sys2Proof/Machine/Step.lean ====
section
/-!
DEFINITION. One step of the machine: the core takes the next command the host issues (00_scope.md R5). The core fetches
nothing (10_state.md R45), so the next command stands in the host's list.
-/
namespace Sys2Proof.Machine

/-- One command, already on the ports, from its decoding (30_encoding.md R65): a command runs, any other word is illegal
(45_controller.md R146). -/
def runWord (word : Word) (s : State) : Host.Outcome State Fault Refusal :=
  match decode word with
  | .ok i => exec i s
  | .error _ => execIllegal s

/-- One step: the host issues its next command and the core performs it whole (R5, R55). With no command to come the
core is idle and nothing changes (60_exceptions.md R167). -/
def step (s : State) : Host.Outcome State Fault Refusal :=
  match s.host with
  | [] => .next s
  | c :: rest => runWord c.word (s.deliver c rest)

/-- `s` with the word `w` of `nbits` bits as the host's next command; the operand ports keep what they hold, and the
commands the host had still to issue come after it. -/
def State.withFetchWord (s : State) (nbits w : Nat) : State :=
  { s with
    host := { word := BitVec.ofNat 32 (w % 2 ^ nbits), cfgPort := s.cfgPort, chunkPort := s.chunkPort } :: s.host }

end Sys2Proof.Machine
end

