-- ==== Sys2Proof/Safety/RealValue.lean ====
section
/-!
DEFINITION. The real numbers that a configuration's reals and the formulas over them stand for, and the rules'
arithmetic on them, in the terms claims use. The machine calls none of these.
-/
namespace Sys2Proof

/-- The real number a name stands for: one that the machine's answers are exact for (log entry 2). -/
noncomputable def Safety.realValue : Nat → ℝ := Machine.exactReals.exact.choose

/-- The real number a formula stands for. -/
noncomputable def Machine.RealExpr.toReal (e : Machine.RealExpr) : ℝ := Safety.eval Safety.realValue e

/-- The real number a configuration value is (R9). -/
noncomputable def RealNum.toReal (r : RealNum) : ℝ := (Machine.RealExpr.num r).toReal

/-! ### The arithmetic of the rules, over the real numbers themselves -/

/-- `round(x)` (R10). -/
noncomputable def Safety.realRound (x : ℝ) : Int :=
  if x - ⌊x⌋ < 1 / 2 then ⌊x⌋
  else if 1 / 2 < x - ⌊x⌋ then ⌊x⌋ + 1
  else if ⌊x⌋ % 2 = 0 then ⌊x⌋
  else ⌊x⌋ + 1

/-- `f mod fs` (R10, R88). -/
noncomputable def Safety.realMod (fs f : ℝ) : ℝ := f - fs * ⌊f / fs⌋

/-- `bin_index(f)` (R89). -/
noncomputable def Safety.realBin (fs : ℝ) (n : Nat) (f : ℝ) : Nat :=
  if (Safety.realRound (Safety.realMod fs f * n / fs)).toNat = n then 0
  else (Safety.realRound (Safety.realMod fs f * n / fs)).toNat

end Sys2Proof
end

