-- ==== Sys2Proof/Safety.lean ====
section
/-!
DEFINITION. What counts as a legal state of the machine, in the terms claims use: the invariants that the spec states of
the record (10_state.md R16 to R36), collected. The machine calls none of these.
-/
namespace Sys2Proof.Safety

open Sys2Proof.Machine

/-- The configuration registers hold what an accepted CONFIGURE derives from some valid record (R16, R17, R18). -/
def CfgLegal (p : Params) (c : Cfg) : Prop :=
  ∃ r : ConfigRecord, r.lookupOk = true ∧ r.valid p = true ∧ c = r.toCfg

/-- The ring holds only active slots, in canonical form, and the write pointer is one of them (R21, R22). -/
structure RingLegal (n : Nat) (S : Regs) : Prop where
  canonical : S.ring.wf
  active : ∀ x ∈ S.ring, x.1 < n
  pointer : S.wp < n

/-- The wake-up state (R24 to R26): one flag and one time a tone, a flag set exactly where its time is recorded, and no
time after the current position (R105). -/
structure WakeUpLegal (c : Cfg) (S : Regs) : Prop where
  tones : S.time.length = c.nw
  paired : S.flag = S.time.map Option.isSome
  past : ∀ t, some t ∈ S.time → t ≤ S.pos

/-- The decoder state (R35, R36). -/
structure DecoderLegal (c : Cfg) (S : Regs) : Prop where
  phase : S.k < c.p
  sum : S.acc.natAbs ≤ min S.k c.w
  count : S.nbits ≤ c.l
  message : S.msg.length = S.nbits

/-- What holds of a record whose configuration registers are `c`. -/
structure ConfiguredLegal (p : Params) (c : Cfg) (S : Regs) : Prop where
  cfg : CfgLegal p c
  ring : RingLegal c.n S
  wakeUp : WakeUpLegal c S
  decoder : DecoderLegal c S
  /-- R36: in `SEARCHING_WAKEUP` the decoder and the message are clear. -/
  searching : S.mode = .searchingWakeup → S.acc = 0 ∧ S.k = 0 ∧ S.nbits = 0 ∧ S.msg = []
  /-- R106: in `DECODING_RELEASE` every tone is flagged, and the message is not complete (R119). -/
  decoding : S.mode = .decodingRelease → armed S = true ∧ S.nbits < c.l
  /-- R132: in `RELEASED` the message is the expected sequence and the wake-up state is clear. -/
  released : S.mode = .released → S.msg = c.expected ∧ armed S = false ∧ S.pos = 0

/-- What holds of a record with no configuration: everything but the mode, the fault and the last result is as after
reset (R41), and the mode is one that needs none. -/
structure UnconfiguredLegal (S : Regs) : Prop where
  clear : S = { Regs.reset with mode := S.mode, fault := S.fault, last := S.last }
  mode : S.mode = .unconfigured ∨ S.mode = .stopped ∨ S.mode = .faulted

/-- The record is legal for a build with parameters `p`. -/
structure RegsLegal (p : Params) (S : Regs) : Prop where
  /-- R16: the configuration registers hold no value in `UNCONFIGURED`. -/
  unconfigured : S.mode = .unconfigured → S.cfg = none
  absent : S.cfg = none → UnconfiguredLegal S
  present : ∀ c, S.cfg = some c → ConfiguredLegal p c S
  /-- R20: `fault = NONE` unless `mode = FAULTED`, where a cause is latched. -/
  fault : S.fault = .none ↔ S.mode ≠ .faulted
  /-- R70: the rearm cause is recorded exactly when REARM ran. -/
  cause : S.last.rearmCause = .none ↔ S.last.evRearm = false
  /-- R40: `ev_bit` is 0 when no bit was emitted. -/
  bit : S.last.evBitValid = false → S.last.evBit = .zero

/-- The invariant of the machine. -/
def Inv (s : State) : Prop := RegsLegal s.params s.regs

/-! ### One cycle, in the terms of the spec's prose -/

/-- The window's values after some chunks: the most recent `N` samples of the old window followed by them (R79, R83). -/
def windowAfter (c : Cfg) (S : Regs) (chunks : List (List Sample)) : List Int :=
  ((window c.n S ++ chunks.flatten).drop chunks.flatten.length).map BitVec.toInt

/-- The ring takes a chunk: its sample `j` goes to slot `(wp + j) mod N`, every other slot keeps its sample, and the
write pointer moves past the chunk (R80). -/
structure RingTakes (n : Nat) (chunk : List Sample) (S S' : Regs) : Prop where
  stored : ∀ j < chunk.length, S'.ring.read ((S.wp + j) % n) = chunk.getD j 0
  kept : ∀ a, (∀ j < chunk.length, a ≠ (S.wp + j) % n) → S'.ring.read a = S.ring.read a
  pointer : S'.wp = (S.wp + chunk.length) % n

/-- `t` is `s` after a cycle that took the chunk and left the record `R`, but for the ring and its pointer: the result
port carries the status word, and the parameters, the ports and the host's commands are as before. -/
structure CycleLeaves (s : State) (c : Cfg) (R : Regs) (t : State) : Prop where
  ring : RingTakes c.n s.chunkPort s.regs t.regs
  rest : t = { s with regs := { R with ring := t.regs.ring, wp := t.regs.wp },
                      result := { word := statusWord t.regs, record := none } }

/-- Some recorded time lies more than `T_TIMEOUT` before `pos`: the same as `pos − earliest > T_TIMEOUT` (R105, R120). -/
def late (p : Params) (time : List (Option Nat)) (pos : Nat) : Bool :=
  time.any fun o => o.any fun t => decide (p.tTimeout < pos - t)

/-- `sym` is the symbol of a window (R113): `+1` when only the high tone is detected, `−1` when only the low tone is,
0 when both are or neither is. -/
def IsSymbol (x : List Int) (c : Cfg) (sym : Int) : Prop :=
  (Detected x c.binHi c.thetaR.toReal ∧ ¬Detected x c.binLo c.thetaR.toReal ∧ sym = 1) ∨
  (¬Detected x c.binHi c.thetaR.toReal ∧ Detected x c.binLo c.thetaR.toReal ∧ sym = -1) ∨
  ((Detected x c.binHi c.thetaR.toReal ↔ Detected x c.binLo c.thetaR.toReal) ∧ sym = 0)

/-- The sum at the end of a cycle with symbol `sym` (R115). -/
def sumAfter (c : Cfg) (S : Regs) (sym : Int) : Int := if S.k < c.w then S.acc + sym else S.acc

/-- The record of R131: a cleared attempt, searching again. -/
def rearmed (c : Cfg) (cause : RearmCause) (l : Last) (S : Regs) : Regs :=
  { S with
    flag := List.replicate c.nw false, time := List.replicate c.nw none, pos := 0,
    msg := [], acc := 0, k := 0, nbits := 0, mode := .searchingWakeup,
    last := { l with evRearm := true, rearmCause := cause } }

/-- STEP in a mode that runs a cycle, with a chunk of the configured length, in a legal state (R14 "cycle", R136). -/
structure CycleReady (s : State) (c : Cfg) (m : Mode) : Prop where
  legal : Inv s
  mode : s.regs.mode = m
  cfg : s.regs.cfg = some c
  chunk : s.chunkPort.length = c.c

/-- The position stays within reach of the recorded times (R37), at the end of every command. -/
structure PosBound (p : Params) (c : Cfg) (S : Regs) : Prop where
  searching : S.mode = .searchingWakeup → ∀ t, some t ∈ S.time → S.pos ≤ t + p.tTimeout
  decoding : S.mode = .decodingRelease → ∀ t, some t ∈ S.time → S.pos ≤ t + p.tTimeout + c.c

/-- How far an attempt has come in samples, against its timeout (R120, R177): the position lies past every recorded time
by all the decode cycles so far, and after the first of them it is within `T_TIMEOUT`. -/
structure PhaseBound (p : Params) (S : Regs) : Prop where
  elapsed : S.mode = .decodingRelease → ∀ c t, S.cfg = some c → some t ∈ S.time →
    t + (S.nbits * c.p + S.k) * c.c ≤ S.pos
  inTime : S.mode = .decodingRelease → 1 ≤ S.nbits + S.k → ∀ t, some t ∈ S.time → S.pos ≤ t + p.tTimeout

/-- `S'` is `S` with `d` added to the position and to every recorded time (R111). -/
def ShiftedBy (d : Nat) (S S' : Regs) : Prop :=
  S' = { S with pos := S.pos + d, time := S.time.map (Option.map (· + d)) }

/-- `S'` is `S` but for a ring and a pointer that show the same window (R23). -/
structure SameWindow (S S' : Regs) : Prop where
  rest : S' = { S with ring := S'.ring, wp := S'.wp }
  canonical : S.ring.wf ∧ S'.ring.wf
  window : ∀ c, S.cfg = some c → window c.n S = window c.n S'

/-- What a stream of decoded bits does to an attempt that holds `msg` (R127, R141): whether it ends in a match. A
mismatch ends it without one. -/
def attemptReleases (p : Params) (c : Cfg) (S : Regs) : List Bit → List Bit → Bool
  | _, [] => false
  | msg, b :: bs =>
    (verify p c [b] { S with msg := msg ++ [b] }).isMatch ||
      (!(verify p c [b] { S with msg := msg ++ [b] }).isMismatch && attemptReleases p c S (msg ++ [b]) bs)

/-- The symbols that carry a bit: `W` cycles of its tone, then `P − W` of none (R124). -/
def bitSymbol : Bit → Int
  | .zero => -1
  | .one => 1

/-- The bits DECODE_STEP emits in each cycle, from the symbols of the cycles (R114, R121). -/
def decoderOutputs (p : Params) (c : Cfg) : List Int → Regs → List (List Bit)
  | [], _ => []
  | sym :: syms, S => (decodeStepWith p c sym S).2.bits :: decoderOutputs p c syms (decodeStepWith p c sym S).1

/-- A STEP as the host issues it, with its chunk on the port. -/
def stepCommand (r : ConfigRecord) (chunk : List Sample) : HostCommand :=
  { word := 0x00000003, cfgPort := r, chunkPort := chunk }

end Sys2Proof.Safety
end

