-- ==== Sys2Proof/Certificates/Slice0/Obligations.lean ====
section
/-!
DEFINITION. The statements for the provers, one proposition each. `R<n>` is a rule of spec/. A statement about `step`
takes the next host command from the model's own list (log entry 5). A configuration's `Real` is any real number:
`toReal` is the number it stands for (log entry 2). DETECT is decided exactly over the real numbers (log entry 3).
-/
section

open Sys2Proof Sys2Proof.Machine Sys2Proof.Safety

/-! ### Command words (30_encoding.md) -/

/-- R65: the decoder is total, and each command has exactly one word. -/
def Obligations.DecodeExactlyFiveWords : Prop :=
  ∀ w : Word,
    (decode w = .ok .reset ↔ w = 0x00000001) ∧ (decode w = .ok .configure ↔ w = 0x00000002) ∧
    (decode w = .ok .step ↔ w = 0x00000003) ∧ (decode w = .ok .stop ↔ w = 0x00000004) ∧
    (decode w = .ok .status ↔ w = 0x00000005) ∧
    (w ∉ [0x00000001, 0x00000002, 0x00000003, 0x00000004, 0x00000005] → ∃ e, decode w = .error e)

/-- R61 to R64 on words written out: the five full words of R62, and a word for each way to be illegal. -/
def Obligations.DecodeWrittenWords : Prop :=
  decode 0b00000000000000000000000000000001 = .ok .reset ∧
  decode 0b00000000000000000000000000000010 = .ok .configure ∧
  decode 0b00000000000000000000000000000011 = .ok .step ∧
  decode 0b00000000000000000000000000000100 = .ok .stop ∧
  decode 0b00000000000000000000000000000101 = .ok .status ∧
  decode 0b00000000000000000000000000000000 = .error .unassignedOp ∧
  decode 0b00000000000000000000000000000110 = .error .unassignedOp ∧
  decode 0b00000000000000000000000100000011 = .error .reservedNonzero ∧
  decode 0b10000000000000000000000000000001 = .error .reservedNonzero

/-! ### One step (00_scope.md R5, 20_memory.md R55, 60_exceptions.md R167) -/

/-- The step at a state whose next host command is a command word is `exec` of that command, with the operand ports as the
host wrote them and the command taken off the host's list. The host's list is the model's own field (log entry 5). -/
def Obligations.StepRunsDecodedCommand : Prop :=
  ∀ (s : State) (c : HostCommand) (rest : List HostCommand) (i : Instr),
    s.host = c :: rest → decode c.word = .ok i →
      step s = exec i { s with cfgPort := c.cfgPort, chunkPort := c.chunkPort, host := rest }

/-- R146: an illegal word faults, or is ignored in the terminal modes. It never reads an operand port: what it leaves
in the record is computed from the record alone. The host's list is the model's own field (log entry 5). That the
result port then holds no record is the model's choice (log entry 4): R66 says that it carries one after STATUS. -/
def Obligations.IllegalWord : Prop :=
  ∀ (s : State) (c : HostCommand) (rest : List HostCommand) (e : DecodeError),
    s.host = c :: rest → decode c.word = .error e →
      ∃ t : State,
        step s = .next t ∧
        t = { s with cfgPort := c.cfgPort, chunkPort := c.chunkPort, host := rest, regs := t.regs,
                     result := { word := statusWord t.regs, record := none } } ∧
        (s.regs.mode ∈ [Mode.unconfigured, .searchingWakeup, .decodingRelease] →
          t.regs = { s.regs with fault := .illegalCommand, mode := .faulted, last := Last.clear }) ∧
        (s.regs.mode ∈ [Mode.released, .stopped, .faulted] →
          t.regs = { s.regs with last := { Last.clear with evIgnored := true } })

/-- R167: with no command the core is idle and holds all state unchanged. An empty host list stands for the absence of
a command (log entry 5). -/
def Obligations.IdleHoldsAllState : Prop :=
  ∀ s : State, s.host = [] → step s = .next s

/-! ### Reset (10_state.md R41, 70_reset_and_hazards.md R169) -/

/-- R169: the power-on state, field by field, and that RESET gives the same record. -/
def Obligations.PowerOnState : Prop :=
  (State.reset.regs.mode = .unconfigured ∧ State.reset.regs.fault = .none ∧ State.reset.regs.cfg = none ∧
    (∀ a, State.reset.regs.ring.read a = 0) ∧ State.reset.regs.wp = 0 ∧
    State.reset.regs.flag = [] ∧ State.reset.regs.time = [] ∧ State.reset.regs.pos = 0 ∧
    State.reset.regs.acc = 0 ∧ State.reset.regs.k = 0 ∧ State.reset.regs.nbits = 0 ∧ State.reset.regs.msg = [] ∧
    State.reset.regs.last =
      { evTone := false, evStale := false, evBitValid := false, evBit := .zero, evEoc := false, evRearm := false,
        rearmCause := .none, evReleased := false, evIgnored := false }) ∧
  ∀ s : State, ∃ t, exec .reset s = .next t ∧ t.regs = State.reset.regs

/-- R137: RESET is accepted in every mode, leaves the reset record and status word 0, and a second RESET changes
nothing. It is the only way out of a fault. That the result port then holds no record is the model's choice (log entry
4): R66 says that it carries one after STATUS. -/
def Obligations.ResetCommand : Prop :=
  ∀ s : State, ∃ t : State,
    exec .reset s = .next t ∧
    t = { s with
      regs := { cfg := none, mode := .unconfigured, fault := .none, ring := [], wp := 0, flag := [], time := [],
                pos := 0, acc := 0, k := 0, nbits := 0, msg := [], last := Last.clear },
      result := { word := 0x00000000, record := none } } ∧
    exec .reset t = .next t ∧
    (s.regs.mode = .faulted → ∀ (i : Instr) (u : State), i ≠ .reset → exec i s = .next u →
      u.regs.mode = .faulted ∧ u.regs.fault = s.regs.fault)

/-- The reset state is legal. -/
def Obligations.ResetIsLegal : Prop := Inv State.reset

/-! ### The invariant -/

/-- Every step keeps the state legal: R16, R20, R22, R24 to R26, R30 to R32, R35, R36 and the canonical form of the
ring. R35 and R36 name every mode but `UNCONFIGURED`; the model reads them as "when configured" (log entry 8). -/
def Obligations.StepKeepsLegal : Prop :=
  ∀ s t : State, Inv s → step s = .next t → Inv t

/-- In a legal state every command and every other word completes: nothing stops the machine (R48, R81, R151). -/
def Obligations.LegalStatesNeverStop : Prop :=
  ∀ s : State, Inv s → (∃ t, step s = .next t) ∧ ∀ i : Instr, ∃ t, exec i s = .next t

/-- R37: the bound on `pos` against the recorded times, kept by every step. -/
def Obligations.StepKeepsPosBound : Prop :=
  ∀ (s t : State) (c c' : Cfg), Inv s → s.regs.cfg = some c → PosBound s.params c s.regs →
    step s = .next t → t.regs.cfg = some c' → PosBound t.params c' t.regs

/-- What R120 counts, kept by every step: after the arming cycle, each decode cycle so far has advanced the position by
`C`, and every one of them was in time. -/
def Obligations.StepKeepsPhaseBound : Prop :=
  ∀ s t : State, Inv s → PhaseBound s.params s.regs → step s = .next t → PhaseBound t.params t.regs

/-- R177: with `T_TIMEOUT < (L·P − 1)·C` the core never releases (R120: only the cycles before the last must be in
time). -/
def Obligations.ShortTimeoutNeverReleases : Prop :=
  ∀ (s t : State) (c : Cfg), Inv s → PhaseBound s.params s.regs → s.regs.cfg = some c →
    s.params.tTimeout < (c.l * c.p - 1) * c.c → s.regs.mode ≠ .released → step s = .next t →
      t.regs.mode ≠ .released

/-! ### Modes (45_controller.md R135, R147) -/

/-- R135: the transitions of `mode`, each with the command that makes it and its condition, and no other. -/
def Obligations.ModeTransitions : Prop :=
  ∀ s t : State, Inv s → step s = .next t → t.regs.mode ≠ s.regs.mode →
    ∃ (h : HostCommand) (rest : List HostCommand), s.host = h :: rest ∧
      ((h.word = 0x00000001 ∧ t.regs.mode = .unconfigured) ∨
       (h.word = 0x00000002 ∧ s.regs.mode = .unconfigured ∧ t.regs.mode = .searchingWakeup ∧
         h.cfgPort.lookupOk = true ∧ h.cfgPort.valid s.params = true) ∨
       (h.word = 0x00000003 ∧ s.regs.mode = .searchingWakeup ∧ t.regs.mode = .decodingRelease ∧
         armed t.regs = true) ∨
       (h.word = 0x00000003 ∧ s.regs.mode = .decodingRelease ∧ t.regs.mode = .released ∧
         (∃ c, t.regs.cfg = some c ∧ t.regs.msg = c.expected)) ∨
       (h.word = 0x00000003 ∧ s.regs.mode = .decodingRelease ∧ t.regs.mode = .searchingWakeup ∧
         t.regs.last.evRearm = true) ∨
       (h.word = 0x00000004 ∧ s.regs.mode ∈ [Mode.unconfigured, .searchingWakeup, .decodingRelease] ∧
         t.regs.mode = .stopped) ∨
       (s.regs.mode ∈ [Mode.unconfigured, .searchingWakeup, .decodingRelease] ∧ t.regs.mode = .faulted ∧
         t.regs.fault ≠ .none))

/-- R147: in the terminal modes every command but RESET and STATUS is ignored. That the result port then holds no
record is the model's choice (log entry 4): R66 says that it carries one after STATUS. -/
def Obligations.IgnoredCommands : Prop :=
  ∀ (s : State) (i : Instr), s.regs.mode ∈ [Mode.released, .stopped, .faulted] → i ≠ .reset → i ≠ .status →
    ∃ t : State,
      exec i s = .next t ∧
      t = { s with regs := { s.regs with last := { Last.clear with evIgnored := true } },
                   result := { word := statusWord t.regs, record := none } }

/-! ### Faults (60_exceptions.md) -/

/-- R153, R157: the six causes, each with exactly its condition, which are exclusive. -/
def Obligations.FaultCauses : Prop :=
  ∀ (s t : State) (h : HostCommand) (rest : List HostCommand),
    Inv s → s.regs.mode ≠ .faulted → s.host = h :: rest → step s = .next t →
      (t.regs.fault = .illegalCommand ↔
        (∀ i, decode h.word ≠ .ok i) ∧
          s.regs.mode ∈ [Mode.unconfigured, .searchingWakeup, .decodingRelease]) ∧
      (t.regs.fault = .notConfigured ↔ decode h.word = .ok .step ∧ s.regs.mode = .unconfigured) ∧
      (t.regs.fault = .configNotFound ↔
        decode h.word = .ok .configure ∧ s.regs.mode = .unconfigured ∧ h.cfgPort.lookupOk = false) ∧
      (t.regs.fault = .configInvalid ↔
        decode h.word = .ok .configure ∧ s.regs.mode = .unconfigured ∧ h.cfgPort.lookupOk = true ∧
          h.cfgPort.valid s.params = false) ∧
      (t.regs.fault = .chunkSize ↔
        decode h.word = .ok .step ∧ s.regs.mode ∈ [Mode.searchingWakeup, .decodingRelease] ∧
          ∃ c, s.regs.cfg = some c ∧ h.chunkPort.length ≠ c.c) ∧
      (t.regs.fault = .reconfigure ↔
        decode h.word = .ok .configure ∧ s.regs.mode ∈ [Mode.searchingWakeup, .decodingRelease])

/-- R156: a step that raises a fault changes nothing of the record but the fault entry's three fields. -/
def Obligations.FaultsArePrecise : Prop :=
  ∀ s t : State, step s = .next t → s.regs.mode ≠ .faulted → t.regs.mode = .faulted →
    t.regs = { s.regs with fault := t.regs.fault, mode := .faulted, last := Last.clear } ∧ t.regs.fault ≠ .none

/-- R151: no signal condition raises a fault. Two states that agree on the mode, the fault, the configuration and the
length of the chunk, whatever else their samples, detections and bits are, fault alike. -/
def Obligations.NoSignalFault : Prop :=
  ∀ (i : Instr) (s s' t t' : State),
    s'.params = s.params → s'.cfgPort = s.cfgPort → s'.chunkPort.length = s.chunkPort.length →
    s'.regs.mode = s.regs.mode → s'.regs.fault = s.regs.fault → s'.regs.cfg = s.regs.cfg →
    exec i s = .next t → exec i s' = .next t' →
      (t'.regs.mode = .faulted ↔ t.regs.mode = .faulted) ∧ t'.regs.fault = t.regs.fault

/-! ### CONFIGURE (45_controller.md R138, R139) -/

/-- R139: what a valid record is, check by check, V1 to V8 in order. The record's reals are any real numbers (log entry
2). -/
def Obligations.ConfigurationValidity : Prop :=
  ∀ (p : Params) (r : ConfigRecord),
    r.valid p = true ↔
      0 < r.fs.toReal ∧ (1 ≤ r.n ∧ r.n ≤ p.nMax) ∧ (1 ≤ r.c ∧ r.c ≤ r.n) ∧
      (1 ≤ r.wakeFreqs.length ∧ r.wakeFreqs.length ≤ 255) ∧ (1 ≤ r.expected.length ∧ r.expected.length ≤ 255) ∧
      1 ≤ realRound (r.pw.toReal * r.fs.toReal / r.c) ∧ 0 ≤ r.pri.toReal ∧
      realBin r.fs.toReal r.n (r.fc.toReal + 4 * r.fs.toReal / r.n) ≠
        realBin r.fs.toReal r.n (r.fc.toReal - 4 * r.fs.toReal / r.n)

/-- R138: CONFIGURE answers a next state in every state, by the first check that fails; an accepted record fills the
configuration registers and clears the rest. That the result port then holds no record is the model's choice (log entry
4): R66 says that it carries one after STATUS. -/
def Obligations.ConfigureCommand : Prop :=
  ∀ s : State, let fs := s.cfgPort.fs.toReal; ∃ t : State,
    exec .configure s = .next t ∧
    t = { s with regs := t.regs, result := { word := statusWord t.regs, record := none } } ∧
    t.regs =
      if s.regs.mode = .released ∨ s.regs.mode = .stopped ∨ s.regs.mode = .faulted then
        { s.regs with last := { Last.clear with evIgnored := true } }
      else if s.regs.mode ≠ .unconfigured then
        { s.regs with fault := .reconfigure, mode := .faulted, last := Last.clear }
      else if s.cfgPort.lookupOk = false then
        { s.regs with fault := .configNotFound, mode := .faulted, last := Last.clear }
      else if s.cfgPort.valid s.params = false then
        { s.regs with fault := .configInvalid, mode := .faulted, last := Last.clear }
      else
        { s.regs with
          cfg := some {
            fs := s.cfgPort.fs, n := s.cfgPort.n, c := s.cfgPort.c, fc := s.cfgPort.fc, fShift := s.cfgPort.fShift,
            pw := s.cfgPort.pw, pri := s.cfgPort.pri, thetaW := s.cfgPort.thetaW, thetaR := s.cfgPort.thetaR,
            wakeFreqs := s.cfgPort.wakeFreqs, expected := s.cfgPort.expected, rxId := s.cfgPort.rxId,
            nw := s.cfgPort.wakeFreqs.length,
            wakeBin := s.cfgPort.wakeFreqs.map fun f => realBin fs s.cfgPort.n f.toReal,
            binHi := realBin fs s.cfgPort.n (s.cfgPort.fc.toReal + 4 * fs / s.cfgPort.n),
            binLo := realBin fs s.cfgPort.n (s.cfgPort.fc.toReal - 4 * fs / s.cfgPort.n),
            l := s.cfgPort.expected.length,
            w := (realRound (s.cfgPort.pw.toReal * fs / s.cfgPort.c)).toNat,
            p := (realRound ((s.cfgPort.pw.toReal + s.cfgPort.pri.toReal) * fs / s.cfgPort.c)).toNat },
          ring := [], wp := 0,
          flag := List.replicate s.cfgPort.wakeFreqs.length false,
          time := List.replicate s.cfgPort.wakeFreqs.length none,
          pos := 0, acc := 0, k := 0, nbits := 0, msg := [], mode := .searchingWakeup, last := Last.clear }

/-- The derived registers of an accepted record lie where R17 says: every bin below `N`, `1 ≤ W ≤ P`, and `W` and `P`
are the rounded values themselves. -/
def Obligations.DerivedRegistersInRange : Prop :=
  ∀ (p : Params) (r : ConfigRecord), r.valid p = true →
    1 ≤ r.toCfg.w ∧ r.toCfg.w ≤ r.toCfg.p ∧
    (r.toCfg.w : Int) = realRound (r.pw.toReal * r.fs.toReal / r.c) ∧
    (r.toCfg.p : Int) = realRound ((r.pw.toReal + r.pri.toReal) * r.fs.toReal / r.c) ∧
    r.toCfg.binHi < r.n ∧ r.toCfg.binLo < r.n ∧
    r.toCfg.wakeBin.length = r.toCfg.nw ∧ (∀ b ∈ r.toCfg.wakeBin, b < r.n) ∧ 0 < r.pw.toReal

/-- R18: only an accepted CONFIGURE and RESET write a configuration register. -/
def Obligations.ConfigurationIsReadOnly : Prop :=
  ∀ s t : State, step s = .next t →
    t.regs.cfg = s.regs.cfg ∨
    ∃ (h : HostCommand) (rest : List HostCommand), s.host = h :: rest ∧
      ((decode h.word = .ok .reset ∧ t.regs.cfg = none) ∨
       (decode h.word = .ok .configure ∧ s.regs.mode = .unconfigured ∧ t.regs.mode = .searchingWakeup))

/-! ### Operand arithmetic (00_scope.md R10, 41_tone_detector.md section 1) -/

/-- `round` of R10: the nearest integer, and the even one when two are nearest. A formula over the configuration's
reals is any real number (log entry 2). -/
def Obligations.RoundHalfEven : Prop :=
  ∀ x : RealExpr,
    |x.toReal - roundHalfEven x| ≤ 1 / 2 ∧ (|x.toReal - roundHalfEven x| = 1 / 2 → roundHalfEven x % 2 = 0)

/-- R88: the normalised frequency lies in `[0, fs)`, differs from `f` by a whole multiple of `fs`, and is the document's
folding of a negative frequency where that reaches. -/
def Obligations.NormalisedFrequency : Prop :=
  ∀ fs f : RealExpr, 0 < fs.toReal →
    0 ≤ (normFreq fs f).toReal ∧ (normFreq fs f).toReal < fs.toReal ∧
    (∃ z : Int, (normFreq fs f).toReal = f.toReal - z * fs.toReal) ∧
    (-fs.toReal ≤ f.toReal → f.toReal < 0 → (normFreq fs f).toReal = f.toReal + fs.toReal) ∧
    (0 ≤ f.toReal → f.toReal < fs.toReal → (normFreq fs f).toReal = f.toReal)

/-- R89: the rounded index lies in `[0, N]`, is `N` exactly from `N − 1/2` on (at that tie only for an even `N`), and
bin `N` is bin 0. -/
def Obligations.BinIndex : Prop :=
  ∀ (fs f : RealExpr) (n : Nat), 0 < fs.toReal → 0 < n →
    let q := (normFreq fs f).toReal * n / fs.toReal
    0 ≤ realRound q ∧ realRound q ≤ n ∧
    (binIndex fs n f : Int) = (if realRound q = n then 0 else realRound q) ∧
    (realRound q = n ↔ (n : ℝ) - 1 / 2 < q ∨ (q = (n : ℝ) - 1 / 2 ∧ n % 2 = 0))

/-- R91: where the carrier falls on a bin `b`, the release bins are four above and four below it, around the circle. -/
def Obligations.ReleaseBinsFourApart : Prop :=
  ∀ (r : ConfigRecord) (b : Int), 0 < r.fs.toReal → 0 < r.n → r.fc.toReal * r.n / r.fs.toReal = b →
    (r.toCfg.binHi : Int) = (b + 4) % r.n ∧ (r.toCfg.binLo : Int) = (b - 4) % r.n

/-! ### The sample buffer (40_sample_buffer.md) -/

/-- R80: PUSH stores the chunk at the write pointer, moves the pointer past it, and touches nothing else. -/
def Obligations.PushWritesChunk : Prop :=
  ∀ (n : Nat) (chunk : List Sample) (S : Regs), S.ring.wf → 1 ≤ chunk.length → chunk.length ≤ n →
    RingTakes n chunk S (push n chunk S) ∧ (push n chunk S).ring.wf ∧
    push n chunk S = { S with ring := (push n chunk S).ring, wp := (push n chunk S).wp }

/-- R82: on the window, PUSH is the document's shift. -/
def Obligations.PushShiftsWindow : Prop :=
  ∀ (n : Nat) (chunk : List Sample) (S : Regs), S.ring.wf → 0 < n → chunk.length ≤ n →
    window n (push n chunk S) = (window n S).drop chunk.length ++ chunk

/-- R83: after pushes of at least `N` samples in all, the window is the last `N` of them in arrival order; before that, it
is zeros and then all of them (R84). From a ring as RESET and CONFIGURE leave it. -/
def Obligations.WindowHoldsMostRecent : Prop :=
  ∀ (n : Nat) (chunks : List (List Sample)) (S : Regs), 0 < n → S.ring = [] → S.wp = 0 →
    (∀ ch ∈ chunks, 1 ≤ ch.length ∧ ch.length ≤ n) →
      let S' := chunks.foldl (fun T ch => push n ch T) S
      (n ≤ chunks.flatten.length → window n S' = chunks.flatten.drop (chunks.flatten.length - n)) ∧
      (chunks.flatten.length ≤ n →
        window n S' = List.replicate (n - chunks.flatten.length) 0 ++ chunks.flatten)

/-- R87, R53: a STEP takes its chunk whole in an accepted cycle, whatever the phase does, and otherwise leaves the ring
and the pointer as they were. -/
def Obligations.StepTakesChunkWholeOrNot : Prop :=
  ∀ s t : State, Inv s → exec .step s = .next t →
    (∃ c m, CycleReady s c m ∧ (m = .searchingWakeup ∨ m = .decodingRelease) ∧
      RingTakes c.n s.chunkPort s.regs t.regs ∧
      window c.n t.regs = (window c.n s.regs).drop c.c ++ s.chunkPort) ∨
    ((∀ c m, CycleReady s c m → m ≠ .searchingWakeup ∧ m ≠ .decodingRelease) ∧
      t.regs.wp = s.regs.wp ∧ ∀ a, t.regs.ring.read a = s.regs.ring.read a)

/-! ### The tone detector (41_tone_detector.md) -/

/-- R96: when the magnitudes do not spread, every one is the mean and nothing is detected, whatever the threshold:
silence and an impulse among them. A threshold is any real (log entry 2), verdicts are
exact (log entry 3). -/
def Obligations.FlatSpectrumDetectsNothing : Prop :=
  (∀ x : List Int, stdDev x = 0 →
    (∀ k, magnitude x k = mean x) ∧
    ∀ (bins : List Nat) (θ : RealNum), detectValues x bins θ = List.replicate bins.length false) ∧
  (∀ (n i : Nat) (v : Int), i < n →
    (∀ k, magnitude ((List.replicate n 0).set i v) k = |(v : ℝ)|) ∧
    ∀ (bins : List Nat) (θ : RealNum),
      detectValues ((List.replicate n 0).set i v) bins θ = List.replicate bins.length false)

/-- R97: the comparison is strict; with a negative threshold a bin at the mean is detected; from `√(N − 1)` on, no bin
ever is. A threshold is any real (log entry 2), verdicts are
exact (log entry 3). -/
def Obligations.ThresholdIsStrict : Prop :=
  ∀ (x : List Int) (b : Nat) (θ : RealNum), 0 < x.length →
    (magnitude x b - mean x = θ.toReal * stdDev x → detectValues x [b] θ = [false]) ∧
    (θ.toReal < 0 → 0 < stdDev x → magnitude x b = mean x → detectValues x [b] θ = [true]) ∧
    (√((x.length : ℝ) - 1) ≤ θ.toReal → detectValues x [b] θ = [false])

/-- R99: scaling the window by a real `a ≠ 0` scales magnitudes, mean and deviation by `|a|` and changes no verdict.
A threshold is any real (log entry 2), verdicts are
exact (log entry 3). -/
def Obligations.LevelDoesNotMatter : Prop :=
  ∀ (x y : List Int) (a : ℝ), a ≠ 0 → y.length = x.length →
    (∀ i < x.length, ((y.getD i 0 : Int) : ℝ) = a * ((x.getD i 0 : Int) : ℝ)) →
      (∀ k, magnitude y k = |a| * magnitude x k) ∧ mean y = |a| * mean x ∧ stdDev y = |a| * stdDev x ∧
      ∀ (bins : List Nat) (θ : RealNum), detectValues y bins θ = detectValues x bins θ

/-- R86: the ring in slot order is the window rotated, has the same magnitudes, and gives the same verdicts. Verdicts are
exact (log entry 3). -/
def Obligations.RingOrderDetectsAlike : Prop :=
  ∀ (n : Nat) (S : Regs), S.wp < n →
    let slots := (List.range n).map S.ring.read
    (∀ a < n, slots[a]? = (window n S)[(a + (n - S.wp)) % n]?) ∧
    (∀ k, magnitude (slots.map sampleValue) k = magnitude ((window n S).map sampleValue) k) ∧
    ∀ (bins : List Nat) (θ : RealNum), detectValues (slots.map sampleValue) bins θ = detect n S bins θ

/-- R93: the samples are real, so bins `k` and `N − k` have one magnitude and one verdict. Verdicts are exact
(log entry 3). -/
def Obligations.MirrorBinsAgree : Prop :=
  ∀ (x : List Int) (k : Nat) (θ : RealNum), k < x.length →
    magnitude x k = magnitude x ((x.length - k) % x.length) ∧
    detectValues x [k] θ = detectValues x [(x.length - k) % x.length] θ

/-- R100: with `j` equal bins and the rest 0, the mean, the deviation and the verdicts have a closed form.
A threshold is any real (log entry 2), verdicts are
exact (log entry 3). -/
def Obligations.EqualBinsClosedForm : Prop :=
  ∀ (x : List Int) (B : Finset Nat) (M : ℝ), B ⊆ Finset.range x.length → 1 ≤ B.card → B.card < x.length → 0 < M →
    (∀ k ∈ B, magnitude x k = M) → (∀ k < x.length, k ∉ B → magnitude x k = 0) →
      mean x = B.card * M / x.length ∧
      stdDev x = M * √(B.card * (x.length - B.card)) / x.length ∧
      ∀ (b : Nat) (θ : RealNum), b < x.length →
        (detectValues x [b] θ = [true] ↔
          θ.toReal < if b ∈ B then √((x.length - B.card) / B.card) else -√(B.card / (x.length - B.card)))

/-! ### STEP in `SEARCHING_WAKEUP` (42_wakeup.md) -/

/-- R102: one search cycle, whole. `time` is the vector of times after step 2: a tone that is not yet flagged and is
detected in the new window gets the new position, every other time stays. Then the stale reset, or the arming, or
neither. That the result port then holds no record is the model's choice (log entry 4): R66 says that it carries one
after STATUS. -/
def Obligations.SearchCycle : Prop :=
  ∀ (s : State) (c : Cfg), CycleReady s c .searchingWakeup →
    let x := windowAfter c s.regs [s.chunkPort]
    let pos := s.regs.pos + c.c
    let acquired := fun i => s.regs.flag.getD i false = false ∧ Detected x (c.wakeBin.getD i 0) c.thetaW.toReal
    ∃ (t : State) (time : List (Option Nat)),
      exec .step s = .next t ∧
      time.length = c.nw ∧
      (∀ i < c.nw, (acquired i → time.getD i none = some pos) ∧
        (¬acquired i → time.getD i none = s.regs.time.getD i none)) ∧
      (t.regs.last.evTone = true ↔ ∃ i < c.nw, acquired i) ∧
      CycleLeaves s c
        (if none ∈ time ∧ late s.params time pos = true then
          { s.regs with
            flag := List.replicate c.nw false, time := List.replicate c.nw none, pos := 0,
            last := { Last.clear with evTone := t.regs.last.evTone, evStale := true } }
        else
          { s.regs with
            flag := time.map Option.isSome, time := time, pos := pos,
            mode := if none ∈ time then .searchingWakeup else .decodingRelease,
            last := { Last.clear with evTone := t.regs.last.evTone } }) t

/-- R108: the last tone arrives after the window. The core arms, and its first decode cycle ends the attempt, with cause
`TIMEOUT` when that cycle does not end a period. -/
def Obligations.LastToneAfterTimeout : Prop :=
  ∀ (s : State) (c : Cfg) (t₀ : Nat) (r : ConfigRecord) (chunk : List Sample), CycleReady s c .searchingWakeup →
    some t₀ ∈ s.regs.time → s.params.tTimeout < s.regs.pos + c.c - t₀ →
    (∀ i < c.nw, s.regs.flag.getD i false = true ∨
      Detected (windowAfter c s.regs [s.chunkPort]) (c.wakeBin.getD i 0) c.thetaW.toReal) →
    chunk.length = c.c →
      ∃ t u : State, exec .step s = .next t ∧ t.regs.mode = .decodingRelease ∧
        exec .step { t with cfgPort := r, chunkPort := chunk } = .next u ∧ u.regs.mode ≠ .decodingRelease ∧
        (c.p ≠ 1 → u.regs.mode = .searchingWakeup ∧ u.regs.last.rearmCause = .timeout)

/-- R112: within an attempt flags are monotone. A step unsets a flag only by a stale reset, a rearm, a release or a
RESET, and a step that leaves the core armed in `DECODING_RELEASE` has every tone's flag set. -/
def Obligations.FlagsAreMonotone : Prop :=
  ∀ s t : State, Inv s → step s = .next t →
    ((∀ i, s.regs.flag.getD i false = true → t.regs.flag.getD i false = true) ∨
      t.regs.last.evStale = true ∨ t.regs.last.evRearm = true ∨ t.regs.last.evReleased = true ∨
      ∃ (h : HostCommand) (rest : List HostCommand), s.host = h :: rest ∧ decode h.word = .ok .reset) ∧
    (t.regs.mode = .decodingRelease → ∀ f ∈ t.regs.flag, f = true)

/-- R111: a constant added to the position and to every recorded time changes no outcome of any command: the same modes,
flags, decoder, message and status word, and the position and times still shifted, or cleared together. -/
def Obligations.PositionOriginDoesNotMatter : Prop :=
  ∀ (i : Instr) (s s' t : State) (d : Nat),
    s' = { s with regs := s'.regs } → ShiftedBy d s.regs s'.regs → exec i s = .next t →
      ∃ (t' : State) (d' : Nat), exec i s' = .next t' ∧ (d' = d ∨ (d' = 0 ∧ ∀ u, some u ∉ t.regs.time)) ∧
        ShiftedBy d' t.regs t'.regs ∧ t'.result.word = t.result.word

/-! ### STEP in `DECODING_RELEASE` (43_symbol_decoder.md, 44_message_verifier.md) -/

/-- R114, R115, R120: a decode cycle inside a period. It counts the position, adds the symbol while `k < W`, and emits
no bit; the global timeout rearms. That the result port then holds no record is the model's choice (log entry 4): R66
says that it carries one after STATUS. -/
def Obligations.DecodeInsidePeriod : Prop :=
  ∀ (s : State) (c : Cfg) (sym : Int), CycleReady s c .decodingRelease →
    IsSymbol (windowAfter c s.regs [s.chunkPort]) c sym → s.regs.k + 1 ≠ c.p →
      ∃ t : State, exec .step s = .next t ∧
        CycleLeaves s c
          (if late s.params s.regs.time (s.regs.pos + c.c) = true then
            rearmed c .timeout { Last.clear with evEoc := true } s.regs
          else
            { s.regs with pos := s.regs.pos + c.c, acc := sumAfter c s.regs sym, k := s.regs.k + 1,
                          last := Last.clear }) t

/-- R118: a sum of 0 at the end of a period decides no bit; it asserts end_of_cycle and rearms with cause `TIE`. That
the result port then holds no record is the model's choice (log entry 4): R66 says that it carries one after STATUS. -/
def Obligations.TieRearms : Prop :=
  ∀ (s : State) (c : Cfg) (sym : Int), CycleReady s c .decodingRelease →
    IsSymbol (windowAfter c s.regs [s.chunkPort]) c sym → s.regs.k + 1 = c.p → sumAfter c s.regs sym = 0 →
      ∃ t : State, exec .step s = .next t ∧
        CycleLeaves s c (rearmed c .tie { Last.clear with evEoc := true } s.regs) t

/-- R117, R132, R143: the sign of the sum decides the bit, and a bit that completes the expected sequence releases,
even in the cycle in which the timeout expires. The message, its count and the cleared decoder are kept. That the
result port then holds no record is the model's choice (log entry 4): R66 says that it carries one after STATUS. -/
def Obligations.MatchReleases : Prop :=
  ∀ (s : State) (c : Cfg) (sym : Int) (b : Bit), CycleReady s c .decodingRelease →
    IsSymbol (windowAfter c s.regs [s.chunkPort]) c sym → s.regs.k + 1 = c.p → sumAfter c s.regs sym ≠ 0 →
    b = (if 0 < sumAfter c s.regs sym then .one else .zero) → s.regs.msg ++ [b] = c.expected →
      ∃ t : State, exec .step s = .next t ∧
        CycleLeaves s c
          { s.regs with
            flag := List.replicate c.nw false, time := List.replicate c.nw none, pos := 0,
            acc := 0, k := 0, nbits := c.l, msg := c.expected, mode := .released,
            last := { Last.clear with evBitValid := true, evBit := b, evEoc := true, evReleased := true } } t

/-- R129, R130, R131: a bit after which the message is no prefix of the expected one rearms with cause `MISMATCH`, at
any length with `PREFIX_REARM`, at full length without. That the result port then holds no record is the model's choice
(log entry 4): R66 says that it carries one after STATUS. -/
def Obligations.MismatchRearms : Prop :=
  ∀ (s : State) (c : Cfg) (sym : Int) (b : Bit), CycleReady s c .decodingRelease →
    IsSymbol (windowAfter c s.regs [s.chunkPort]) c sym → s.regs.k + 1 = c.p → sumAfter c s.regs sym ≠ 0 →
    b = (if 0 < sumAfter c s.regs sym then .one else .zero) → ¬s.regs.msg ++ [b] <+: c.expected →
    (s.params.prefixRearm = true ∨ s.regs.nbits + 1 = c.l) →
      ∃ t : State, exec .step s = .next t ∧
        CycleLeaves s c
          (rearmed c .mismatch
            { Last.clear with
              evBitValid := true, evBit := b,
              evEoc := decide (s.regs.nbits + 1 = c.l) || late s.params s.regs.time (s.regs.pos + c.c) } s.regs) t

/-- R114, R126, R130: a bit that ends no attempt by its value. The timeout rearms with cause `TIMEOUT`; otherwise the
bit is appended and counted, and the next period begins. That the result port then holds no record is the model's
choice (log entry 4): R66 says that it carries one after STATUS. -/
def Obligations.BitIsAppended : Prop :=
  ∀ (s : State) (c : Cfg) (sym : Int) (b : Bit), CycleReady s c .decodingRelease →
    IsSymbol (windowAfter c s.regs [s.chunkPort]) c sym → s.regs.k + 1 = c.p → sumAfter c s.regs sym ≠ 0 →
    b = (if 0 < sumAfter c s.regs sym then .one else .zero) → s.regs.nbits + 1 ≠ c.l →
    (s.regs.msg ++ [b] <+: c.expected ∨ s.params.prefixRearm = false) →
      ∃ t : State, exec .step s = .next t ∧
        CycleLeaves s c
          (if late s.params s.regs.time (s.regs.pos + c.c) = true then
            rearmed c .timeout { Last.clear with evBitValid := true, evBit := b, evEoc := true } s.regs
          else
            { s.regs with
              pos := s.regs.pos + c.c, acc := 0, k := 0, nbits := s.regs.nbits + 1, msg := s.regs.msg ++ [b],
              last := { Last.clear with evBitValid := true, evBit := b } }) t

/-- R124: the decoder gives back an encoded sequence, the `j`-th bit at the `(j+1)·P`-th cycle. -/
def Obligations.DecoderRoundTrip : Prop :=
  ∀ (p : Params) (c : Cfg) (S : Regs) (bits : List Bit), 1 ≤ c.w → c.w ≤ c.p → S.acc = 0 → S.k = 0 →
    decoderOutputs p c
        (bits.flatMap fun b => List.replicate c.w (bitSymbol b) ++ List.replicate (c.p - c.w) 0) S =
      bits.flatMap fun b => List.replicate (c.p - 1) [] ++ [[b]]

/-- The whole decode phase: from the first decode cycle of an attempt, `L·P` STEPs whose windows carry the expected
sequence's tones end in `RELEASED` with that message, if all but the last stay within `T_TIMEOUT` (R120, R124, R143). -/
def Obligations.CleanTransmissionReleases : Prop :=
  ∀ (s : State) (c : Cfg) (chunks : List (List Sample)),
    Inv s → s.regs.mode = .decodingRelease → s.regs.cfg = some c → s.regs.k = 0 → s.regs.nbits = 0 →
    s.host = chunks.map (stepCommand s.cfgPort) → chunks.length = c.l * c.p → (∀ ch ∈ chunks, ch.length = c.c) →
    (∀ j < c.l * c.p,
      IsSymbol (windowAfter c s.regs (chunks.take (j + 1))) c
        (if j % c.p < c.w then bitSymbol (c.expected.getD (j / c.p) .zero) else 0)) →
    (∀ t₀, some t₀ ∈ s.regs.time → s.regs.pos + (c.l * c.p - 1) * c.c ≤ t₀ + s.params.tTimeout) →
      ∃ t : State, core.run (c.l * c.p) s = .next t ∧ t.regs.mode = .released ∧ t.regs.msg = c.expected

/-! ### The verifier (44_message_verifier.md) -/

/-- R127, R128: the verdicts on an appended bit, and that no bit gives none. -/
def Obligations.VerifyVerdicts : Prop :=
  ∀ (p : Params) (c : Cfg) (bits : List Bit) (S : Regs), c.l = c.expected.length →
    (bits = [] → verify p c bits S = { isMatch := false, isMismatch := false }) ∧
    (bits ≠ [] →
      ((verify p c bits S).isMatch = true ↔ S.msg = c.expected) ∧
      ((verify p c bits S).isMismatch = true ↔
        if p.prefixRearm = true then
          ¬(S.msg.length ≤ c.l ∧ ∀ j < S.msg.length, S.msg[j]? = c.expected[j]?)
        else S.msg.length = c.l ∧ S.msg ≠ c.expected)) ∧
    ¬((verify p c bits S).isMatch = true ∧ (verify p c bits S).isMismatch = true) ∧
    ((verify p c bits S).isMatch = true → S.msg.length = c.l)

/-- R129: both values of `PREFIX_REARM` release on the same bit streams, those that begin with the expected sequence. -/
def Obligations.EarlyRearmAcceptsTheSame : Prop :=
  ∀ (p : Params) (c : Cfg) (S : Regs) (stream : List Bit), c.l = c.expected.length → 1 ≤ c.l →
    attemptReleases { p with prefixRearm := true } c S [] stream =
      attemptReleases { p with prefixRearm := false } c S [] stream ∧
    (attemptReleases p c S [] stream = true ↔ c.expected <+: stream)

/-- R134: `RELEASED` is reached only from `DECODING_RELEASE` by a STEP that completes the expected sequence at full
length. -/
def Obligations.OnlyFullMatchReleases : Prop :=
  ∀ s t : State, Inv s → step s = .next t → t.regs.mode = .released → s.regs.mode ≠ .released →
    s.regs.mode = .decodingRelease ∧
    ∃ (c : Cfg) (b : Bit), s.regs.cfg = some c ∧ t.regs.msg = c.expected ∧ t.regs.msg = s.regs.msg ++ [b] ∧
      t.regs.nbits = c.l ∧ t.regs.last.evReleased = true ∧ t.regs.last.evBitValid = true ∧ t.regs.last.evBit = b

/-! ### STEP where no cycle runs, STOP and STATUS (45_controller.md) -/

/-- R140: STEP before its cycle. It is ignored in the terminal modes, and faults with `NOT_CONFIGURED`, then
`CHUNK_SIZE`. That the result port then holds no record is the model's choice (log entry 4): R66 says that it carries
one after STATUS. -/
def Obligations.StepTurnedAway : Prop :=
  ∀ s : State,
    (s.regs.mode ∈ [Mode.released, .stopped, .faulted] ∨ s.regs.mode = .unconfigured ∨
      (s.regs.mode ∈ [Mode.searchingWakeup, .decodingRelease] ∧
        ∃ c, s.regs.cfg = some c ∧ s.chunkPort.length ≠ c.c)) →
      ∃ t : State, exec .step s = .next t ∧
        t = { s with regs := t.regs, result := { word := statusWord t.regs, record := none } } ∧
        t.regs =
          (if s.regs.mode ∈ [Mode.released, .stopped, .faulted] then
            { s.regs with last := { Last.clear with evIgnored := true } }
          else if s.regs.mode = .unconfigured then
            { s.regs with fault := .notConfigured, mode := .faulted, last := Last.clear }
          else { s.regs with fault := .chunkSize, mode := .faulted, last := Last.clear })

/-- R144: STOP, in every mode. That the result port then holds no record is the model's choice (log entry 4): R66 says
that it carries one after STATUS. -/
def Obligations.StopCommand : Prop :=
  ∀ s : State, ∃ t : State,
    exec .stop s = .next t ∧
    t = { s with regs := t.regs, result := { word := statusWord t.regs, record := none } } ∧
    t.regs =
      if s.regs.mode = .released ∨ s.regs.mode = .stopped ∨ s.regs.mode = .faulted then
        { s.regs with last := { Last.clear with evIgnored := true } }
      else { s.regs with mode := .stopped, last := Last.clear }

/-- R145, R69: STATUS in every mode writes no register, and the result port carries the status word and the full
record. A second STATUS changes nothing (R54). R69 gives the empty window in `UNCONFIGURED`; that a core without a
configuration reports it in `STOPPED` and `FAULTED` too is the model's reading (log entry 8). -/
def Obligations.StatusCommand : Prop :=
  ∀ s : State, ∃ t : State,
    exec .status s = .next t ∧
    t = { s with result := {
      word := statusWord s.regs,
      record := some {
        status := statusWord s.regs, mode := s.regs.mode, fault := s.regs.fault, cfg := s.regs.cfg,
        window := match s.regs.cfg with
          | none => []
          | some c => (List.range c.n).map fun i => s.regs.ring.read ((s.regs.wp + i) % c.n),
        flag := s.regs.flag, time := s.regs.time, pos := s.regs.pos,
        armed := armed s.regs, nFlagged := nFlagged s.regs, earliest := earliest s.regs,
        acc := s.regs.acc, k := s.regs.k, nbits := s.regs.nbits, msg := s.regs.msg, last := s.regs.last } } } ∧
    exec .status t = .next t

/-! ### The status word (30_encoding.md R70 to R73) and the derived flags -/

/-- R70: every command returns the status word of the record it leaves; its fields in a legal record. The counts do not
overflow their 8 bits, and `RCAUSE` is nonzero exactly when REARM ran. -/
def Obligations.StatusWordFields : Prop :=
  (∀ (i : Instr) (s t : State), exec i s = .next t → t.result.word = statusWord t.regs) ∧
  ∀ (p : Params) (S : Regs), RegsLegal p S →
    (statusWord S).extractLsb' 0 3 = S.mode.code ∧
    (statusWord S).extractLsb' 3 3 = S.fault.code ∧
    (statusWord S).extractLsb' 6 2 = S.last.rearmCause.code ∧
    ((statusWord S).extractLsb' 6 2 ≠ 0 ↔ S.last.evRearm = true) ∧
    (statusWord S).getLsbD 8 = armed S ∧
    (statusWord S).getLsbD 9 = S.last.evTone ∧
    (statusWord S).getLsbD 10 = S.last.evStale ∧
    (statusWord S).getLsbD 11 = S.last.evBitValid ∧
    ((statusWord S).getLsbD 12 = true ↔ S.last.evBit = .one) ∧
    (statusWord S).getLsbD 13 = S.last.evEoc ∧
    (statusWord S).getLsbD 14 = S.last.evReleased ∧
    (statusWord S).getLsbD 15 = S.last.evIgnored ∧
    ((statusWord S).extractLsb' 16 8).toNat = nFlagged S ∧
    ((statusWord S).extractLsb' 24 8).toNat = S.nbits

/-- R71, R72, R73: the codes, and that `MODE` 6 and 7 and `FAULT` 7 are never produced. -/
def Obligations.StatusCodes : Prop :=
  ∀ S : Regs,
    let mode := ((statusWord S).extractLsb' 0 3).toNat
    let fault := ((statusWord S).extractLsb' 3 3).toNat
    let cause := ((statusWord S).extractLsb' 6 2).toNat
    (mode = 0 ↔ S.mode = .unconfigured) ∧ (mode = 1 ↔ S.mode = .searchingWakeup) ∧
    (mode = 2 ↔ S.mode = .decodingRelease) ∧ (mode = 3 ↔ S.mode = .released) ∧
    (mode = 4 ↔ S.mode = .stopped) ∧ (mode = 5 ↔ S.mode = .faulted) ∧ mode ≠ 6 ∧ mode ≠ 7 ∧
    (fault = 0 ↔ S.fault = .none) ∧ (fault = 1 ↔ S.fault = .illegalCommand) ∧
    (fault = 2 ↔ S.fault = .notConfigured) ∧ (fault = 3 ↔ S.fault = .configNotFound) ∧
    (fault = 4 ↔ S.fault = .configInvalid) ∧ (fault = 5 ↔ S.fault = .chunkSize) ∧
    (fault = 6 ↔ S.fault = .reconfigure) ∧ fault ≠ 7 ∧
    (cause = 0 ↔ S.last.rearmCause = .none) ∧ (cause = 1 ↔ S.last.rearmCause = .tie) ∧
    (cause = 2 ↔ S.last.rearmCause = .mismatch) ∧ (cause = 3 ↔ S.last.rearmCause = .timeout)

/-- R27, R28, R29: the three derived flags, in a record whose vectors are paired (R26). -/
def Obligations.DerivedFlags : Prop :=
  ∀ S : Regs, S.flag = S.time.map Option.isSome →
    (armed S = true ↔ 1 ≤ S.flag.length ∧ ∀ i < S.flag.length, S.flag.getD i false = true) ∧
    nFlagged S = ((Finset.range S.flag.length).filter fun i => S.flag.getD i false = true).card ∧
    (earliest S = none ↔ ∀ i, S.flag.getD i false = false) ∧
    ∀ t, earliest S = some t ↔ some t ∈ S.time ∧ ∀ u, some u ∈ S.time → t ≤ u

/-! ### What nothing reads -/

/-- R66: a command never reads a port it does not name: only CONFIGURE the configuration port, only STEP the chunk
port. -/
def Obligations.PortsReadOnlyByTheirCommand : Prop :=
  ∀ (i : Instr) (s t : State), exec i s = .next t →
    (i ≠ .configure → ∀ r, exec i { s with cfgPort := r } = .next { t with cfgPort := r }) ∧
    (i ≠ .step → ∀ chunk, exec i { s with chunkPort := chunk } = .next { t with chunkPort := chunk })

/-- R150: no command reads the last result to decide anything: with any other contents of it and of the result port, a
command other than STATUS leaves exactly the same state. That the old record on the result port leaves no trace is the
model's choice (log entry 4): after a command other than STATUS the port holds no record. -/
def Obligations.LastResultIsNeverRead : Prop :=
  ∀ (i : Instr) (s t : State) (l : Last) (r : ResultPort), i ≠ .status → exec i s = .next t →
    exec i { s with regs := { s.regs with last := l }, result := r } = .next t

/-- C1: `f_shift` is stored and no rule reads it: a command other than STATUS on a core with another `f_shift` does the
same, and keeps that `f_shift`. -/
def Obligations.FrequencyShiftIsNeverRead : Prop :=
  ∀ (i : Instr) (s t : State) (c : Cfg) (f : RealNum), i ≠ .status → i ≠ .reset → s.regs.mode ≠ .unconfigured →
    s.regs.cfg = some c → exec i s = .next t →
      exec i { s with regs := { s.regs with cfg := some { c with fShift := f } } } =
        .next { t with regs := { t.regs with cfg := some { c with fShift := f } } }

/-- R23: two states with equal windows are indistinguishable: every command gives equal results and states with equal
windows again. -/
def Obligations.RingIsHiddenBehindWindow : Prop :=
  ∀ (i : Instr) (s s' t : State),
    s' = { s with regs := s'.regs } → SameWindow s.regs s'.regs → exec i s = .next t →
      ∃ t' : State, exec i s' = .next t' ∧ t' = { t with regs := t'.regs } ∧ SameWindow t.regs t'.regs

end
end

