-- ==== Sys2Proof/Laws/State.lean ====
section
/-!
SUPPORT. What each shared operation leaves in each field of the record and of the state, one lemma per field.
-/
namespace Sys2Proof.Laws

open Sys2Proof.Machine

/-! ### raiseFault -/

@[simp] theorem raiseFault_cfg (c : FaultCause) (S : Regs) : (raiseFault c S).cfg = S.cfg := rfl
@[simp] theorem raiseFault_mode (c : FaultCause) (S : Regs) : (raiseFault c S).mode = .faulted := rfl
@[simp] theorem raiseFault_fault (c : FaultCause) (S : Regs) : (raiseFault c S).fault = c := rfl
@[simp] theorem raiseFault_ring (c : FaultCause) (S : Regs) : (raiseFault c S).ring = S.ring := rfl
@[simp] theorem raiseFault_wp (c : FaultCause) (S : Regs) : (raiseFault c S).wp = S.wp := rfl
@[simp] theorem raiseFault_flag (c : FaultCause) (S : Regs) : (raiseFault c S).flag = S.flag := rfl
@[simp] theorem raiseFault_time (c : FaultCause) (S : Regs) : (raiseFault c S).time = S.time := rfl
@[simp] theorem raiseFault_pos (c : FaultCause) (S : Regs) : (raiseFault c S).pos = S.pos := rfl
@[simp] theorem raiseFault_acc (c : FaultCause) (S : Regs) : (raiseFault c S).acc = S.acc := rfl
@[simp] theorem raiseFault_k (c : FaultCause) (S : Regs) : (raiseFault c S).k = S.k := rfl
@[simp] theorem raiseFault_nbits (c : FaultCause) (S : Regs) : (raiseFault c S).nbits = S.nbits := rfl
@[simp] theorem raiseFault_msg (c : FaultCause) (S : Regs) : (raiseFault c S).msg = S.msg := rfl
@[simp] theorem raiseFault_last (c : FaultCause) (S : Regs) : (raiseFault c S).last = Last.clear := rfl

/-! ### ignoreCommand -/

@[simp] theorem ignoreCommand_cfg (S : Regs) : (ignoreCommand S).cfg = S.cfg := rfl
@[simp] theorem ignoreCommand_mode (S : Regs) : (ignoreCommand S).mode = S.mode := rfl
@[simp] theorem ignoreCommand_fault (S : Regs) : (ignoreCommand S).fault = S.fault := rfl
@[simp] theorem ignoreCommand_ring (S : Regs) : (ignoreCommand S).ring = S.ring := rfl
@[simp] theorem ignoreCommand_wp (S : Regs) : (ignoreCommand S).wp = S.wp := rfl
@[simp] theorem ignoreCommand_flag (S : Regs) : (ignoreCommand S).flag = S.flag := rfl
@[simp] theorem ignoreCommand_time (S : Regs) : (ignoreCommand S).time = S.time := rfl
@[simp] theorem ignoreCommand_pos (S : Regs) : (ignoreCommand S).pos = S.pos := rfl
@[simp] theorem ignoreCommand_acc (S : Regs) : (ignoreCommand S).acc = S.acc := rfl
@[simp] theorem ignoreCommand_k (S : Regs) : (ignoreCommand S).k = S.k := rfl
@[simp] theorem ignoreCommand_nbits (S : Regs) : (ignoreCommand S).nbits = S.nbits := rfl
@[simp] theorem ignoreCommand_msg (S : Regs) : (ignoreCommand S).msg = S.msg := rfl
@[simp] theorem ignoreCommand_last (S : Regs) : (ignoreCommand S).last = { Last.clear with evIgnored := true } := rfl

/-! ### clearLast -/

@[simp] theorem clearLast_cfg (S : Regs) : (clearLast S).cfg = S.cfg := rfl
@[simp] theorem clearLast_mode (S : Regs) : (clearLast S).mode = S.mode := rfl
@[simp] theorem clearLast_fault (S : Regs) : (clearLast S).fault = S.fault := rfl
@[simp] theorem clearLast_ring (S : Regs) : (clearLast S).ring = S.ring := rfl
@[simp] theorem clearLast_wp (S : Regs) : (clearLast S).wp = S.wp := rfl
@[simp] theorem clearLast_flag (S : Regs) : (clearLast S).flag = S.flag := rfl
@[simp] theorem clearLast_time (S : Regs) : (clearLast S).time = S.time := rfl
@[simp] theorem clearLast_pos (S : Regs) : (clearLast S).pos = S.pos := rfl
@[simp] theorem clearLast_acc (S : Regs) : (clearLast S).acc = S.acc := rfl
@[simp] theorem clearLast_k (S : Regs) : (clearLast S).k = S.k := rfl
@[simp] theorem clearLast_nbits (S : Regs) : (clearLast S).nbits = S.nbits := rfl
@[simp] theorem clearLast_msg (S : Regs) : (clearLast S).msg = S.msg := rfl
@[simp] theorem clearLast_last (S : Regs) : (clearLast S).last = Last.clear := rfl

/-! ### push -/

@[simp] theorem push_cfg (n : Nat) (chunk : List Sample) (S : Regs) : (push n chunk S).cfg = S.cfg := rfl
@[simp] theorem push_mode (n : Nat) (chunk : List Sample) (S : Regs) : (push n chunk S).mode = S.mode := rfl
@[simp] theorem push_fault (n : Nat) (chunk : List Sample) (S : Regs) : (push n chunk S).fault = S.fault := rfl
@[simp] theorem push_ring (n : Nat) (chunk : List Sample) (S : Regs) : (push n chunk S).ring = pushSamples n S.wp 0 chunk S.ring := rfl
@[simp] theorem push_wp (n : Nat) (chunk : List Sample) (S : Regs) : (push n chunk S).wp = (S.wp + chunk.length) % n := rfl
@[simp] theorem push_flag (n : Nat) (chunk : List Sample) (S : Regs) : (push n chunk S).flag = S.flag := rfl
@[simp] theorem push_time (n : Nat) (chunk : List Sample) (S : Regs) : (push n chunk S).time = S.time := rfl
@[simp] theorem push_pos (n : Nat) (chunk : List Sample) (S : Regs) : (push n chunk S).pos = S.pos := rfl
@[simp] theorem push_acc (n : Nat) (chunk : List Sample) (S : Regs) : (push n chunk S).acc = S.acc := rfl
@[simp] theorem push_k (n : Nat) (chunk : List Sample) (S : Regs) : (push n chunk S).k = S.k := rfl
@[simp] theorem push_nbits (n : Nat) (chunk : List Sample) (S : Regs) : (push n chunk S).nbits = S.nbits := rfl
@[simp] theorem push_msg (n : Nat) (chunk : List Sample) (S : Regs) : (push n chunk S).msg = S.msg := rfl
@[simp] theorem push_last (n : Nat) (chunk : List Sample) (S : Regs) : (push n chunk S).last = S.last := rfl

/-! ### takeChunk -/

@[simp] theorem takeChunk_cfg (c : Cfg) (chunk : List Sample) (S : Regs) : (takeChunk c chunk S).cfg = S.cfg := rfl
@[simp] theorem takeChunk_mode (c : Cfg) (chunk : List Sample) (S : Regs) : (takeChunk c chunk S).mode = S.mode := rfl
@[simp] theorem takeChunk_fault (c : Cfg) (chunk : List Sample) (S : Regs) : (takeChunk c chunk S).fault = S.fault := rfl
@[simp] theorem takeChunk_ring (c : Cfg) (chunk : List Sample) (S : Regs) : (takeChunk c chunk S).ring = pushSamples c.n S.wp 0 chunk S.ring := rfl
@[simp] theorem takeChunk_wp (c : Cfg) (chunk : List Sample) (S : Regs) : (takeChunk c chunk S).wp = (S.wp + chunk.length) % c.n := rfl
@[simp] theorem takeChunk_flag (c : Cfg) (chunk : List Sample) (S : Regs) : (takeChunk c chunk S).flag = S.flag := rfl
@[simp] theorem takeChunk_time (c : Cfg) (chunk : List Sample) (S : Regs) : (takeChunk c chunk S).time = S.time := rfl
@[simp] theorem takeChunk_pos (c : Cfg) (chunk : List Sample) (S : Regs) : (takeChunk c chunk S).pos = S.pos + c.c := rfl
@[simp] theorem takeChunk_acc (c : Cfg) (chunk : List Sample) (S : Regs) : (takeChunk c chunk S).acc = S.acc := rfl
@[simp] theorem takeChunk_k (c : Cfg) (chunk : List Sample) (S : Regs) : (takeChunk c chunk S).k = S.k := rfl
@[simp] theorem takeChunk_nbits (c : Cfg) (chunk : List Sample) (S : Regs) : (takeChunk c chunk S).nbits = S.nbits := rfl
@[simp] theorem takeChunk_msg (c : Cfg) (chunk : List Sample) (S : Regs) : (takeChunk c chunk S).msg = S.msg := rfl
@[simp] theorem takeChunk_last (c : Cfg) (chunk : List Sample) (S : Regs) : (takeChunk c chunk S).last = S.last := rfl

/-! ### acquire -/

@[simp] theorem acquire_cfg (d : List Bool) (S : Regs) : (acquire d S).cfg = S.cfg := rfl
@[simp] theorem acquire_mode (d : List Bool) (S : Regs) : (acquire d S).mode = S.mode := rfl
@[simp] theorem acquire_fault (d : List Bool) (S : Regs) : (acquire d S).fault = S.fault := rfl
@[simp] theorem acquire_ring (d : List Bool) (S : Regs) : (acquire d S).ring = S.ring := rfl
@[simp] theorem acquire_wp (d : List Bool) (S : Regs) : (acquire d S).wp = S.wp := rfl
@[simp] theorem acquire_flag (d : List Bool) (S : Regs) : (acquire d S).flag = acquireFlags S.flag d := rfl
@[simp] theorem acquire_time (d : List Bool) (S : Regs) : (acquire d S).time = acquireTimes S.pos S.flag S.time d := rfl
@[simp] theorem acquire_pos (d : List Bool) (S : Regs) : (acquire d S).pos = S.pos := rfl
@[simp] theorem acquire_acc (d : List Bool) (S : Regs) : (acquire d S).acc = S.acc := rfl
@[simp] theorem acquire_k (d : List Bool) (S : Regs) : (acquire d S).k = S.k := rfl
@[simp] theorem acquire_nbits (d : List Bool) (S : Regs) : (acquire d S).nbits = S.nbits := rfl
@[simp] theorem acquire_msg (d : List Bool) (S : Regs) : (acquire d S).msg = S.msg := rfl
@[simp] theorem acquire_last (d : List Bool) (S : Regs) : (acquire d S).last = { S.last with evTone := S.last.evTone || acquiresAny S.flag d } := rfl

/-! ### clearWakeUp -/

@[simp] theorem clearWakeUp_cfg (S : Regs) : (clearWakeUp S).cfg = S.cfg := rfl
@[simp] theorem clearWakeUp_mode (S : Regs) : (clearWakeUp S).mode = S.mode := rfl
@[simp] theorem clearWakeUp_fault (S : Regs) : (clearWakeUp S).fault = S.fault := rfl
@[simp] theorem clearWakeUp_ring (S : Regs) : (clearWakeUp S).ring = S.ring := rfl
@[simp] theorem clearWakeUp_wp (S : Regs) : (clearWakeUp S).wp = S.wp := rfl
@[simp] theorem clearWakeUp_flag (S : Regs) : (clearWakeUp S).flag = S.flag.map fun _ => false := rfl
@[simp] theorem clearWakeUp_time (S : Regs) : (clearWakeUp S).time = S.time.map fun _ => none := rfl
@[simp] theorem clearWakeUp_pos (S : Regs) : (clearWakeUp S).pos = 0 := rfl
@[simp] theorem clearWakeUp_acc (S : Regs) : (clearWakeUp S).acc = S.acc := rfl
@[simp] theorem clearWakeUp_k (S : Regs) : (clearWakeUp S).k = S.k := rfl
@[simp] theorem clearWakeUp_nbits (S : Regs) : (clearWakeUp S).nbits = S.nbits := rfl
@[simp] theorem clearWakeUp_msg (S : Regs) : (clearWakeUp S).msg = S.msg := rfl
@[simp] theorem clearWakeUp_last (S : Regs) : (clearWakeUp S).last = S.last := rfl

/-! ### staleReset -/

@[simp] theorem staleReset_cfg (S : Regs) : (staleReset S).cfg = S.cfg := rfl
@[simp] theorem staleReset_mode (S : Regs) : (staleReset S).mode = S.mode := rfl
@[simp] theorem staleReset_fault (S : Regs) : (staleReset S).fault = S.fault := rfl
@[simp] theorem staleReset_ring (S : Regs) : (staleReset S).ring = S.ring := rfl
@[simp] theorem staleReset_wp (S : Regs) : (staleReset S).wp = S.wp := rfl
@[simp] theorem staleReset_flag (S : Regs) : (staleReset S).flag = S.flag.map fun _ => false := rfl
@[simp] theorem staleReset_time (S : Regs) : (staleReset S).time = S.time.map fun _ => none := rfl
@[simp] theorem staleReset_pos (S : Regs) : (staleReset S).pos = 0 := rfl
@[simp] theorem staleReset_acc (S : Regs) : (staleReset S).acc = S.acc := rfl
@[simp] theorem staleReset_k (S : Regs) : (staleReset S).k = S.k := rfl
@[simp] theorem staleReset_nbits (S : Regs) : (staleReset S).nbits = S.nbits := rfl
@[simp] theorem staleReset_msg (S : Regs) : (staleReset S).msg = S.msg := rfl
@[simp] theorem staleReset_last (S : Regs) : (staleReset S).last = { S.last with evStale := true } := rfl

/-! ### append -/

@[simp] theorem append_cfg (bits : List Bit) (S : Regs) : (append bits S).cfg = S.cfg := rfl
@[simp] theorem append_mode (bits : List Bit) (S : Regs) : (append bits S).mode = S.mode := rfl
@[simp] theorem append_fault (bits : List Bit) (S : Regs) : (append bits S).fault = S.fault := rfl
@[simp] theorem append_ring (bits : List Bit) (S : Regs) : (append bits S).ring = S.ring := rfl
@[simp] theorem append_wp (bits : List Bit) (S : Regs) : (append bits S).wp = S.wp := rfl
@[simp] theorem append_flag (bits : List Bit) (S : Regs) : (append bits S).flag = S.flag := rfl
@[simp] theorem append_time (bits : List Bit) (S : Regs) : (append bits S).time = S.time := rfl
@[simp] theorem append_pos (bits : List Bit) (S : Regs) : (append bits S).pos = S.pos := rfl
@[simp] theorem append_acc (bits : List Bit) (S : Regs) : (append bits S).acc = S.acc := rfl
@[simp] theorem append_k (bits : List Bit) (S : Regs) : (append bits S).k = S.k := rfl
@[simp] theorem append_nbits (bits : List Bit) (S : Regs) : (append bits S).nbits = S.nbits := rfl
@[simp] theorem append_msg (bits : List Bit) (S : Regs) : (append bits S).msg = S.msg ++ bits := rfl
@[simp] theorem append_last (bits : List Bit) (S : Regs) : (append bits S).last = S.last := rfl

/-! ### rearm -/

@[simp] theorem rearm_cfg (cause : RearmCause) (S : Regs) : (rearm cause S).cfg = S.cfg := rfl
@[simp] theorem rearm_mode (cause : RearmCause) (S : Regs) : (rearm cause S).mode = .searchingWakeup := rfl
@[simp] theorem rearm_fault (cause : RearmCause) (S : Regs) : (rearm cause S).fault = S.fault := rfl
@[simp] theorem rearm_ring (cause : RearmCause) (S : Regs) : (rearm cause S).ring = S.ring := rfl
@[simp] theorem rearm_wp (cause : RearmCause) (S : Regs) : (rearm cause S).wp = S.wp := rfl
@[simp] theorem rearm_flag (cause : RearmCause) (S : Regs) : (rearm cause S).flag = S.flag.map fun _ => false := rfl
@[simp] theorem rearm_time (cause : RearmCause) (S : Regs) : (rearm cause S).time = S.time.map fun _ => none := rfl
@[simp] theorem rearm_pos (cause : RearmCause) (S : Regs) : (rearm cause S).pos = 0 := rfl
@[simp] theorem rearm_acc (cause : RearmCause) (S : Regs) : (rearm cause S).acc = 0 := rfl
@[simp] theorem rearm_k (cause : RearmCause) (S : Regs) : (rearm cause S).k = 0 := rfl
@[simp] theorem rearm_nbits (cause : RearmCause) (S : Regs) : (rearm cause S).nbits = 0 := rfl
@[simp] theorem rearm_msg (cause : RearmCause) (S : Regs) : (rearm cause S).msg = [] := rfl
@[simp] theorem rearm_last (cause : RearmCause) (S : Regs) : (rearm cause S).last = { S.last with evRearm := true, rearmCause := cause } := rfl

/-! ### release -/

@[simp] theorem release_cfg (S : Regs) : (release S).cfg = S.cfg := rfl
@[simp] theorem release_mode (S : Regs) : (release S).mode = .released := rfl
@[simp] theorem release_fault (S : Regs) : (release S).fault = S.fault := rfl
@[simp] theorem release_ring (S : Regs) : (release S).ring = S.ring := rfl
@[simp] theorem release_wp (S : Regs) : (release S).wp = S.wp := rfl
@[simp] theorem release_flag (S : Regs) : (release S).flag = S.flag.map fun _ => false := rfl
@[simp] theorem release_time (S : Regs) : (release S).time = S.time.map fun _ => none := rfl
@[simp] theorem release_pos (S : Regs) : (release S).pos = 0 := rfl
@[simp] theorem release_acc (S : Regs) : (release S).acc = S.acc := rfl
@[simp] theorem release_k (S : Regs) : (release S).k = S.k := rfl
@[simp] theorem release_nbits (S : Regs) : (release S).nbits = S.nbits := rfl
@[simp] theorem release_msg (S : Regs) : (release S).msg = S.msg := rfl
@[simp] theorem release_last (S : Regs) : (release S).last = { S.last with evReleased := true } := rfl

/-! ### configureWith -/

@[simp] theorem configureWith_cfg (r : ConfigRecord) (S : Regs) : (configureWith r S).cfg = some r.toCfg := rfl
@[simp] theorem configureWith_mode (r : ConfigRecord) (S : Regs) : (configureWith r S).mode = .searchingWakeup := rfl
@[simp] theorem configureWith_fault (r : ConfigRecord) (S : Regs) : (configureWith r S).fault = S.fault := rfl
@[simp] theorem configureWith_ring (r : ConfigRecord) (S : Regs) : (configureWith r S).ring = [] := rfl
@[simp] theorem configureWith_wp (r : ConfigRecord) (S : Regs) : (configureWith r S).wp = 0 := rfl
@[simp] theorem configureWith_flag (r : ConfigRecord) (S : Regs) : (configureWith r S).flag = List.replicate r.wakeFreqs.length false := rfl
@[simp] theorem configureWith_time (r : ConfigRecord) (S : Regs) : (configureWith r S).time = List.replicate r.wakeFreqs.length none := rfl
@[simp] theorem configureWith_pos (r : ConfigRecord) (S : Regs) : (configureWith r S).pos = 0 := rfl
@[simp] theorem configureWith_acc (r : ConfigRecord) (S : Regs) : (configureWith r S).acc = 0 := rfl
@[simp] theorem configureWith_k (r : ConfigRecord) (S : Regs) : (configureWith r S).k = 0 := rfl
@[simp] theorem configureWith_nbits (r : ConfigRecord) (S : Regs) : (configureWith r S).nbits = 0 := rfl
@[simp] theorem configureWith_msg (r : ConfigRecord) (S : Regs) : (configureWith r S).msg = [] := rfl
@[simp] theorem configureWith_last (r : ConfigRecord) (S : Regs) : (configureWith r S).last = Last.clear := rfl

/-! ### respond -/

@[simp] theorem respond_params (s : State) (S : Regs) : (s.respond S).params = s.params := rfl
@[simp] theorem respond_regs (s : State) (S : Regs) : (s.respond S).regs = S := rfl
@[simp] theorem respond_cfgPort (s : State) (S : Regs) : (s.respond S).cfgPort = s.cfgPort := rfl
@[simp] theorem respond_chunkPort (s : State) (S : Regs) : (s.respond S).chunkPort = s.chunkPort := rfl
@[simp] theorem respond_result (s : State) (S : Regs) : (s.respond S).result = { word := statusWord S, record := none } := rfl
@[simp] theorem respond_host (s : State) (S : Regs) : (s.respond S).host = s.host := rfl

/-! ### respondStatus -/

@[simp] theorem respondStatus_params (s : State) : (s.respondStatus).params = s.params := rfl
@[simp] theorem respondStatus_regs (s : State) : (s.respondStatus).regs = s.regs := rfl
@[simp] theorem respondStatus_cfgPort (s : State) : (s.respondStatus).cfgPort = s.cfgPort := rfl
@[simp] theorem respondStatus_chunkPort (s : State) : (s.respondStatus).chunkPort = s.chunkPort := rfl
@[simp] theorem respondStatus_result (s : State) : (s.respondStatus).result = { word := statusWord s.regs, record := some (resultRecord s.regs) } := rfl
@[simp] theorem respondStatus_host (s : State) : (s.respondStatus).host = s.host := rfl

/-! ### deliver -/

@[simp] theorem deliver_params (s : State) (c : HostCommand) (rest : List HostCommand) : (s.deliver c rest).params = s.params := rfl
@[simp] theorem deliver_regs (s : State) (c : HostCommand) (rest : List HostCommand) : (s.deliver c rest).regs = s.regs := rfl
@[simp] theorem deliver_cfgPort (s : State) (c : HostCommand) (rest : List HostCommand) : (s.deliver c rest).cfgPort = c.cfgPort := rfl
@[simp] theorem deliver_chunkPort (s : State) (c : HostCommand) (rest : List HostCommand) : (s.deliver c rest).chunkPort = c.chunkPort := rfl
@[simp] theorem deliver_result (s : State) (c : HostCommand) (rest : List HostCommand) : (s.deliver c rest).result = s.result := rfl
@[simp] theorem deliver_host (s : State) (c : HostCommand) (rest : List HostCommand) : (s.deliver c rest).host = rest := rfl

end Sys2Proof.Laws
end

