-- ==== Sys2Proof/Laws/MessageVerifier.lean ====
section
/-!
SUPPORT. The verifier: the prefix test, and the verdicts.
-/
namespace Sys2Proof.Laws

open Sys2Proof.Machine

theorem isPrefix_iff (as bs : List Bit) : isPrefix as bs = true ↔ as <+: bs := by
  induction as generalizing bs with
  | nil => simp [isPrefix]
  | cons a as ih => cases bs <;> simp [isPrefix, ih, List.cons_prefix_cons]

theorem verify_nil (p : Params) (c : Cfg) (S : Regs) :
    verify p c [] S = { isMatch := false, isMismatch := false } := rfl

theorem verify_isMatch_iff (p : Params) (c : Cfg) (bits : List Bit) (S : Regs) :
    (verify p c bits S).isMatch = true ↔ bits ≠ [] ∧ S.msg = c.expected := by
  cases bits <;> simp [verify]

/-- A match is no mismatch (R127). -/
theorem verify_isMismatch_of_isMatch (p : Params) (c : Cfg) (bits : List Bit) (S : Regs)
    (h : (verify p c bits S).isMatch = true) : (verify p c bits S).isMismatch = false := by
  obtain ⟨hb, hm⟩ := (verify_isMatch_iff p c bits S).mp h
  have : isPrefix c.expected c.expected = true := (isPrefix_iff _ _).mpr List.prefix_rfl
  cases bits with
  | nil => exact absurd rfl hb
  | cons b bits => cases hp : p.prefixRearm <;> simp [verify, mismatches, hp, hm, this]

/-- At full length, a message that is not the expected one is a mismatch under both values of `PREFIX_REARM` (R141). -/
theorem verify_full_length (p : Params) (c : Cfg) (bits : List Bit) (S : Regs) (hb : bits ≠ [])
    (hl : c.l = c.expected.length) (hlen : S.msg.length = c.l) (hne : S.msg ≠ c.expected) :
    (verify p c bits S).isMismatch = true := by
  have : isPrefix S.msg c.expected = false := by
    rw [Bool.eq_false_iff, Ne, isPrefix_iff]
    exact fun h => hne (h.eq_of_length (by omega))
  cases bits with
  | nil => exact absurd rfl hb
  | cons b bits => cases hp : p.prefixRearm <;> simp [verify, mismatches, hp, hlen, hne, this]

end Sys2Proof.Laws
end

