-- ==== Sys2Proof/Laws/SymbolDecoder.lean ====
section
/-!
SUPPORT. The decoder: the symbol, and what DECODE_STEP as a whole can do.
-/
namespace Sys2Proof.Laws

open Sys2Proof.Machine

theorem symbol_bounds (d : List Bool) : -1 ≤ symbol d ∧ symbol d ≤ 1 := by
  rw [symbol, detection, detection]
  split <;> split <;> omega

theorem length_decideBit (acc : Int) : (decideBit acc).length = if acc = 0 then 0 else 1 := by
  rw [decideBit]
  split_ifs <;> first | rfl | omega

theorem decideBit_isEmpty (acc : Int) : (decideBit acc).isEmpty = decide (acc = 0) := by
  rw [decideBit]
  split_ifs with h h'
  · exact (decide_eq_false h.ne').symm
  · exact (decide_eq_false h'.ne).symm
  · exact (decide_eq_true (by omega)).symm

/-- Everything DECODE_STEP can do: inside a period it counts, at the end of one it decides a bit or ties (R114). -/
theorem decodeStepWith_cases (p : Params) (c : Cfg) (sym : Int) (S : Regs) :
    (S.k + 1 ≠ c.p ∧
      decodeStepWith p c sym S =
        ({ S with acc := integrate c sym S, k := S.k + 1,
                  last := { S.last with evEoc := S.last.evEoc || (decide (S.nbits = c.l) || isTimeout p S) } },
         { eoc := decide (S.nbits = c.l) || isTimeout p S, bits := [], tie := false, timeout := isTimeout p S })) ∨
    (S.k + 1 = c.p ∧ integrate c sym S = 0 ∧
      decodeStepWith p c sym S =
        ({ S with acc := 0, k := 0, last := { S.last with evEoc := true } },
         { eoc := true, bits := [], tie := true, timeout := isTimeout p S })) ∨
    (S.k + 1 = c.p ∧ ∃ b : Bit, decideBit (integrate c sym S) = [b] ∧
      decodeStepWith p c sym S =
        ({ S with acc := 0, k := 0, nbits := S.nbits + 1,
                  last := { S.last with
                    evBitValid := true, evBit := b,
                    evEoc := S.last.evEoc || (decide (S.nbits + 1 = c.l) || isTimeout p S) } },
         { eoc := decide (S.nbits + 1 = c.l) || isTimeout p S, bits := [b], tie := false,
           timeout := isTimeout p S })) := by
  by_cases hk : S.k + 1 = c.p
  · right
    rcases lt_trichotomy (integrate c sym S) 0 with h | h | h
    · exact .inr ⟨hk, .zero, by rw [decideBit, if_neg (by omega), if_pos h],
        by simp [decodeStepWith, endsPeriod, hk, decideBit, h, not_lt_of_gt h, h.ne, shownBit]⟩
    · exact .inl ⟨hk, h, by simp [decodeStepWith, endsPeriod, hk, decideBit, h]⟩
    · exact .inr ⟨hk, .one, by rw [decideBit, if_pos h],
        by simp [decodeStepWith, endsPeriod, hk, decideBit, h, h.ne', shownBit]⟩
  · exact .inl ⟨hk, by simp [decodeStepWith, endsPeriod, hk]⟩

/-- DECODE_STEP writes nothing but the decoder's registers and the last result (R114, R125). -/
theorem decodeStepWith_frame (p : Params) (c : Cfg) (sym : Int) (S : Regs) :
    (decodeStepWith p c sym S).1 =
      { S with acc := (decodeStepWith p c sym S).1.acc, k := (decodeStepWith p c sym S).1.k,
               nbits := (decodeStepWith p c sym S).1.nbits, last := (decodeStepWith p c sym S).1.last } := rfl

/-- The accumulator grows by at most one a cycle (R36). -/
theorem natAbs_integrate_le (c : Cfg) (sym : Int) (S : Regs) (hs : -1 ≤ sym ∧ sym ≤ 1)
    (h : S.acc.natAbs ≤ min S.k c.w) : (integrate c sym S).natAbs ≤ min (S.k + 1) c.w := by
  rw [integrate]
  split <;> omega

end Sys2Proof.Laws
end

