-- ==== Sys2Proof/Laws/Detect.lean ====
section
/-!
SUPPORT. The machine's arithmetic over a configuration's reals is exact, and DETECT is the test of R95 over the real
numbers, for every window, every bin and every real threshold.
-/
namespace Sys2Proof.Laws

open Sys2Proof.Machine Sys2Proof.Safety

/-! ### Formulas -/

theorem exactReals_isExact : IsExact realValue exactReals.floor exactReals.exceeds := exactReals.exact.choose_spec

@[simp] theorem toReal_rat (q : Rat) : (RealNum.rat q).toReal = q := rfl

@[simp] theorem toReal_num (r : RealNum) : (RealExpr.num r).toReal = r.toReal := rfl

@[simp] theorem toReal_int (z : Int) : (RealExpr.int z).toReal = z := rfl

@[simp] theorem toReal_add (a b : RealExpr) : (RealExpr.add a b).toReal = a.toReal + b.toReal := rfl

@[simp] theorem toReal_sub (a b : RealExpr) : (RealExpr.sub a b).toReal = a.toReal - b.toReal := rfl

@[simp] theorem toReal_mul (a b : RealExpr) : (RealExpr.mul a b).toReal = a.toReal * b.toReal := rfl

@[simp] theorem toReal_div (a b : RealExpr) : (RealExpr.div a b).toReal = a.toReal / b.toReal := rfl

/-- The integer part is the integer part. -/
theorem floor_eq (e : RealExpr) : e.floor = ⌊e.toReal⌋ := by
  rw [RealExpr.floor]
  split
  · next h => rw [RealExpr.toReal, eval_of_isRational _ _ h]; exact (Rat.floor_cast e.ratValue).symm
  · exact exactReals_isExact.floor_eq e

@[simp] theorem lt_iff (a b : RealExpr) : a.lt b = true ↔ a.toReal < b.toReal := by
  rw [RealExpr.lt, decide_eq_true_iff, floor_eq, Int.floor_lt, toReal_sub, Int.cast_zero, sub_neg]

/-- The machine's `round` is the one of R10. -/
theorem roundHalfEven_eq (x : RealExpr) : roundHalfEven x = realRound x.toReal := by
  simp only [roundHalfEven, lt_iff, toReal_sub, toReal_int, toReal_num, toReal_rat, floor_eq, realRound]
  push_cast
  rfl

@[simp] theorem toReal_normFreq (fs f : RealExpr) : (normFreq fs f).toReal = realMod fs.toReal f.toReal := by
  simp [normFreq, realMod, floor_eq]

/-- The machine's bin is the one of R89. -/
theorem binIndex_eq (fs : RealExpr) (n : Nat) (f : RealExpr) : binIndex fs n f = realBin fs.toReal n f.toReal := by
  simp [binIndex, realBin, realIndex, roundHalfEven_eq]

/-- The machine's durations are those of R17. -/
theorem chunksOf_eq (fs : RealExpr) (c : Nat) (t : RealExpr) :
    chunksOf fs c t = realRound (t.toReal * fs.toReal / c) := by
  simp [chunksOf, inChunks, roundHalfEven_eq]

/-! ### DETECT -/

open Classical in
/-- DETECT answers, for each position of `bins`, the test of R95 over the real numbers (R93 to R98). -/
theorem detectValues_eq (x : List Int) (bins : List Nat) (θ : RealNum) :
    detectValues x bins θ = bins.map fun b => decide (Detected x b θ.toReal) := by
  cases θ with
  | rat q => exact detectRational_eq x bins q
  | named i =>
    refine List.map_congr_left fun b _ => ?_
    rw [Bool.eq_iff_iff, decide_eq_true_iff]
    exact exactReals_isExact.exceeds_iff x b i

@[simp] theorem length_detectValues (x : List Int) (bins : List Nat) (θ : RealNum) :
    (detectValues x bins θ).length = bins.length := by
  classical
  rw [detectValues_eq, List.length_map]

@[simp] theorem length_detect (n : Nat) (S : Regs) (bins : List Nat) (θ : RealNum) :
    (detect n S bins θ).length = bins.length := length_detectValues _ _ _

/-- DETECT on the window of a record, position by position. -/
theorem detect_getElem_iff (n : Nat) (S : Regs) (bins : List Nat) (θ : RealNum) (j : Nat) (h : j < bins.length) :
    (detect n S bins θ)[j]'(by simpa using h) = true ↔ Detected ((window n S).map sampleValue) bins[j] θ.toReal := by
  classical
  simp only [detect, detectValues_eq, List.getElem_map, decide_eq_true_eq]

end Sys2Proof.Laws
end

