-- ==== Sys2Proof/Laws/WakeUp.lean ====
section
/-!
SUPPORT. The wake-up state: the derived flags over the vectors, what step 2 of WAKE_STEP does tone by tone, and what
WAKE_STEP as a whole can do.
-/
namespace Sys2Proof.Laws

open Sys2Proof.Machine

/-! ### The derived flags -/

theorem armed_iff (S : Regs) : armed S = true ↔ S.flag ≠ [] ∧ ∀ f ∈ S.flag, f = true := by
  simp [armed, Nat.one_le_iff_ne_zero]

theorem armed_clearWakeUp (S : Regs) : armed (clearWakeUp S) = false := by
  cases h : S.flag <;> simp [armed, h]

/-- When the vectors are paired, no time is recorded exactly when no flag is set. -/
theorem earliest_eq (S : Regs) (h : S.flag = S.time.map Option.isSome) : earliest S = (S.time.filterMap id).min? := by
  rw [earliest, h]
  split
  · rfl
  · next hn =>
    have : S.time.filterMap id = [] := by
      simp only [List.any_map, List.any_eq_true, not_exists, not_and] at hn
      refine List.filterMap_eq_nil_iff.mpr fun o ho => ?_
      have := hn o ho
      cases o <;> simp_all
    rw [this]
    rfl

/-- The earliest time is a recorded time. -/
theorem mem_of_earliest {S : Regs} {t : Nat} (h : earliest S = some t) : some t ∈ S.time := by
  rw [earliest] at h
  split at h
  · have := List.min?_mem h
    simpa using this
  · cases h

/-- The earliest time is at or before every recorded time. -/
theorem earliest_le {S : Regs} {t u : Nat} (h : earliest S = some t) (hu : some u ∈ S.time) : t ≤ u := by
  rw [earliest] at h
  split at h
  · exact (List.min?_eq_some_iff.mp h).2 u (by simpa using hu)
  · cases h

theorem earliest_isSome {S : Regs} (h : S.flag = S.time.map Option.isSome) {u : Nat} (hu : some u ∈ S.time) :
    (earliest S).isSome = true := by
  rw [earliest_eq S h, List.isSome_min?_iff]
  intro hnil
  have := List.filterMap_eq_nil_iff.mp hnil (some u) hu
  cases this

/-! ### Step 2 of WAKE_STEP -/

@[simp] theorem length_acquireFlags (fs ds : List Bool) : (acquireFlags fs ds).length = fs.length := by
  induction fs generalizing ds with
  | nil => rfl
  | cons f fs ih => cases ds <;> simp [acquireFlags, ih]

@[simp] theorem length_acquireTimes (pos : Nat) (fs : List Bool) (ts : List (Option Nat)) (ds : List Bool) :
    (acquireTimes pos fs ts ds).length = ts.length := by
  induction fs generalizing ts ds with
  | nil => rfl
  | cons f fs ih =>
    cases ts with
    | nil => rfl
    | cons t ts => cases ds <;> simp [acquireTimes, ih]

theorem getD_acquireFlags (fs ds : List Bool) (i : Nat) (hi : i < fs.length) :
    (acquireFlags fs ds).getD i false = (fs.getD i false || ds.getD i false) := by
  induction fs generalizing ds i with
  | nil => simp at hi
  | cons f fs ih =>
    cases ds with
    | nil => simp [acquireFlags]
    | cons d ds =>
      cases i with
      | zero => rfl
      | succ i => exact ih ds i (by simpa using hi)

theorem getD_acquireTimes (pos : Nat) (fs : List Bool) (ts : List (Option Nat)) (ds : List Bool) (i : Nat)
    (hi : i < fs.length) (hlen : fs.length = ts.length) :
    (acquireTimes pos fs ts ds).getD i none =
      if fs.getD i false = false ∧ ds.getD i false = true then some pos else ts.getD i none := by
  induction fs generalizing ts ds i with
  | nil => simp at hi
  | cons f fs ih =>
    cases ts with
    | nil => simp at hlen
    | cons t ts =>
      cases ds with
      | nil => simp [acquireTimes]
      | cons d ds =>
        cases i with
        | zero => simp [acquireTimes, acquires]
        | succ i => exact ih ts ds i (by simpa using hi) (by simpa using hlen)

/-- Step 2 keeps a flag set exactly where its time is recorded (R26). -/
theorem acquire_paired (pos : Nat) (ts : List (Option Nat)) (ds : List Bool) :
    acquireFlags (ts.map Option.isSome) ds = (acquireTimes pos (ts.map Option.isSome) ts ds).map Option.isSome := by
  induction ts generalizing ds with
  | nil => rfl
  | cons t ts ih =>
    cases ds with
    | nil => rfl
    | cons d ds =>
      simp only [List.map_cons, acquireFlags, acquireTimes, ih]
      cases t <;> cases d <;> rfl

/-- A time after step 2 is a time before it, or the current position. -/
theorem mem_acquireTimes {pos : Nat} {fs : List Bool} {ts : List (Option Nat)} {ds : List Bool} {o : Option Nat}
    (h : o ∈ acquireTimes pos fs ts ds) : o ∈ ts ∨ o = some pos := by
  induction fs generalizing ts ds with
  | nil => exact .inl h
  | cons f fs ih =>
    cases ts with
    | nil => exact .inl h
    | cons t ts =>
      cases ds with
      | nil => exact .inl h
      | cons d ds =>
        rw [acquireTimes] at h
        rcases List.mem_cons.mp h with h | h
        · split at h
          · exact .inr h
          · exact .inl (h ▸ List.mem_cons_self ..)
        · exact (ih h).imp_left (List.mem_cons_of_mem _)

/-! ### WAKE_STEP -/

/-- Everything WAKE_STEP can do: step 2, and then the stale reset or nothing; it answers whether the record it leaves is
armed. -/
theorem wakeStepWith_cases (p : Params) (d : List Bool) (S : Regs) :
    (isStale p (acquire d S) = true ∧ wakeStepWith p d S = (staleReset (acquire d S), false)) ∨
    (isStale p (acquire d S) = false ∧ wakeStepWith p d S = (acquire d S, armed (acquire d S))) := by
  rw [wakeStepWith]
  cases h : isStale p (acquire d S)
  · exact .inr ⟨rfl, rfl⟩
  · refine .inl ⟨rfl, ?_⟩
    have : armed (staleReset (acquire d S)) = armed (clearWakeUp (acquire d S)) := rfl
    simp [this, armed_clearWakeUp]

/-- WAKE_STEP writes nothing but the wake-up state and the last result (R102 "Flags written"). -/
theorem wakeStep_frame (p : Params) (c : Cfg) (S : Regs) :
    (wakeStep p c S).1 =
      { S with flag := (wakeStep p c S).1.flag, time := (wakeStep p c S).1.time, pos := (wakeStep p c S).1.pos,
               last := (wakeStep p c S).1.last } := by
  rw [wakeStep]
  rcases wakeStepWith_cases p (detect c.n S c.wakeBin c.thetaW) S with ⟨-, h⟩ | ⟨-, h⟩ <;> rw [h] <;> rfl

end Sys2Proof.Laws
end

