-- ==== Sys2Proof/Laws/Controller.lean ====
section
/-!
SUPPORT. The controller: everything each command, and each phase of a cycle, can do.
-/
namespace Sys2Proof.Laws

open Sys2Proof.Machine

theorem isTerminal_iff (m : Mode) : m.isTerminal = true ↔ m = .released ∨ m = .stopped ∨ m = .faulted := by
  cases m <;> simp [Mode.isTerminal]

/-! ### The commands -/

@[simp] theorem exec_reset (s : State) : exec .reset s = .next (s.respond Regs.reset) := rfl

@[simp] theorem exec_configure (s : State) :
    exec .configure s = .next (s.respond (configureRegs s.params s.cfgPort s.regs)) := rfl

@[simp] theorem exec_stop (s : State) : exec .stop s = .next (s.respond (stopRegs s.regs)) := rfl

@[simp] theorem exec_status (s : State) : exec .status s = .next s.respondStatus := rfl

/-- Everything CONFIGURE can leave in the record, with the condition of each case (R138). -/
theorem configureRegs_cases (p : Params) (r : ConfigRecord) (S : Regs) :
    (S.mode.isTerminal = true ∧ configureRegs p r S = ignoreCommand S) ∨
    ((S.mode = .searchingWakeup ∨ S.mode = .decodingRelease) ∧ configureRegs p r S = raiseFault .reconfigure S) ∨
    (S.mode = .unconfigured ∧ r.lookupOk = false ∧ configureRegs p r S = raiseFault .configNotFound S) ∨
    (S.mode = .unconfigured ∧ r.lookupOk = true ∧ r.valid p = false ∧
      configureRegs p r S = raiseFault .configInvalid S) ∨
    (S.mode = .unconfigured ∧ r.lookupOk = true ∧ r.valid p = true ∧ configureRegs p r S = configureWith r S) := by
  rw [configureRegs]
  cases S.mode <;> cases r.lookupOk <;> cases r.valid p <;> simp [Mode.isTerminal]

/-- Everything STEP can do, with the condition of each case (R140). -/
theorem execStep_cases (s : State) :
    (s.regs.mode.isTerminal = true ∧ execStep s = .next (s.respond (ignoreCommand s.regs))) ∨
    (s.regs.mode = .unconfigured ∧ execStep s = .next (s.respond (raiseFault .notConfigured s.regs))) ∨
    ((s.regs.mode = .searchingWakeup ∨ s.regs.mode = .decodingRelease) ∧ s.regs.cfg = none ∧
      execStep s = .fault .noConfiguration) ∨
    ((s.regs.mode = .searchingWakeup ∨ s.regs.mode = .decodingRelease) ∧ ∃ c, s.regs.cfg = some c ∧
      ((s.chunkPort.length ≠ c.c ∧ execStep s = .next (s.respond (raiseFault .chunkSize s.regs))) ∨
       (s.chunkPort.length = c.c ∧ pushAllowed s.params c.n s.chunkPort = true ∧
         execStep s = .next (s.respond (cycle s.params c s.chunkPort (clearLast s.regs)))) ∨
       (s.chunkPort.length = c.c ∧ pushAllowed s.params c.n s.chunkPort = false ∧
         execStep s = .fault .pushPrecondition))) := by
  rw [execStep]
  cases hm : s.regs.mode <;> simp only [Mode.isTerminal, reduceCtorEq, if_false, if_true, Bool.false_eq_true]
  · exact .inr (.inl ⟨trivial, trivial⟩)
  all_goals try exact .inl ⟨trivial, trivial⟩
  all_goals
    refine .inr (.inr ?_)
    cases hc : s.regs.cfg with
    | none => simp
    | some c =>
      refine .inr ⟨by simp, c, rfl, ?_⟩
      simp only [stepConfigured]
      by_cases hl : s.chunkPort.length = c.c
      · cases hp : pushAllowed s.params c.n s.chunkPort <;> simp [hl]
      · simp [hl]

/-- Everything STOP can leave in the record (R144). -/
theorem stopRegs_cases (S : Regs) :
    (S.mode.isTerminal = true ∧ stopRegs S = ignoreCommand S) ∨
    (S.mode.isTerminal = false ∧ stopRegs S = { clearLast S with mode := .stopped }) := by
  rw [stopRegs]
  cases S.mode.isTerminal <;> simp

/-- Everything an illegal word can leave in the record (R146). -/
theorem illegalRegs_cases (S : Regs) :
    (S.mode.isTerminal = true ∧ illegalRegs S = ignoreCommand S) ∨
    (S.mode.isTerminal = false ∧ illegalRegs S = raiseFault .illegalCommand S) := by
  rw [illegalRegs]
  cases S.mode.isTerminal <;> simp

/-! ### The phases of a cycle -/

/-- Everything the search phase can do: a stale reset, an arming, or neither (R141). -/
theorem searchPhase_cases (p : Params) (c : Cfg) (S : Regs) :
    let A := acquire (detect c.n S c.wakeBin c.thetaW) S
    (isStale p A = true ∧ searchPhase p c S = staleReset A) ∨
    (isStale p A = false ∧ armed A = true ∧ searchPhase p c S = { A with mode := .decodingRelease }) ∨
    (isStale p A = false ∧ armed A = false ∧ searchPhase p c S = A) := by
  intro A
  rw [searchPhase, wakeStep]
  rcases wakeStepWith_cases p (detect c.n S c.wakeBin c.thetaW) S with ⟨h, e⟩ | ⟨h, e⟩
  · exact .inl ⟨h, by simp [e, A]⟩
  · rw [e]
    cases ha : armed A
    · exact .inr (.inr ⟨h, rfl, by simp [A]⟩)
    · exact .inr (.inl ⟨h, rfl, by simp [A]⟩)

/-- Everything the end of a decode cycle can do: a release, a rearm, or neither (R141). -/
theorem settle_cases (p : Params) (c : Cfg) (r : DecodeResult) (S : Regs) :
    let S₁ := append r.bits S
    let v := verify p c r.bits S₁
    (v.isMatch = true ∧ settle p c r S = release S₁) ∨
    (v.isMatch = false ∧ (r.tie = true ∨ v.isMismatch = true ∨ r.eoc = true) ∧
      settle p c r S = rearm (rearmCause r v) S₁) ∨
    (v.isMatch = false ∧ r.tie = false ∧ v.isMismatch = false ∧ r.eoc = false ∧ settle p c r S = S₁) := by
  intro S₁ v
  rw [settle]
  cases hm : v.isMatch <;> cases ht : r.tie <;> cases hv : v.isMismatch <;> cases he : r.eoc <;>
    simp [S₁, v] at hm hv ⊢

/-! ### Every command -/

/-- No command writes the build's parameters or an operand port, and none reads or writes the host's list (R6, R66). -/
theorem exec_frame (i : Instr) (s t : State) (h : exec i s = .next t) :
    t = { s with regs := t.regs, result := t.result } := by
  cases i with
  | reset => cases h; rfl
  | configure => cases h; rfl
  | stop => cases h; rfl
  | status => cases h; rfl
  | step =>
    change execStep s = _ at h
    rcases execStep_cases s with ⟨-, e⟩ | ⟨-, e⟩ | ⟨-, -, e⟩ | ⟨-, c, -, ⟨-, e⟩ | ⟨-, -, e⟩ | ⟨-, -, e⟩⟩ <;>
      rw [e] at h <;> cases h <;> rfl

/-- The step in one line for a word that decodes. -/
theorem step_of_decode (s : State) (c : HostCommand) (rest : List HostCommand) (i : Instr) (hs : s.host = c :: rest)
    (hd : decode c.word = .ok i) : step s = exec i (s.deliver c rest) := by
  rw [step, hs]
  simp [runWord, hd]

/-- Everything one step can do: nothing with no command to come, a command, or an illegal word. -/
theorem step_cases {s t : State} (h : step s = .next t) :
    (s.host = [] ∧ t = s) ∨
    ∃ c rest, s.host = c :: rest ∧
      ((∃ i, decode c.word = .ok i ∧ exec i (s.deliver c rest) = .next t) ∨
       ((∃ e, decode c.word = .error e) ∧ execIllegal (s.deliver c rest) = .next t)) := by
  cases hs : s.host with
  | nil =>
    rw [step, hs] at h
    cases h
    exact .inl ⟨rfl, rfl⟩
  | cons c rest =>
    rw [step, hs] at h
    simp only [runWord] at h
    cases hd : decode c.word with
    | ok i =>
      rw [hd] at h
      exact .inr ⟨c, rest, rfl, .inl ⟨i, hd, h⟩⟩
    | error e =>
      rw [hd] at h
      exact .inr ⟨c, rest, rfl, .inr ⟨⟨e, hd⟩, h⟩⟩

end Sys2Proof.Laws
end

