-- ==== Sys2Proof/Laws/Memory.lean ====
section
/-!
SUPPORT. The ring: a read after a write, the canonical form, and PUSH slot by slot.
-/
namespace Sys2Proof.Laws

open Sys2Proof.Machine

@[simp] theorem read_nil (a : Nat) : Memory.read [] a = 0 := rfl

/-- A slot below every listed slot is not listed. -/
theorem read_of_lt (m : Memory) (a : Nat) (h : ∀ x ∈ m, a < x.1) : m.read a = 0 := by
  induction m with
  | nil => rfl
  | cons x m ih =>
    have hx := h x (List.mem_cons_self ..)
    rw [Memory.read, if_neg (by omega)]
    exact ih fun y hy => h y (List.mem_cons_of_mem _ hy)

theorem wf_tail {x : Nat × Sample} {m : Memory} (h : Memory.wf (x :: m)) : m.wf :=
  ⟨(List.pairwise_cons.mp h.1).2, fun y hy => h.2 y (List.mem_cons_of_mem _ hy)⟩

theorem wf_head {x : Nat × Sample} {m : Memory} (h : Memory.wf (x :: m)) : ∀ y ∈ m, x.1 < y.1 :=
  (List.pairwise_cons.mp h.1).1

/-- A write changes the slot it names and no other. -/
theorem read_write (m : Memory) (hm : m.wf) (a b : Nat) (v : Sample) :
    (m.write a v).read b = if b = a then v else m.read b := by
  induction m with
  | nil =>
    rw [Memory.write]
    split
    · next h => subst h; simp [Memory.unlisted]
    · simp [Memory.read, Memory.unlisted]
  | cons x m ih =>
    obtain ⟨c, w⟩ := x
    have hhead := wf_head hm
    have hlow : ∀ d, d ≤ c → Memory.read m d = 0 := fun d hd => read_of_lt m d fun y hy => by
      have := hhead y hy
      simp only at this
      omega
    rw [Memory.write]
    split
    · next hac =>
      split
      · next hv =>
        subst hv
        split
        · next hb =>
          subst hb
          rw [Memory.read, if_neg (by omega)]
          exact hlow b (by omega)
        · rfl
      · rw [Memory.read]
    · split
      · next hac hac' =>
        subst hac'
        split
        · next hv =>
          subst hv
          by_cases hb : b = a
          · rw [if_pos hb, hb, hlow a le_rfl]
            rfl
          · rw [if_neg hb, Memory.read, if_neg hb]
        · by_cases hb : b = a
          · rw [if_pos hb, Memory.read, if_pos hb]
          · rw [if_neg hb, Memory.read, if_neg hb, Memory.read, if_neg hb]
      · next hac hac' =>
        by_cases hbc : b = c
        · rw [Memory.read, if_pos hbc, if_neg (by omega), Memory.read, if_pos hbc]
        · rw [Memory.read, if_neg hbc, ih (wf_tail hm), Memory.read, if_neg hbc]

theorem mem_write {m : Memory} {a : Nat} {v : Sample} {x : Nat × Sample} (h : x ∈ m.write a v) : x ∈ m ∨ x = (a, v) := by
  induction m with
  | nil =>
    rw [Memory.write] at h
    split at h
    · exact absurd h List.not_mem_nil
    · exact .inr (List.mem_singleton.mp h)
  | cons y m ih =>
    rw [Memory.write] at h
    split at h
    · split at h
      · exact .inl h
      · exact (List.mem_cons.mp h).symm
    · split at h
      · split at h
        · exact .inl (List.mem_cons_of_mem _ h)
        · exact (List.mem_cons.mp h).symm.imp_left (List.mem_cons_of_mem _)
      · rcases List.mem_cons.mp h with rfl | h
        · exact .inl (List.mem_cons_self ..)
        · exact (ih h).imp_left (List.mem_cons_of_mem _)

/-- A write keeps the canonical form. -/
theorem wf_write (m : Memory) (hm : m.wf) (a : Nat) (v : Sample) : (m.write a v).wf := by
  induction m with
  | nil =>
    rw [Memory.write]
    split
    · exact hm
    · next h => exact ⟨List.pairwise_singleton .., fun x hx => by rw [List.mem_singleton.mp hx]; exact h⟩
  | cons x m ih =>
    obtain ⟨c, w⟩ := x
    have hhead := wf_head hm
    rw [Memory.write]
    split
    · next hac =>
      split
      · exact hm
      · next hv =>
        refine ⟨List.pairwise_cons.mpr ⟨fun y hy => ?_, hm.1⟩, fun y hy => ?_⟩
        · rcases List.mem_cons.mp hy with rfl | hy
          · exact hac
          · exact hac.trans (hhead y hy)
        · rcases List.mem_cons.mp hy with rfl | hy
          · exact hv
          · exact hm.2 y hy
    · split
      · next hac =>
        split
        · exact wf_tail hm
        · next hv =>
          refine ⟨List.pairwise_cons.mpr ⟨fun y hy => ?_, (wf_tail hm).1⟩, fun y hy => ?_⟩
          · subst hac
            exact hhead y hy
          · rcases List.mem_cons.mp hy with rfl | hy
            · exact hv
            · exact (wf_tail hm).2 y hy
      · next hlt hne =>
        have ih' := ih (wf_tail hm)
        refine ⟨List.pairwise_cons.mpr ⟨fun y hy => ?_, ih'.1⟩, fun y hy => ?_⟩
        · rcases mem_write hy with hy | rfl
          · exact hhead y hy
          · simp only
            omega
        · rcases List.mem_cons.mp hy with rfl | hy
          · exact hm.2 _ (List.mem_cons_self ..)
          · exact ih'.2 y hy

theorem wf_nil : Memory.wf [] := ⟨List.Pairwise.nil, fun _ h => absurd h List.not_mem_nil⟩

/-- The ring after reset has the canonical form (R41). -/
theorem wf_reset : State.reset.regs.ring.wf := wf_nil

/-- Two canonical rings that read alike are equal. -/
theorem eq_of_read_eq (m m' : Memory) (hm : m.wf) (hm' : m'.wf) (h : ∀ a, m.read a = m'.read a) : m = m' := by
  induction m generalizing m' with
  | nil =>
    cases m' with
    | nil => rfl
    | cons x m' =>
      have := h x.1
      rw [read_nil, Memory.read, if_pos rfl] at this
      exact absurd this.symm (hm'.2 x (List.mem_cons_self ..))
  | cons x m ih =>
    cases m' with
    | nil =>
      have := h x.1
      rw [read_nil, Memory.read, if_pos rfl] at this
      exact absurd this (hm.2 x (List.mem_cons_self ..))
    | cons y m' =>
      obtain ⟨c, w⟩ := x
      obtain ⟨c', w'⟩ := y
      have hw : w ≠ 0 := hm.2 _ (List.mem_cons_self ..)
      have hw' : w' ≠ 0 := hm'.2 _ (List.mem_cons_self ..)
      have hle : ¬c < c' := fun hlt => by
        have h1 := h c
        rw [Memory.read, if_pos rfl, read_of_lt _ c fun z hz => by
          rcases List.mem_cons.mp hz with rfl | hz
          · exact hlt
          · exact hlt.trans (wf_head hm' z hz)] at h1
        exact hw h1
      have hge : ¬c' < c := fun hlt => by
        have h1 := (h c').symm
        rw [Memory.read, if_pos rfl, read_of_lt _ c' fun z hz => by
          rcases List.mem_cons.mp hz with rfl | hz
          · exact hlt
          · exact hlt.trans (wf_head hm z hz)] at h1
        exact hw' h1
      obtain rfl : c = c' := by omega
      have hww : w = w' := by
        have h1 := h c
        rwa [Memory.read, if_pos rfl, Memory.read, if_pos rfl] at h1
      subst hww
      congr 1
      refine ih m' (wf_tail hm) (wf_tail hm') fun a => ?_
      by_cases ha : a = c
      · subst ha
        rw [read_of_lt m a fun z hz => wf_head hm z hz, read_of_lt m' a fun z hz => wf_head hm' z hz]
      · have h1 := h a
        rwa [Memory.read, if_neg ha, Memory.read, if_neg ha] at h1

/-! ### PUSH -/

theorem wf_pushSamples (n wp j : Nat) (vs : List Sample) (m : Memory) (hm : m.wf) : (pushSamples n wp j vs m).wf := by
  induction vs generalizing j m with
  | nil => exact hm
  | cons v vs ih => exact ih (j + 1) _ (wf_write m hm _ _)

theorem mem_pushSamples {n wp j : Nat} (hn : 0 < n) {vs : List Sample} {m : Memory} {x : Nat × Sample}
    (h : x ∈ pushSamples n wp j vs m) : x ∈ m ∨ x.1 < n := by
  induction vs generalizing j m with
  | nil => exact .inl h
  | cons v vs ih =>
    rcases ih h with h | h
    · rcases mem_write h with h | rfl
      · exact .inl h
      · exact .inr (Nat.mod_lt _ hn)
    · exact .inr h

/-- A slot that PUSH does not address keeps its sample. -/
theorem read_pushSamples_of_ne (n wp j : Nat) (vs : List Sample) (m : Memory) (hm : m.wf) (a : Nat)
    (h : ∀ i < vs.length, a ≠ (wp + (j + i)) % n) : (pushSamples n wp j vs m).read a = m.read a := by
  induction vs generalizing j m with
  | nil => rfl
  | cons v vs ih =>
    rw [pushSamples, ih (j + 1) _ (wf_write m hm _ _) fun i hi => by
      have := h (i + 1) (by simpa using hi)
      rwa [show j + (i + 1) = j + 1 + i by omega] at this, read_write m hm, if_neg]
    have := h 0 (by simp)
    rwa [add_zero] at this

/-- Two different places within one turn of the ring are different slots. -/
theorem slot_injective (n wp i j : Nat) (hi : i < n) (hj : j < n) (h : (wp + i) % n = (wp + j) % n) : i = j := by
  have := Nat.ModEq.add_left_cancel' wp (show Nat.ModEq n (wp + i) (wp + j) from h)
  rwa [Nat.ModEq, Nat.mod_eq_of_lt hi, Nat.mod_eq_of_lt hj] at this

/-- PUSH leaves the chunk's sample `i` in slot `(wp + i) mod N`. -/
theorem read_pushSamples_slot (n wp j : Nat) (vs : List Sample) (m : Memory) (hm : m.wf) (i : Nat) (hi : i < vs.length)
    (hlen : j + vs.length ≤ n) : (pushSamples n wp j vs m).read ((wp + (j + i)) % n) = vs[i] := by
  induction vs generalizing j m i with
  | nil => exact absurd hi (Nat.not_lt_zero i)
  | cons v vs ih =>
    rw [List.length_cons] at hlen hi
    rw [pushSamples]
    cases i with
    | zero =>
      rw [add_zero, read_pushSamples_of_ne n wp (j + 1) vs _ (wf_write m hm _ _) _ fun i hi' h => by
        have := slot_injective n wp j (j + 1 + i) (by omega) (by omega) h
        omega]
      simp [read_write m hm]
    | succ i =>
      have := ih (j + 1) (m.write ((wp + j) % n) v) (wf_write m hm _ _) i (by omega) (by omega)
      rw [show j + (i + 1) = j + 1 + i by omega]
      simpa using this

@[simp] theorem length_window (n : Nat) (S : Regs) : (window n S).length = n := by simp [window]

theorem getElem_window (n : Nat) (S : Regs) (i : Nat) (h : i < (window n S).length) :
    (window n S)[i] = S.ring.read ((S.wp + i) % n) := by simp [window]

end Sys2Proof.Laws
end

