-- ==== Sys2Proof/Laws/Cycle.lean ====
section
/-!
SUPPORT. A cycle in the terms of Sys2Proof/Safety.lean: the detections, the symbol, the stale condition and the timeout,
and what the operations of a cycle keep of a legal record.
-/
namespace Sys2Proof.Laws

open Sys2Proof.Machine Sys2Proof.Safety

/-- The verdict at a position of the bin list (R95). -/
theorem detectValues_getD_iff (x : List Int) (bins : List Nat) (θ : RealNum) (i : Nat) (hi : i < bins.length) :
    (detectValues x bins θ).getD i false = true ↔ Detected x (bins.getD i 0) θ.toReal := by
  classical
  rw [detectValues_eq]
  simp [List.getD_eq_getElem?_getD, List.getElem?_eq_getElem hi]

/-- The decoder's symbol is the one of R113. -/
theorem symbol_of_isSymbol {x : List Int} {c : Cfg} {sym : Int} (h : IsSymbol x c sym) :
    symbol (detectValues x [c.binHi, c.binLo] c.thetaR) = sym := by
  have h1 := detectValues_getD_iff x [c.binHi, c.binLo] c.thetaR 0 (by simp)
  have h2 := detectValues_getD_iff x [c.binHi, c.binLo] c.thetaR 1 (by simp)
  simp only [List.getD_cons_zero, List.getD_cons_succ] at h1 h2
  rw [IsSymbol, ← h1, ← h2] at h
  rw [symbol]
  generalize (detectValues x [c.binHi, c.binLo] c.thetaR).getD 0 false = a at *
  generalize (detectValues x [c.binHi, c.binLo] c.thetaR).getD 1 false = b at *
  cases a <;> cases b <;> simp [detection] at h ⊢ <;> (subst h) <;> rfl

/-- Every window has a symbol. -/
theorem exists_isSymbol (x : List Int) (c : Cfg) : ∃ sym, IsSymbol x c sym := by
  by_cases h1 : Detected x c.binHi c.thetaR.toReal <;> by_cases h2 : Detected x c.binLo c.thetaR.toReal
  · exact ⟨0, .inr (.inr ⟨iff_of_true h1 h2, rfl⟩)⟩
  · exact ⟨1, .inl ⟨h1, h2, rfl⟩⟩
  · exact ⟨-1, .inr (.inl ⟨h1, h2, rfl⟩)⟩
  · exact ⟨0, .inr (.inr ⟨iff_of_false h1 h2, rfl⟩)⟩

theorem late_iff (p : Params) (time : List (Option Nat)) (pos : Nat) :
    late p time pos = true ↔ ∃ t, some t ∈ time ∧ p.tTimeout < pos - t := by
  simp only [late, List.any_eq_true]
  constructor
  · rintro ⟨o, ho, h⟩
    cases o with
    | none => cases h
    | some t => exact ⟨t, ho, by simpa using h⟩
  · rintro ⟨t, ht, h⟩
    exact ⟨some t, ht, by simpa using h⟩

/-- Measuring from the earliest time is measuring from any (R105, R120). -/
theorem exists_earliest_late_iff (p : Params) (S : Regs) (h : S.flag = S.time.map Option.isSome) :
    (∃ t, earliest S = some t ∧ p.tTimeout < S.pos - t) ↔ late p S.time S.pos = true := by
  rw [late_iff]
  constructor
  · rintro ⟨t, ht, hl⟩
    exact ⟨t, mem_of_earliest ht, hl⟩
  · rintro ⟨t, ht, hl⟩
    obtain ⟨u, hu⟩ := Option.isSome_iff_exists.mp (earliest_isSome h ht)
    have := earliest_le hu ht
    exact ⟨u, hu, by omega⟩

theorem isStale_iff (p : Params) (S : Regs) (h : S.flag = S.time.map Option.isSome) :
    isStale p S = true ↔ none ∈ S.time ∧ late p S.time S.pos = true := by
  have hn : S.flag.any (! ·) = true ↔ none ∈ S.time := by
    rw [h]
    simp [List.any_eq_true]
  rw [← exists_earliest_late_iff p S h, isStale]
  cases he : earliest S with
  | none => simp
  | some t =>
    rw [Bool.and_eq_true, hn]
    simp

theorem isTimeout_eq_late (p : Params) (S : Regs) (h : S.flag = S.time.map Option.isSome) :
    isTimeout p S = late p S.time S.pos := by
  rw [Bool.eq_iff_iff, ← exists_earliest_late_iff p S h, isTimeout]
  cases he : earliest S <;> simp

/-- `ev_tone` is raised exactly when some clear flag's tone is detected (R103). -/
theorem acquiresAny_iff (fs ds : List Bool) :
    acquiresAny fs ds = true ↔ ∃ i < fs.length, fs.getD i false = false ∧ ds.getD i false = true := by
  induction fs generalizing ds with
  | nil => simp [acquiresAny]
  | cons f fs ih =>
    cases ds with
    | nil => simp [acquiresAny]
    | cons d ds =>
      simp only [acquiresAny, Bool.or_eq_true, ih, acquires]
      constructor
      · rintro (h | ⟨i, hi, h⟩)
        · exact ⟨0, by simp, by simpa using h⟩
        · exact ⟨i + 1, by simpa using hi, by simpa using h⟩
      · rintro ⟨i, hi, h⟩
        cases i with
        | zero => exact .inl (by simpa using h)
        | succ i => exact .inr ⟨i, by simpa using hi, by simpa using h⟩

/-! ### What a cycle's operations keep of a legal record -/

theorem wakeUpLegal_acquire {c : Cfg} {S : Regs} (d : List Bool) (h : WakeUpLegal c S) :
    WakeUpLegal c (acquire d S) := by
  obtain ⟨h1, h2, h3⟩ := h
  refine ⟨by simpa using h1, ?_, fun t ht => ?_⟩
  · simp only [acquire_flag, acquire_time, h2]
    exact acquire_paired _ _ _
  · rcases mem_acquireTimes ht with h | h
    · exact h3 t h
    · cases h
      exact le_rfl

theorem wakeUpLegal_clearWakeUp {c : Cfg} {S : Regs} (h : WakeUpLegal c S) : WakeUpLegal c (clearWakeUp S) := by
  refine ⟨by simpa using h.tones, ?_, by simp⟩
  simp [h.paired, List.map_map, Function.comp_def]

theorem ringLegal_takeChunk {c : Cfg} {S : Regs} (chunk : List Sample) (h0 : 1 ≤ c.n) (h : RingLegal c.n S) :
    RingLegal c.n (takeChunk c chunk S) := by
  refine ⟨wf_pushSamples _ _ _ _ _ h.canonical, fun x hx => ?_, Nat.mod_lt _ h0⟩
  rcases mem_pushSamples h0 hx with hx | hx
  · exact h.active x hx
  · exact hx

end Sys2Proof.Laws
end

