-- ==== Sys2Proof/Laws/PerInstr.lean ====
section
/-!
SUPPORT. What holds of every instruction as syntax, one lemma per constructor.
-/
namespace Sys2Proof.Laws.WellFormedEncoding

/-- Every command is well formed, its word is a legal one, and the word decodes to the command (R62, R64, R65). -/
def Statement (i : Instr) : Prop :=
  i.wf = true ∧ wordIsWellFormed (encode i) = true ∧ decode (encode i) = .ok i

theorem reset : Statement .reset := ⟨rfl, rfl, rfl⟩
theorem configure : Statement .configure := ⟨rfl, rfl, rfl⟩
theorem step : Statement .step := ⟨rfl, rfl, rfl⟩
theorem stop : Statement .stop := ⟨rfl, rfl, rfl⟩
theorem status : Statement .status := ⟨rfl, rfl, rfl⟩

end Sys2Proof.Laws.WellFormedEncoding
end

