-- ==== Sys2Proof/Laws/Status.lean ====
section
/-!
SUPPORT. The status word, bit by bit (R70).
-/
namespace Sys2Proof.Laws

open Sys2Proof.Machine

theorem statusFields_bit (a b : BitVec 8) (e₁ e₂ e₃ e₄ e₅ e₆ e₇ e₈ : Bool) (r : BitVec 2) (f m : BitVec 3) (i : Nat) :
    (a ++ b ++ BitVec.ofBool e₁ ++ BitVec.ofBool e₂ ++ BitVec.ofBool e₃ ++ BitVec.ofBool e₄ ++ BitVec.ofBool e₅
        ++ BitVec.ofBool e₆ ++ BitVec.ofBool e₇ ++ BitVec.ofBool e₈ ++ r ++ f ++ m).getLsbD i =
      if i < 3 then m.getLsbD i
      else if i < 6 then f.getLsbD (i - 3)
      else if i < 8 then r.getLsbD (i - 6)
      else if i = 8 then e₈
      else if i = 9 then e₇
      else if i = 10 then e₆
      else if i = 11 then e₅
      else if i = 12 then e₄
      else if i = 13 then e₃
      else if i = 14 then e₂
      else if i = 15 then e₁
      else if i < 24 then b.getLsbD (i - 16)
      else a.getLsbD (i - 24) := by
  simp only [BitVec.getLsbD_append, BitVec.getLsbD_ofBool]
  by_cases hi : i < 24
  · interval_cases i <;> simp
  · repeat rw [if_neg (by omega)]
    congr 1

/-- Bit `i` of the status word. -/
theorem getLsbD_statusWord (S : Regs) (i : Nat) :
    (statusWord S).getLsbD i =
      if i < 3 then S.mode.code.getLsbD i
      else if i < 6 then S.fault.code.getLsbD (i - 3)
      else if i < 8 then S.last.rearmCause.code.getLsbD (i - 6)
      else if i = 8 then armed S
      else if i = 9 then S.last.evTone
      else if i = 10 then S.last.evStale
      else if i = 11 then S.last.evBitValid
      else if i = 12 then S.last.evBit.toBool
      else if i = 13 then S.last.evEoc
      else if i = 14 then S.last.evReleased
      else if i = 15 then S.last.evIgnored
      else if i < 24 then (BitVec.ofNat 8 (nFlagged S)).getLsbD (i - 16)
      else (BitVec.ofNat 8 S.nbits).getLsbD (i - 24) :=
  statusFields_bit ..

end Sys2Proof.Laws
end

