-- ==== Sys2Proof/Tests/Slice0.lean ====
section
/-!
SUPPORT. Tests of the model against the vectors of spec/95_test_vectors.md, named after them, and for every obligation
with hypotheses a witness: a concrete state and operands that meet all of them together.
-/
namespace Sys2Proof.Tests

open Sys2Proof Sys2Proof.Machine Sys2Proof.Safety Sys2Proof.Laws

-- One proof at a time: the kernel evaluations below would otherwise each hold a thread of their own.
set_option Elab.async false

/-! ### Decoding (vectors EN1 to EN10) -/

theorem test_rsv_check_refuses : rsvIsZero 0x00000101 = false ∧ opIsAssigned 0x00000101 = true := by decide

theorem test_op_check_refuses :
    opIsAssigned 0x00000000 = false ∧ opIsAssigned 0x00000006 = false ∧ opIsAssigned 0x000000FF = false ∧
    rsvIsZero 0x000000FF = true := by decide

theorem test_word_check_refuses :
    wordIsWellFormed 0x00000106 = false ∧ wordIsWellFormed 0x80000005 = false ∧ wordIsWellFormed 0x00000000 = false ∧
    wordIsWellFormed 0x00000005 = true := by decide

/-- The five words of R62, `cmd[31:8] = 0` then `cmd[7:0] = OP`, written out. -/
theorem test_decode_written_words :
    decode 0b000000000000000000000000_00000001 = .ok .reset ∧
    decode 0b000000000000000000000000_00000010 = .ok .configure ∧
    decode 0b000000000000000000000000_00000011 = .ok .step ∧
    decode 0b000000000000000000000000_00000100 = .ok .stop ∧
    decode 0b000000000000000000000000_00000101 = .ok .status := ⟨rfl, rfl, rfl, rfl, rfl⟩

theorem test_decode_illegal_words :
    decode 0x00000000 = .error .unassignedOp ∧ decode 0x00000006 = .error .unassignedOp ∧
    decode 0x000000FF = .error .unassignedOp ∧ decode 0x00000106 = .error .reservedNonzero ∧
    decode 0x00000101 = .error .reservedNonzero ∧ decode 0xFFFFFFFF = .error .reservedNonzero :=
  ⟨rfl, rfl, rfl, rfl, rfl, rfl⟩

theorem witness_DecodeExactlyFiveWords :
    ∃ w : Word, w ∉ ([0x00000001, 0x00000002, 0x00000003, 0x00000004, 0x00000005] : List Word) :=
  ⟨0x00000006, by decide⟩

theorem test_decodeTableWord :
    [1, 2, 3, 4, 5, 6, 0x106].map (decodeTableWord 32) =
      [some .reset, some .configure, some .step, some .stop, some .status, none, none] := by decide

/-! ### Helpers -/

def next? : Host.Outcome State Fault Refusal → Option State
  | .next t => some t
  | .fault _ => none
  | .refused _ => none

/-- The status word on the result port after a step. -/
def word? (o : Host.Outcome State Fault Refusal) : Option Word := (next? o).map fun t => t.result.word

theorem exists_next {o : Host.Outcome State Fault Refusal} (P : State → Bool) (h : (next? o).any P = true) :
    ∃ t, o = .next t ∧ P t = true := by
  cases o with
  | next t => exact ⟨t, rfl, h⟩
  | fault r => cases h
  | refused r => cases h

def samples (l : List Int) : List Sample := l.map (BitVec.ofInt 16)

def repeated (n : Nat) (l : List Int) : List Int := (List.replicate n l).flatten

/-- `s` with one command to come. -/
def issue (word : Word) (r : ConfigRecord) (chunk : List Int) (s : State) : State :=
  { s with host := [{ word := word, cfgPort := r, chunkPort := samples chunk }] }

def atReset (p : Params) : State := { State.reset with params := p }

/-- A state configured by `r`, with nothing in the ring. -/
def configured (p : Params) (r : ConfigRecord) (mode : Mode) (time : List (Option Nat)) (pos : Nat) (acc : Int)
    (k : Nat) (msg : List Bit) : State :=
  { State.reset with
    params := p,
    regs := {
      cfg := some r.toCfg, mode := mode, fault := .none, ring := [], wp := 0, flag := time.map Option.isSome,
      time := time, pos := pos, acc := acc, k := k, nbits := msg.length, msg := msg, last := Last.clear } }

/-! ### The spec's fixtures (95_test_vectors.md section 0) -/

def cfgA : ConfigRecord where
  lookupOk := true
  rxId := "A"
  fs := .rat 16
  n := 16
  c := 16
  fc := .rat 4
  fShift := .rat 4
  pw := .rat 1
  pri := .rat 1
  thetaW := .rat 1
  thetaR := .rat 2
  wakeFreqs := [.rat 4, .rat (-14)]
  expected := [.one, .zero, .one, .one]

def paramsA : Params := { tTimeout := 160, nMax := 64, prefixRearm := true }

def chunkZ : List Int := repeated 16 [0]
def chunkW4 : List Int := repeated 4 [1000, 0, -1000, 0]
def chunkWB : List Int := repeated 2 [2000, 707, -1000, -707, 0, -707, -1000, 707]
def chunkH : List Int := repeated 8 [1000, -1000]
def chunkL : List Int := repeated 16 [1000]
def pairChunk : List Int := [500] ++ repeated 7 [0] ++ [500] ++ repeated 7 [0]

/-! ### Operands and the detector (vectors BI1 to BI12, RB1 to RB5, WP1 to WP7, DT1 to DT16, BU1 to BU6) -/

theorem test_binIndex :
    ([4, -4, -14, 5 / 2, 7 / 2, 157 / 10, -1 / 2, 20, -16, -17, 15 / 2, 17 / 2, 65 / 2] : List Rat).map
      (fun f => binIndex (.int 16) 16 (.num (.rat f))) = [4, 12, 2, 2, 4, 0, 0, 4, 0, 15, 8, 8, 0] := by decide +kernel

theorem test_release_bins :
    ([(4, 16, 16), (0, 16, 16), (6, 16, 16), (1000, 8000, 32), (2, 8, 8)] : List (Rat × Rat × Nat)).map
      (fun x =>
        let c := ConfigRecord.toCfg { cfgA with fc := .rat x.1, fs := .rat x.2.1, n := x.2.2 }
        (c.binHi, c.binLo)) = [(8, 0), (4, 12), (10, 2), (8, 0), (6, 6)] := by decide +kernel

theorem test_window_and_period :
    ([(1, 1, 16, 16), (1, 1 / 2, 16, 8), (3 / 2, 1 / 2, 16, 16), (5 / 2, 0, 16, 16), (3 / 5, 0, 16, 16),
      (1 / 2, 1, 16, 16), (3 / 100, 1 / 10, 8000, 256)] : List (Rat × Rat × Rat × Nat)).map
      (fun x =>
        let c := ConfigRecord.toCfg { cfgA with pw := .rat x.1, pri := .rat x.2.1, fs := .rat x.2.2.1, c := x.2.2.2 }
        (c.w, c.p)) = [(1, 2), (2, 3), (2, 2), (2, 2), (1, 1), (0, 2), (1, 4)] := by decide +kernel

/-- DT3, and DT8 with WB. -/
theorem test_detect_tones :
    detectValues chunkW4 [4, 2] (.rat 1) = [true, false] ∧ detectValues chunkWB [4, 2] (.rat 1) = [true, true] := by
  decide +kernel

/-- DT1, DT2, and DT13 to DT16, which stand exactly on the boundary. -/
theorem test_detect_boundary :
    detectValues chunkZ [4, 2] (.rat 1) = [false, false] ∧
    detectValues (chunkZ.set 3 500) [0, 3, 5] (.rat (-5)) = [false, false, false] ∧
    detectValues pairChunk [0, 1, 2] (.rat 1) = [false, false, false] ∧
    detectValues pairChunk [0, 1, 2] (.rat (999 / 1000)) = [true, false, true] ∧
    detectValues pairChunk [0, 1, 2] (.rat (-1)) = [true, false, true] ∧
    detectValues pairChunk [0, 1, 2] (.rat (-1001 / 1000)) = [true, true, true] := by decide +kernel

/-- BU5: a push that wraps at the last slot. -/
theorem test_push_wraps :
    let S := { Regs.reset with ring := [(0, 1), (1, 2), (2, 3)], wp := 3 }
    window 4 (push 4 [4, 5, 6] S) = [3, 4, 5, 6] ∧ (push 4 [4, 5, 6] S).wp = 2 ∧
    (push 4 [4, 5, 6] S).ring = [(0, 5), (1, 6), (2, 3), (3, 4)] := by decide +kernel

/-! ### One step of each command -/

/-- ST10, from reset and from a decoding state. -/
theorem test_reset_command :
    word? (step (issue 1 cfgA [] State.reset)) = some 0x00000000 ∧
    word? (step (issue 1 cfgA [] (configured paramsA cfgA .decodingRelease [some 16, some 16] 48 0 0 [.one]))) =
      some 0x00000000 := by decide +kernel

/-- CF1 to CF12. -/
theorem test_configure_command :
    [cfgA, { cfgA with lookupOk := false }, { cfgA with lookupOk := false, c := 0 }, { cfgA with fs := .rat 0 },
      { cfgA with c := 17 }, { cfgA with c := 0 }, { cfgA with n := 65 }, { cfgA with wakeFreqs := [] },
      { cfgA with expected := [] }, { cfgA with pw := .rat (2 / 5) }, { cfgA with pri := .rat (-1 / 2) },
      { cfgA with fs := .rat 8, n := 8, c := 8, fc := .rat 2 }].map
      (fun r => word? (step (issue 2 r [] (atReset paramsA)))) =
    [some 0x00000001, some 0x0000001D, some 0x0000001D, some 0x00000025, some 0x00000025, some 0x00000025,
      some 0x00000025, some 0x00000025, some 0x00000025, some 0x00000025, some 0x00000025,
      some 0x00000025] := by decide +kernel

/-- ST4 and ST7: CONFIGURE where it faults with `RECONFIGURE`, and where it is ignored. -/
theorem test_configure_again :
    word? (step (issue 2 cfgA [] (configured paramsA cfgA .searchingWakeup [none, none] 0 0 0 []))) =
      some 0x00000035 ∧
    word? (step (issue 2 cfgA []
      { State.reset with regs := { Regs.reset with mode := .faulted, fault := .notConfigured } })) =
      some 0x00008015 := by decide +kernel

/-- A threshold that is any real number (R97): CONFIGURE takes it and holds it (CF1 with named thresholds). -/
theorem test_configure_named_threshold :
    (next? (step (issue 2 { cfgA with thetaW := .named 0, thetaR := .named 1 } [] (atReset paramsA)))).any (fun t =>
      decide (t.result.word = 0x00000001 ∧ t.regs.cfg.map (·.thetaW) = some (.named 0) ∧
        t.regs.cfg.map (·.thetaR) = some (.named 1))) = true := by decide +kernel

/-- The first STEP of P1 (`WB`), and P2 at its stale reset. -/
theorem test_step_searching :
    word? (step (issue 3 cfgA chunkWB (configured paramsA cfgA .searchingWakeup [none, none] 0 0 0 []))) =
      some 0x00020302 ∧
    word? (step (issue 3 cfgA chunkZ (configured paramsA cfgA .searchingWakeup [some 16, none] 160 0 0 []))) =
      some 0x00010001 ∧
    word? (step (issue 3 cfgA chunkZ (configured paramsA cfgA .searchingWakeup [some 16, none] 176 0 0 []))) =
      some 0x00000401 := by decide +kernel

/-- P1 at a pulse and at its last cycle, P3 at its last cycle, P4 at its tie, P5 at its wrong bit, P5b at the same, ST1,
ST2 and ST3. -/
theorem test_step_decoding :
    [(chunkL, configured paramsA cfgA .decodingRelease [some 16, some 16] 48 0 0 [.one]),
      (chunkZ, configured paramsA cfgA .decodingRelease [some 16, some 16] 128 1 1 [.one, .zero, .one]),
      (chunkZ, configured paramsA cfgA .decodingRelease [some 16, some 16] 128 (-1) 1 [.one, .zero, .one]),
      (chunkZ, configured paramsA cfgA .decodingRelease [some 16, some 16] 32 0 1 []),
      (chunkZ, configured paramsA cfgA .decodingRelease [some 16, some 16] 32 (-1) 1 []),
      (chunkZ, configured { paramsA with prefixRearm := false } cfgA .decodingRelease [some 16, some 16] 32 (-1) 1 []),
      (chunkZ, atReset paramsA),
      (chunkZ.take 8, configured paramsA cfgA .searchingWakeup [none, none] 0 0 0 []),
      (chunkZ ++ [0], configured paramsA cfgA .searchingWakeup [none, none] 0 0 0 [])].map
      (fun x => word? (step (issue 3 cfgA x.1 x.2))) =
    [some 0x01020102, some 0x04007803, some 0x00002881, some 0x00002041, some 0x00000881, some 0x01020902,
      some 0x00000015, some 0x0000002D, some 0x0000002D] := by decide +kernel

/-- P7 after its first STEP, and ST8. -/
theorem test_stop_command :
    word? (step (issue 4 cfgA [] (configured paramsA cfgA .decodingRelease [some 16, some 16] 16 0 0 []))) =
      some 0x00020104 ∧
    word? (step (issue 4 cfgA [] State.reset)) = some 0x00000004 := by decide +kernel

/-- P1 at its end: STATUS repeats the word of the released state, and the record carries the message. -/
theorem test_status_command :
    let s : State :=
      { configured paramsA cfgA .released [none, none] 0 0 0 cfgA.expected with
        regs := { (configured paramsA cfgA .released [none, none] 0 0 0 cfgA.expected).regs with
          last := { Last.clear with evIgnored := true } } }
    word? (step (issue 5 cfgA [] s)) = some 0x04008003 ∧
    (next? (step (issue 5 cfgA [] s))).any (fun t =>
      decide (t.regs = s.regs ∧ t.result.record.map (·.msg) = some [.one, .zero, .one, .one])) = true := by
  decide +kernel

/-- ST5, ST6 and P7: a word that is no command. -/
theorem test_illegal_word :
    word? (step (issue 0x106 cfgA [] State.reset)) = some 0x0000000D ∧
    word? (step (issue 0x100 cfgA []
      { State.reset with regs := { Regs.reset with mode := .faulted, fault := .illegalCommand } })) =
      some 0x0000800D := by decide +kernel

/-- The word that `withFetchWord` places is the next step's command. -/
theorem test_withFetchWord :
    [1, 2, 3, 4, 5, 6].map (fun w => word? (step (State.reset.withFetchWord 32 w))) =
      [some 0x00000000, some 0x0000001D, some 0x00000015, some 0x00000004, some 0x00000000, some 0x0000000D] := by
  decide +kernel

/-! ### Legal states -/

/-- A decidable form of `Inv`, for a state whose configuration, if any, comes from `r`. -/
def legalCheck (r : ConfigRecord) (s : State) : Bool :=
  decide ((s.regs.mode = .unconfigured → s.regs.cfg = none) ∧ (s.regs.fault = .none ↔ s.regs.mode ≠ .faulted) ∧
    (s.regs.last.rearmCause = .none ↔ s.regs.last.evRearm = false) ∧
    (s.regs.last.evBitValid = false → s.regs.last.evBit = .zero)) &&
  match s.regs.cfg with
  | none =>
    decide (s.regs = { Regs.reset with mode := s.regs.mode, fault := s.regs.fault, last := s.regs.last } ∧
      (s.regs.mode = .unconfigured ∨ s.regs.mode = .stopped ∨ s.regs.mode = .faulted))
  | some c =>
    decide ((c = r.toCfg ∧ r.lookupOk = true ∧ r.valid s.params = true) ∧
      (s.regs.ring.wf ∧ (∀ x ∈ s.regs.ring, x.1 < c.n) ∧ s.regs.wp < c.n) ∧
      (s.regs.time.length = c.nw ∧ s.regs.flag = s.regs.time.map Option.isSome) ∧
      (s.regs.k < c.p ∧ s.regs.acc.natAbs ≤ min s.regs.k c.w ∧ s.regs.nbits ≤ c.l ∧
        s.regs.msg.length = s.regs.nbits) ∧
      (s.regs.mode = .searchingWakeup → s.regs.acc = 0 ∧ s.regs.k = 0 ∧ s.regs.nbits = 0 ∧ s.regs.msg = []) ∧
      (s.regs.mode = .decodingRelease → armed s.regs = true ∧ s.regs.nbits < c.l) ∧
      (s.regs.mode = .released → s.regs.msg = c.expected ∧ armed s.regs = false ∧ s.regs.pos = 0)) &&
    s.regs.time.all fun o => o.all fun t => decide (t ≤ s.regs.pos)

theorem inv_of_check (r : ConfigRecord) {s : State} (h : legalCheck r s = true) : Inv s := by
  rw [legalCheck, Bool.and_eq_true] at h
  obtain ⟨h, hc⟩ := h
  obtain ⟨hu, hf, hca, hb⟩ := of_decide_eq_true h
  refine ⟨hu, fun h0 => ?_, fun c h0 => ?_, hf, hca, hb⟩
  · rw [h0] at hc
    exact ⟨(of_decide_eq_true hc).1, (of_decide_eq_true hc).2⟩
  · rw [h0] at hc
    simp only [Bool.and_eq_true] at hc
    obtain ⟨⟨⟨rfl, hl, hv⟩, ⟨hw, ha, hp⟩, ⟨ht, hfl⟩, ⟨hk, hs, hn, hm⟩, h1, h2, h3⟩, ht'⟩ :=
      And.imp_left of_decide_eq_true hc
    refine ⟨⟨r, hl, hv, rfl⟩, ⟨hw, ha, hp⟩, ⟨ht, hfl, fun t hmem => ?_⟩, ⟨hk, hs, hn, hm⟩, h1, h2, h3⟩
    simpa using List.all_eq_true.mp ht' _ hmem

/-- The symbol the decoder computes is the symbol of the window. -/
theorem isSymbol_of_eq {x : List Int} {c : Cfg} {sym : Int}
    (h : symbol (detectValues x [c.binHi, c.binLo] c.thetaR) = sym) : IsSymbol x c sym := by
  obtain ⟨sym', h'⟩ := exists_isSymbol x c
  rwa [← h, symbol_of_isSymbol h']

theorem detected_of_eq {x : List Int} {b : Nat} {θ : RealNum} (h : (detectValues x [b] θ).getD 0 false = true) :
    Detected x b θ.toReal := (detectValues_getD_iff x [b] θ 0 (by simp)).mp h

/-! ### A small configuration, whose spectra cost little: three bins, one chunk a window, `W = 1`, `P = 2` -/

def tiny : ConfigRecord where
  lookupOk := true
  rxId := "T"
  fs := .rat 3
  n := 3
  c := 3
  fc := .rat 1
  fShift := .rat 0
  pw := .rat 1
  pri := .rat 1
  thetaW := .rat (1 / 2)
  thetaR := .rat (1 / 2)
  wakeFreqs := [.rat 1, .rat 0]
  expected := [.one, .zero]

/-- `N_MAX` is the buffer length itself, its least value for this record. -/
def tinyParams : Params := { tTimeout := 10, nMax := 3, prefixRearm := true }

/-- The high release tone (bins 1 and 2), the low one (bin 0), and silence. -/
def high : List Int := [2, -1, -1]
def low : List Int := [1, 1, 1]
def silent : List Int := [0, 0, 0]

/-- A state of the small configuration with a STEP's chunk on the port and the STEP as the next command. -/
def tinyState (p : Params) (mode : Mode) (time : List (Option Nat)) (pos : Nat) (acc : Int) (k : Nat)
    (msg : List Bit) (chunk : List Int) : State :=
  { issue 3 tiny chunk (configured p tiny mode time pos acc k msg) with
    cfgPort := tiny, chunkPort := samples chunk }

/-- Searching, with the first tone recorded at 3. -/
def searching (pos : Nat) (chunk : List Int) : State :=
  tinyState tinyParams .searchingWakeup [some 3, none] pos 0 0 [] chunk

/-- Decoding, both tones recorded at 3. -/
def decoding (pos : Nat) (acc : Int) (k : Nat) (msg : List Bit) (chunk : List Int) : State :=
  tinyState tinyParams .decodingRelease [some 3, some 3] pos acc k msg chunk

def released : State := tinyState tinyParams .released [none, none] 0 0 0 [.one, .zero] high

def faulted : State :=
  { State.reset with params := tinyParams, regs := { Regs.reset with mode := .faulted, fault := .notConfigured } }

def stopped : State := { State.reset with params := tinyParams, regs := { Regs.reset with mode := .stopped } }

theorem cycleReady (s : State) (m : Mode)
    (h : legalCheck tiny s = true ∧ s.regs.mode = m ∧ s.regs.cfg = some tiny.toCfg ∧
      s.chunkPort.length = tiny.toCfg.c) : CycleReady s tiny.toCfg m :=
  ⟨inv_of_check tiny h.1, h.2.1, h.2.2.1, h.2.2.2⟩

theorem test_tiny_is_valid :
    tiny.valid tinyParams = true ∧ tiny.toCfg.w = 1 ∧ tiny.toCfg.p = 2 ∧ tiny.toCfg.binHi = 2 ∧
    tiny.toCfg.binLo = 0 ∧ tiny.toCfg.wakeBin = [1, 0] := by decide +kernel

theorem test_legal_states :
    [atReset tinyParams, searching 3 low, decoding 3 0 0 [] high, released, faulted, stopped].all (legalCheck tiny) =
      true := by decide +kernel

/-! ### Witnesses: one step and the modes -/

theorem witness_StepRunsDecodedCommand :
    ∃ (s : State) (c : HostCommand) (rest : List HostCommand), s.host = c :: rest ∧ decode c.word = .ok .step :=
  ⟨searching 3 low, _, _, rfl, rfl⟩

/-- Both clauses: a mode that faults, and each terminal mode. -/
theorem witness_IllegalWord :
    ∀ s ∈ [atReset tinyParams, searching 3 low, decoding 3 0 0 [] high, released, faulted, stopped],
      ∃ (c : HostCommand) (e : DecodeError), (issue 0x106 tiny [] s).host = [c] ∧ decode c.word = .error e ∧
        (s.regs.mode ∈ [Mode.unconfigured, .searchingWakeup, .decodingRelease] ∨
          s.regs.mode ∈ [Mode.released, .stopped, .faulted]) := by
  intro s hs
  refine ⟨_, _, rfl, rfl, ?_⟩
  cases s.regs.mode <;> simp

theorem witness_IdleHoldsAllState : ∃ s : State, s.host = [] := ⟨State.reset, rfl⟩

theorem witness_StepKeepsLegal : ∃ s t : State, Inv s ∧ step s = .next t := by
  obtain ⟨t, h, -⟩ := exists_next (o := step (searching 3 low)) (fun _ => true) (by decide +kernel)
  exact ⟨_, t, inv_of_check tiny (by decide +kernel), h⟩

theorem witness_LegalStatesNeverStop : ∃ s : State, Inv s ∧ s.regs.mode = .decodingRelease :=
  ⟨decoding 3 0 0 [] high, inv_of_check tiny (by decide +kernel), rfl⟩

/-- The bound at its edge, in both modes, with a step that stays configured. -/
theorem witness_StepKeepsPosBound :
    ∀ s ∈ [searching 13 silent, decoding 16 0 0 [] silent],
      Inv s ∧ ∃ c c' t, s.regs.cfg = some c ∧ PosBound s.params c s.regs ∧ step s = .next t ∧
        t.regs.cfg = some c' := by
  intro s hs
  have hb : PosBound s.params tiny.toCfg s.regs := by
    have hp : ∀ s ∈ [searching 13 silent, decoding 16 0 0 [] silent],
        (s.regs.mode = .searchingWakeup →
          (s.regs.time.all fun o => o.all fun t => decide (s.regs.pos ≤ t + s.params.tTimeout)) = true) ∧
        (s.regs.mode = .decodingRelease →
          (s.regs.time.all fun o => o.all fun t => decide (s.regs.pos ≤ t + s.params.tTimeout + tiny.toCfg.c)) = true) := by
      decide +kernel
    exact ⟨fun h t ht => by simpa using List.all_eq_true.mp ((hp s hs).1 h) _ ht,
      fun h t ht => by simpa using List.all_eq_true.mp ((hp s hs).2 h) _ ht⟩
  have hk : ∀ s ∈ [searching 13 silent, decoding 16 0 0 [] silent], legalCheck tiny s = true ∧
      s.regs.cfg = some tiny.toCfg ∧ (next? (step s)).any (fun t => decide (t.regs.cfg = some tiny.toCfg)) = true := by
    decide +kernel
  obtain ⟨h1, h2, h3⟩ := hk s hs
  obtain ⟨t, h4, h5⟩ := exists_next _ h3
  exact ⟨inv_of_check tiny h1, _, _, t, h2, hb, h4, of_decide_eq_true h5⟩

/-- A decidable form of `PhaseBound` for a state of the small configuration. -/
theorem phaseBound_of_check (s : State)
    (h : s.regs.cfg = some tiny.toCfg ∧ (s.regs.time.all fun o => o.all fun t =>
      decide (t + (s.regs.nbits * tiny.toCfg.p + s.regs.k) * tiny.toCfg.c ≤ s.regs.pos ∧
        s.regs.pos ≤ t + s.params.tTimeout)) = true) : PhaseBound s.params s.regs := by
  have key : ∀ t, some t ∈ s.regs.time → t + (s.regs.nbits * tiny.toCfg.p + s.regs.k) * tiny.toCfg.c ≤ s.regs.pos ∧
      s.regs.pos ≤ t + s.params.tTimeout := fun t ht => by
    simpa using List.all_eq_true.mp h.2 _ ht
  refine ⟨fun _ c t hc ht => ?_, fun _ _ t ht => (key t ht).2⟩
  rw [h.1] at hc
  cases hc
  exact (key t ht).1

/-- At the edge of both bounds' reach, with a step that goes on decoding. -/
theorem witness_StepKeepsPhaseBound :
    ∃ s t : State, Inv s ∧ PhaseBound s.params s.regs ∧ step s = .next t ∧ s.regs.mode = .decodingRelease ∧
      t.regs.mode = .decodingRelease := by
  obtain ⟨t, h1, h2⟩ := exists_next (o := step (decoding 9 0 0 [.one] low))
    (fun t => decide (t.regs.mode = .decodingRelease)) (by decide +kernel)
  exact ⟨_, t, inv_of_check tiny (by decide +kernel), phaseBound_of_check _ (by decide +kernel), h1, rfl,
    of_decide_eq_true h2⟩

/-- `T_TIMEOUT` one below the bound `(L·P − 1)·C = 9`. -/
theorem witness_ShortTimeoutNeverReleases :
    ∃ s t : State, Inv s ∧ PhaseBound s.params s.regs ∧ s.regs.cfg = some tiny.toCfg ∧
      s.params.tTimeout < (tiny.toCfg.l * tiny.toCfg.p - 1) * tiny.toCfg.c ∧ s.regs.mode ≠ .released ∧
      step s = .next t := by
  obtain ⟨t, h1, -⟩ := exists_next
    (o := step (tinyState { tinyParams with tTimeout := 8 } .decodingRelease [some 3, some 3] 9 0 0 [.one] low))
    (fun _ => true) (by decide +kernel)
  exact ⟨_, t, inv_of_check tiny (by decide +kernel), phaseBound_of_check _ (by decide +kernel), rfl,
    by decide +kernel, by decide +kernel, h1⟩

/-- One for each transition of R135. -/
theorem witness_ModeTransitions :
    ∀ x ∈ [(issue 1 tiny [] released, Mode.unconfigured), (issue 2 tiny [] (atReset tinyParams), .searchingWakeup),
      (searching 3 low, .decodingRelease), (decoding 12 (-1) 1 [.one] silent, .released),
      (decoding 3 0 1 [] silent, .searchingWakeup), (issue 4 tiny [] (searching 3 low), .stopped),
      (issue 0x106 tiny [] (searching 3 low), .faulted)],
      Inv x.1 ∧ ∃ t, step x.1 = .next t ∧ t.regs.mode = x.2 ∧ t.regs.mode ≠ x.1.regs.mode := by
  intro x hx
  have hk : ∀ x ∈ [(issue 1 tiny [] released, Mode.unconfigured), (issue 2 tiny [] (atReset tinyParams), .searchingWakeup),
      (searching 3 low, .decodingRelease), (decoding 12 (-1) 1 [.one] silent, .released),
      (decoding 3 0 1 [] silent, .searchingWakeup), (issue 4 tiny [] (searching 3 low), .stopped),
      (issue 0x106 tiny [] (searching 3 low), .faulted)],
      legalCheck tiny x.1 = true ∧
      (next? (step x.1)).any (fun t => decide (t.regs.mode = x.2 ∧ t.regs.mode ≠ x.1.regs.mode)) = true := by
    decide +kernel
  obtain ⟨h1, h2⟩ := hk x hx
  obtain ⟨t, h3, h4⟩ := exists_next _ h2
  exact ⟨inv_of_check tiny h1, t, h3, of_decide_eq_true h4⟩

theorem witness_IgnoredCommands :
    ∀ s ∈ [released, stopped, faulted], s.regs.mode ∈ [Mode.released, .stopped, .faulted] := by decide +kernel

/-! ### Witnesses: faults -/

/-- One for each cause of R153. -/
def faultCases : List (State × FaultCause) :=
  [(issue 0x106 tiny [] (searching 3 low), .illegalCommand), (issue 3 tiny low (atReset tinyParams), .notConfigured),
    (issue 2 { tiny with lookupOk := false } [] (atReset tinyParams), .configNotFound),
    (issue 2 { tiny with n := 4 } [] (atReset tinyParams), .configInvalid),
    (issue 3 tiny (low ++ [1]) (searching 3 low), .chunkSize), (issue 2 tiny [] (searching 3 low), .reconfigure)]

theorem witness_FaultCauses :
    ∀ x ∈ faultCases, Inv x.1 ∧ x.1.regs.mode ≠ .faulted ∧ (∃ h, x.1.host = [h]) ∧
      ∃ t, step x.1 = .next t ∧ t.regs.fault = x.2 := by
  intro x hx
  have hk : ∀ x ∈ faultCases, legalCheck tiny x.1 = true ∧ x.1.regs.mode ≠ .faulted ∧ x.1.host.length = 1 ∧
      (next? (step x.1)).any (fun t => decide (t.regs.fault = x.2)) = true := by decide +kernel
  obtain ⟨h1, h2, h3, h4⟩ := hk x hx
  obtain ⟨t, h5, h6⟩ := exists_next _ h4
  exact ⟨inv_of_check tiny h1, h2, List.length_eq_one_iff.mp h3, t, h5, of_decide_eq_true h6⟩

theorem witness_ResetCommand :
    ∃ s u : State, s.regs.mode = .faulted ∧ exec .step s = .next u := by
  obtain ⟨u, h, -⟩ := exists_next (o := exec .step faulted) (fun _ => true) (by decide +kernel)
  exact ⟨_, u, rfl, h⟩

theorem witness_FaultsArePrecise :
    ∃ s t : State, step s = .next t ∧ s.regs.mode ≠ .faulted ∧ t.regs.mode = .faulted := by
  obtain ⟨t, h1, h2⟩ := exists_next (o := step (issue 2 tiny [] (decoding 12 1 1 [] low)))
    (fun t => decide (t.regs.mode = .faulted)) (by decide +kernel)
  exact ⟨_, t, h1, by decide +kernel, of_decide_eq_true h2⟩

/-- Two states with different signals, positions and decoders. -/
theorem witness_NoSignalFault :
    ∃ s s' t t' : State, s'.params = s.params ∧ s'.cfgPort = s.cfgPort ∧
      s'.chunkPort.length = s.chunkPort.length ∧ s'.regs.mode = s.regs.mode ∧ s'.regs.fault = s.regs.fault ∧
      s'.regs.cfg = s.regs.cfg ∧ exec .step s = .next t ∧ exec .step s' = .next t' := by
  obtain ⟨t, h1, -⟩ := exists_next (o := exec .step (decoding 3 0 0 [] high)) (fun _ => true) (by decide +kernel)
  obtain ⟨t', h2, -⟩ := exists_next (o := exec .step (decoding 9 1 1 [] silent)) (fun _ => true) (by decide +kernel)
  exact ⟨decoding 3 0 0 [] high, decoding 9 1 1 [] silent, t, t', rfl, rfl, by decide +kernel, rfl, rfl, rfl, h1, h2⟩

/-! ### Witnesses: CONFIGURE and the operands -/

/-- Both sides of each of the eight checks V1 to V8 at its edge. -/
theorem witness_ConfigurationValidity :
    (∀ r ∈ [tiny, { cfgA with n := 64 }, { cfgA with c := 1 }, { cfgA with pri := .rat 0 },
        { cfgA with pw := .rat (501 / 1000) }], r.valid { paramsA with nMax := 64 } = true) ∧
    (∀ r ∈ [{ cfgA with fs := .rat 0 }, { cfgA with n := 65 }, { cfgA with n := 0 }, { cfgA with c := 17 },
        { cfgA with c := 0 }, { cfgA with wakeFreqs := [] }, { cfgA with wakeFreqs := List.replicate 256 (.rat 1) },
        { cfgA with expected := [] }, { cfgA with expected := List.replicate 256 .one }, { cfgA with pw := .rat (1 / 2) },
        { cfgA with pri := .rat (-1 / 2) }, { cfgA with n := 8, c := 8 }], r.valid paramsA = false) := by
  decide +kernel

theorem witness_DerivedRegistersInRange : ∃ (p : Params) (r : ConfigRecord), r.valid p = true :=
  ⟨tinyParams, tiny, by decide +kernel⟩

theorem witness_ConfigurationIsReadOnly : ∃ s t : State, step s = .next t ∧ t.regs.cfg ≠ s.regs.cfg := by
  obtain ⟨t, h1, h2⟩ := exists_next (o := step (issue 2 tiny [] (atReset tinyParams)))
    (fun t => decide (t.regs.cfg ≠ none)) (by decide +kernel)
  exact ⟨_, t, h1, of_decide_eq_true h2⟩

/-- The tie clause, at ties of both parities and both signs. -/
theorem witness_RoundHalfEven :
    ∀ q ∈ ([5 / 2, 7 / 2, -1 / 2, -3 / 2] : List Rat),
      |(RealNum.rat q).toReal - roundHalfEven (.num (.rat q))| = 1 / 2 := by
  have hk : ∀ q ∈ ([5 / 2, 7 / 2, -1 / 2, -3 / 2] : List Rat), |q - roundHalfEven (.num (.rat q))| = 1 / 2 := by
    decide +kernel
  intro q hq
  rw [toReal_rat, ← Rat.cast_intCast, ← Rat.cast_sub, ← Rat.cast_abs, hk q hq]
  norm_num

/-- Each clause at its edges: `f = −fs`, `f` just below 0, `f = 0`, and `f` outside `[−fs, fs)`. -/
theorem witness_NormalisedFrequency :
    0 < (RealExpr.int 16).toReal ∧
    ([-16, -1 / 2, 0, 31 / 2, 16, -17] : List Rat).map (fun f => (normFreq (.int 16) (.num (.rat f))).ratValue) =
      [0, 31 / 2, 0, 31 / 2, 0, 15] := by
  refine ⟨by simp, ?_⟩
  decide +kernel

/-- Both sides of the wrap to bin 0, and the tie at it for an even and an odd `N`. -/
theorem witness_BinIndex :
    ([(16, 157 / 10), (16, 31 / 2), (16, 154 / 10), (3, 5 / 2), (3, 13 / 5)] : List (Nat × Rat)).map
      (fun x => binIndex (.int x.1) x.1 (.num (.rat x.2))) = [0, 0, 15, 2, 0] := by decide +kernel

theorem witness_ReleaseBinsFourApart :
    ∃ (r : ConfigRecord) (b : Int), 0 < r.fs.toReal ∧ 0 < r.n ∧ r.fc.toReal * r.n / r.fs.toReal = b := by
  refine ⟨{ cfgA with fc := .rat (-1) }, -1, ?_, by decide, ?_⟩ <;> simp [cfgA]

/-! ### Witnesses: the sample buffer -/

theorem witness_PushWritesChunk :
    ∃ (n : Nat) (chunk : List Sample) (S : Regs), S.ring.wf ∧ 1 ≤ chunk.length ∧ chunk.length ≤ n ∧ 0 < n :=
  ⟨3, samples high, { Regs.reset with ring := [(0, 7), (2, 5)], wp := 2 }, by decide +kernel⟩

theorem witness_PushShiftsWindow :
    ∃ (n : Nat) (chunk : List Sample) (S : Regs), S.ring.wf ∧ 0 < n ∧ chunk.length ≤ n :=
  ⟨4, samples high, { Regs.reset with ring := [(0, 7), (2, 5)], wp := 3 }, by decide +kernel⟩

/-- Fewer samples than `N` in all, exactly `N`, and more. -/
theorem witness_WindowHoldsMostRecent :
    ∀ x ∈ [([[1, 2]], [0, 0, 1, 2]), ([[1, 2], [3, 4]], [1, 2, 3, 4]), ([[1, 2, 3], [4, 5]], [2, 3, 4, 5])],
      Regs.reset.ring = [] ∧ Regs.reset.wp = 0 ∧ (∀ ch ∈ x.1.map samples, 1 ≤ ch.length ∧ ch.length ≤ 4) ∧
      window 4 ((x.1.map samples).foldl (fun T ch => push 4 ch T) Regs.reset) = samples x.2 := by
  decide +kernel

/-- A cycle, and a STEP turned away. -/
theorem witness_StepTakesChunkWholeOrNot :
    (∃ s t : State, Inv s ∧ exec .step s = .next t ∧ CycleReady s tiny.toCfg .searchingWakeup) ∧
    ∃ s t : State, Inv s ∧ exec .step s = .next t ∧ s.chunkPort.length = 0 := by
  obtain ⟨t, h1, -⟩ := exists_next (o := exec .step (searching 3 high)) (fun _ => true) (by decide +kernel)
  obtain ⟨u, h2, -⟩ := exists_next (o := exec .step (searching 3 [])) (fun _ => true) (by decide +kernel)
  exact ⟨⟨_, t, inv_of_check tiny (by decide +kernel), h1, cycleReady _ _ (by decide +kernel)⟩,
    _, u, inv_of_check tiny (by decide +kernel), h2, by decide +kernel⟩

/-! ### Witnesses: the tone detector, over the real numbers -/

theorem magnitude_impulse (v : Int) (k : Nat) : magnitude [v] k = |(v : ℝ)| := by
  simp [magnitude, coefficient]

theorem stdDev_single (v : Int) : stdDev [v] = 0 := by simp [stdDev, mean, magnitude_impulse]

theorem coefficient_pair (v : Int) : coefficient [v, v] 0 = 2 * v ∧ coefficient [v, v] 1 = 0 := by
  have h : unityRoot 2 = -1 := by
    rw [unityRoot, Complex.exp_neg, mul_assoc, Nat.cast_ofNat, mul_div_cancel_left₀ _ two_ne_zero, Complex.exp_pi_mul_I]
    norm_num
  constructor <;> rw [coefficient_eq_polyAt] <;> simp [polyAt, Finset.sum_range_succ, h]
  ring

theorem magnitude_pair (v : Int) : magnitude [v, v] 0 = 2 * |(v : ℝ)| ∧ magnitude [v, v] 1 = 0 := by
  simp [magnitude, coefficient_pair]

theorem mean_pair : mean [1, 1] = 1 := by
  simp [mean, Finset.sum_range_succ, magnitude_pair]

theorem stdDev_pair : stdDev [1, 1] = 1 := by
  simp [stdDev, Finset.sum_range_succ, magnitude_pair, mean_pair]
  norm_num

theorem unityRoot_four : unityRoot 4 = -Complex.I := by
  rw [unityRoot, ← Complex.exp_neg_pi_div_two_mul_I]
  congr 1
  push_cast
  ring

/-- A spectrum with a bin exactly at the mean and a deviation that is not 0. -/
theorem magnitude_four :
    magnitude [2, -1, 0, -1] 0 = 0 ∧ magnitude [2, -1, 0, -1] 1 = 2 ∧ magnitude [2, -1, 0, -1] 2 = 4 ∧
    magnitude [2, -1, 0, -1] 3 = 2 := by
  have h2 : (-Complex.I) ^ 2 = -1 := by rw [neg_sq, Complex.I_sq]
  have h3 : (-Complex.I) ^ 3 = Complex.I := by rw [pow_succ, h2, neg_mul_neg, one_mul]
  have h6 : (-Complex.I) ^ 6 = -1 := by rw [show 6 = 2 * 3 from rfl, pow_mul, h2]; norm_num
  have h9 : (-Complex.I) ^ 9 = -Complex.I := by rw [show 9 = 6 + 3 from rfl, pow_add, h6, h3, neg_one_mul]
  refine ⟨?_, ?_, ?_, ?_⟩ <;> rw [magnitude, coefficient_eq_polyAt] <;>
    simp only [polyAt, List.length_cons, List.length_nil, Finset.sum_range_succ, Finset.sum_range_zero, zero_add,
      Nat.reduceAdd, unityRoot_four, Nat.reduceMul, pow_zero, pow_one, h2, h3, h6, h9] <;>
    norm_num

theorem mean_four : mean [2, -1, 0, -1] = 2 := by
  simp [mean, Finset.sum_range_succ, magnitude_four]
  norm_num

theorem witness_FlatSpectrumDetectsNothing : stdDev [5] = 0 ∧ detectValues [5] [0] (.rat (-7)) = [false] :=
  ⟨stdDev_single 5, by decide +kernel⟩

/-- Each clause at its boundary: a bin exactly at the threshold, a bin exactly at the mean, and `θ = √(N − 1)`. -/
theorem witness_ThresholdIsStrict :
    (magnitude [1, 1] 0 - mean [1, 1] = (RealNum.rat 1).toReal * stdDev [1, 1]) ∧
    ((RealNum.rat (-1)).toReal < 0 ∧ 0 < stdDev [2, -1, 0, -1] ∧ magnitude [2, -1, 0, -1] 1 = mean [2, -1, 0, -1]) ∧
    √((([1, 1] : List Int).length : ℝ) - 1) ≤ (RealNum.rat 1).toReal := by
  refine ⟨?_, ⟨by norm_num, ?_, by rw [mean_four, magnitude_four.2.1]⟩, ?_⟩
  · rw [(magnitude_pair 1).1, mean_pair, stdDev_pair]
    norm_num
  · simp [stdDev, Finset.sum_range_succ, magnitude_four, mean_four]
    norm_num
  · norm_num

theorem witness_LevelDoesNotMatter :
    ∃ (x y : List Int) (a : ℝ), a ≠ 0 ∧ y.length = x.length ∧
      ∀ i < x.length, ((y.getD i 0 : Int) : ℝ) = a * ((x.getD i 0 : Int) : ℝ) :=
  ⟨high, [-6, 3, 3], -3, by norm_num, rfl, fun i hi => by
    have hi' : i < 3 := hi
    interval_cases i <;> norm_num [high]⟩

theorem witness_RingOrderDetectsAlike :
    ∃ (n : Nat) (S : Regs), S.wp < n ∧ (List.range n).map S.ring.read ≠ window n S :=
  ⟨3, { Regs.reset with ring := [(0, 1), (1, 2), (2, 3)], wp := 2 }, by decide +kernel⟩

theorem witness_MirrorBinsAgree : ∃ (x : List Int) (k : Nat), k < x.length ∧ k ≠ (x.length - k) % x.length :=
  ⟨high, 1, by decide⟩

theorem witness_EqualBinsClosedForm :
    ∃ (x : List Int) (B : Finset Nat) (M : ℝ), B ⊆ Finset.range x.length ∧ 1 ≤ B.card ∧ B.card < x.length ∧ 0 < M ∧
      (∀ k ∈ B, magnitude x k = M) ∧ (∀ k < x.length, k ∉ B → magnitude x k = 0) := by
  refine ⟨[1, 1], {0}, 2, by decide, by decide, by decide, by norm_num, fun k hk => ?_, fun k hk hk' => ?_⟩
  · rw [Finset.mem_singleton.mp hk, (magnitude_pair 1).1]
    norm_num
  · have hk2 : k < 2 := hk
    have : k = 1 := by
      rw [Finset.mem_singleton] at hk'
      omega
    rw [this, (magnitude_pair 1).2]

/-! ### Witnesses: STEP in `SEARCHING_WAKEUP` -/

/-- Neither arming nor stale, at the last position in time; stale, at the first position late; and arming. -/
theorem witness_SearchCycle :
    ∀ x ∈ [(searching 10 silent, 0x00010001), (searching 11 silent, 0x00000401), (searching 11 low, 0x00020302)],
      CycleReady x.1 tiny.toCfg .searchingWakeup ∧ word? (exec .step x.1) = some (BitVec.ofNat 32 x.2) := by
  intro x hx
  have hk : ∀ x ∈ [(searching 10 silent, 0x00010001), (searching 11 silent, 0x00000401), (searching 11 low, 0x00020302)],
      (legalCheck tiny x.1 = true ∧ x.1.regs.mode = .searchingWakeup ∧ x.1.regs.cfg = some tiny.toCfg ∧
        x.1.chunkPort.length = tiny.toCfg.c) ∧ word? (exec .step x.1) = some (BitVec.ofNat 32 x.2) := by decide +kernel
  exact ⟨cycleReady _ _ (hk x hx).1, (hk x hx).2⟩

/-- The window after the next cycle of a state of the small configuration is its chunk. -/
abbrev nextWindow (s : State) : List Int := windowAfter tiny.toCfg s.regs [s.chunkPort]

theorem witness_LastToneAfterTimeout :
    ∃ (s : State) (c : Cfg) (t₀ : Nat) (chunk : List Sample), CycleReady s c .searchingWakeup ∧
      some t₀ ∈ s.regs.time ∧ s.params.tTimeout < s.regs.pos + c.c - t₀ ∧
      (∀ i < c.nw, s.regs.flag.getD i false = true ∨
        Detected (windowAfter c s.regs [s.chunkPort]) (c.wakeBin.getD i 0) c.thetaW.toReal) ∧ chunk.length = c.c := by
  refine ⟨searching 11 low, tiny.toCfg, 3, samples high, cycleReady _ _ (by decide +kernel), by decide +kernel,
    by decide +kernel, fun i hi => ?_, by decide +kernel⟩
  have hi' : i < 2 := hi
  interval_cases i
  · exact Or.inl (by decide +kernel)
  · exact Or.inr (detected_of_eq (by decide +kernel))

theorem witness_FlagsAreMonotone :
    ∃ s t : State, Inv s ∧ step s = .next t ∧ s.regs.flag.getD 0 false = true ∧ t.regs.mode = .decodingRelease := by
  obtain ⟨t, h1, h2⟩ := exists_next (o := step (searching 3 low)) (fun t => decide (t.regs.mode = .decodingRelease))
    (by decide +kernel)
  exact ⟨_, t, inv_of_check tiny (by decide +kernel), h1, by decide +kernel, of_decide_eq_true h2⟩

theorem witness_PositionOriginDoesNotMatter :
    ∃ (s s' t : State), s' = { s with regs := s'.regs } ∧ ShiftedBy 5 s.regs s'.regs ∧ exec .step s = .next t := by
  obtain ⟨t, h, -⟩ := exists_next (o := exec .step (searching 3 low)) (fun _ => true) (by decide +kernel)
  exact ⟨searching 3 low, tinyState tinyParams .searchingWakeup [some 8, none] 8 0 0 [] low, t, rfl, rfl, h⟩

/-! ### Witnesses: STEP in `DECODING_RELEASE` -/

/-- A decoding state that is ready for a cycle, with the symbol of its next window. -/
theorem decodeReady {s : State} {sym : Int}
    (h : (legalCheck tiny s = true ∧ s.regs.mode = .decodingRelease ∧ s.regs.cfg = some tiny.toCfg ∧
        s.chunkPort.length = tiny.toCfg.c) ∧
      symbol (detectValues (nextWindow s) [tiny.toCfg.binHi, tiny.toCfg.binLo] tiny.toCfg.thetaR) = sym) :
    CycleReady s tiny.toCfg .decodingRelease ∧ IsSymbol (nextWindow s) tiny.toCfg sym :=
  ⟨cycleReady s _ h.1, isSymbol_of_eq h.2⟩

/-- In time and late, with each of the three symbols. -/
theorem witness_DecodeInsidePeriod :
    ∀ x ∈ [(decoding 10 0 0 [] high, 1), (decoding 11 0 0 [] low, -1), (decoding 11 0 0 [] silent, 0)],
      (CycleReady x.1 tiny.toCfg .decodingRelease ∧ IsSymbol (nextWindow x.1) tiny.toCfg x.2) ∧
        x.1.regs.k + 1 ≠ tiny.toCfg.p := by
  intro x hx
  simp only [List.mem_cons, List.not_mem_nil, or_false] at hx
  rcases hx with rfl | rfl | rfl <;> exact ⟨decodeReady (by decide +kernel), by decide +kernel⟩

theorem witness_TieRearms :
    ∃ (s : State) (sym : Int), (CycleReady s tiny.toCfg .decodingRelease ∧ IsSymbol (nextWindow s) tiny.toCfg sym) ∧
      s.regs.k + 1 = tiny.toCfg.p ∧ sumAfter tiny.toCfg s.regs sym = 0 :=
  ⟨decoding 3 0 1 [] high, 1, decodeReady (by decide +kernel), by decide +kernel, by decide +kernel⟩

/-- In time and in the cycle in which the timeout expires. -/
theorem witness_MatchReleases :
    ∀ s ∈ [decoding 10 (-1) 1 [.one] silent, decoding 11 (-1) 1 [.one] silent],
      (CycleReady s tiny.toCfg .decodingRelease ∧ IsSymbol (nextWindow s) tiny.toCfg 0) ∧
        s.regs.k + 1 = tiny.toCfg.p ∧ sumAfter tiny.toCfg s.regs 0 ≠ 0 ∧
        Bit.zero = (if 0 < sumAfter tiny.toCfg s.regs 0 then Bit.one else .zero) ∧
        s.regs.msg ++ [.zero] = tiny.toCfg.expected := by
  intro s hs
  rcases List.mem_pair.mp hs with rfl | rfl <;> exact ⟨decodeReady (by decide +kernel), by decide +kernel⟩

def lateMismatch : Params := { tinyParams with prefixRearm := false }

/-- Early with `PREFIX_REARM`, and at full length without. -/
theorem witness_MismatchRearms :
    ∀ x ∈ [(decoding 3 (-1) 1 [] silent, Bit.zero),
        (tinyState lateMismatch .decodingRelease [some 3, some 3] 3 1 1 [.one] silent, .one)],
      (CycleReady x.1 tiny.toCfg .decodingRelease ∧ IsSymbol (nextWindow x.1) tiny.toCfg 0) ∧
        x.1.regs.k + 1 = tiny.toCfg.p ∧ sumAfter tiny.toCfg x.1.regs 0 ≠ 0 ∧
        x.2 = (if 0 < sumAfter tiny.toCfg x.1.regs 0 then Bit.one else .zero) ∧
        (¬x.1.regs.msg ++ [x.2] <+: tiny.toCfg.expected) ∧
        (x.1.params.prefixRearm = true ∨ x.1.regs.nbits + 1 = tiny.toCfg.l) := by
  intro x hx
  rcases List.mem_pair.mp hx with rfl | rfl <;> exact ⟨decodeReady (by decide +kernel), by decide +kernel⟩

/-- In time, late, and a wrong bit without `PREFIX_REARM`. -/
theorem witness_BitIsAppended :
    ∀ x ∈ [(decoding 10 1 1 [] silent, Bit.one), (decoding 11 1 1 [] silent, .one),
        (tinyState lateMismatch .decodingRelease [some 3, some 3] 3 (-1) 1 [] silent, .zero)],
      (CycleReady x.1 tiny.toCfg .decodingRelease ∧ IsSymbol (nextWindow x.1) tiny.toCfg 0) ∧
        x.1.regs.k + 1 = tiny.toCfg.p ∧ sumAfter tiny.toCfg x.1.regs 0 ≠ 0 ∧
        x.2 = (if 0 < sumAfter tiny.toCfg x.1.regs 0 then Bit.one else .zero) ∧
        x.1.regs.nbits + 1 ≠ tiny.toCfg.l ∧
        (x.1.regs.msg ++ [x.2] <+: tiny.toCfg.expected ∨ x.1.params.prefixRearm = false) := by
  intro x hx
  simp only [List.mem_cons, List.not_mem_nil, or_false] at hx
  rcases hx with rfl | rfl | rfl <;> exact ⟨decodeReady (by decide +kernel), by decide +kernel⟩

theorem witness_DecoderRoundTrip :
    ∃ (c : Cfg) (S : Regs), 1 ≤ c.w ∧ c.w ≤ c.p ∧ S.acc = 0 ∧ S.k = 0 :=
  ⟨tiny.toCfg, Regs.reset, by decide +kernel⟩

/-- The four chunks of `1 0`, with the last cycle but one exactly at `T_TIMEOUT`. -/
def transmission : List (List Sample) := [samples high, samples silent, samples low, samples silent]

def transmitting : State :=
  { decoding 4 0 0 [] silent with host := transmission.map (stepCommand tiny) }

theorem witness_CleanTransmissionReleases :
    Inv transmitting ∧ transmitting.regs.mode = .decodingRelease ∧ transmitting.regs.cfg = some tiny.toCfg ∧
    transmitting.regs.k = 0 ∧ transmitting.regs.nbits = 0 ∧
    transmitting.host = transmission.map (stepCommand transmitting.cfgPort) ∧
    transmission.length = tiny.toCfg.l * tiny.toCfg.p ∧ (∀ ch ∈ transmission, ch.length = tiny.toCfg.c) ∧
    (∀ j < tiny.toCfg.l * tiny.toCfg.p,
      IsSymbol (windowAfter tiny.toCfg transmitting.regs (transmission.take (j + 1))) tiny.toCfg
        (if j % tiny.toCfg.p < tiny.toCfg.w then bitSymbol (tiny.toCfg.expected.getD (j / tiny.toCfg.p) .zero)
          else 0)) ∧
    ∀ t₀, some t₀ ∈ transmitting.regs.time →
      transmitting.regs.pos + (tiny.toCfg.l * tiny.toCfg.p - 1) * tiny.toCfg.c ≤ t₀ + transmitting.params.tTimeout := by
  refine ⟨inv_of_check tiny (by decide +kernel), rfl, rfl, rfl, rfl, rfl, by decide +kernel, by decide +kernel,
    fun j hj => isSymbol_of_eq ?_, fun t₀ h => ?_⟩
  · revert j
    decide +kernel
  · have : t₀ = 3 := by simpa [transmitting, decoding, tinyState, issue, configured] using h
    subst this
    decide +kernel

/-! ### Witnesses: the verifier, STOP, STATUS and what nothing reads -/

/-- A match, an early mismatch and no bit, with the counts at their edges. -/
theorem witness_VerifyVerdicts :
    tiny.toCfg.l = tiny.toCfg.expected.length ∧
    verify tinyParams tiny.toCfg [.zero] { Regs.reset with msg := [.one, .zero] } = ⟨true, false⟩ ∧
    verify tinyParams tiny.toCfg [.zero] { Regs.reset with msg := [.zero] } = ⟨false, true⟩ ∧
    verify lateMismatch tiny.toCfg [.zero] { Regs.reset with msg := [.zero] } = ⟨false, false⟩ ∧
    verify lateMismatch tiny.toCfg [.one] { Regs.reset with msg := [.one, .one] } = ⟨false, true⟩ ∧
    verify tinyParams tiny.toCfg [] { Regs.reset with msg := [.one, .zero] } = ⟨false, false⟩ := by decide +kernel

theorem witness_EarlyRearmAcceptsTheSame :
    tiny.toCfg.l = tiny.toCfg.expected.length ∧ 1 ≤ tiny.toCfg.l ∧
    attemptReleases tinyParams tiny.toCfg Regs.reset [] [.one, .zero, .one] = true ∧
    attemptReleases tinyParams tiny.toCfg Regs.reset [] [.zero, .zero] = false := by decide +kernel

theorem witness_OnlyFullMatchReleases :
    ∃ s t : State, Inv s ∧ step s = .next t ∧ t.regs.mode = .released ∧ s.regs.mode ≠ .released := by
  obtain ⟨t, h1, h2⟩ := exists_next (o := step (decoding 12 (-1) 1 [.one] silent))
    (fun t => decide (t.regs.mode = .released)) (by decide +kernel)
  exact ⟨_, t, inv_of_check tiny (by decide +kernel), h1, of_decide_eq_true h2, by decide +kernel⟩

/-- Each of the three cases, the last with a chunk one sample short and one too long. -/
theorem witness_StepTurnedAway :
    (∀ s ∈ [released, stopped, faulted], s.regs.mode ∈ [Mode.released, .stopped, .faulted]) ∧
    (atReset tinyParams).regs.mode = .unconfigured ∧
    ∀ s ∈ [searching 3 [1, 1], searching 3 [1, 1, 1, 1]], s.regs.mode ∈ [Mode.searchingWakeup, .decodingRelease] ∧
      s.regs.cfg = some tiny.toCfg ∧ s.chunkPort.length ≠ tiny.toCfg.c := by decide +kernel

theorem witness_StatusWordFields :
    ∃ (p : Params) (S : Regs), RegsLegal p S ∧ S.nbits = 1 :=
  ⟨tinyParams, (decoding 12 (-1) 1 [.one] silent).regs,
    inv_of_check (s := decoding 12 (-1) 1 [.one] silent) tiny (by decide +kernel), rfl⟩

/-- Armed, partly flagged, and no tone flagged. -/
theorem witness_DerivedFlags :
    ∀ S ∈ [(decoding 12 0 0 [] silent).regs, (searching 3 low).regs, released.regs],
      S.flag = S.time.map Option.isSome := by decide +kernel

theorem witness_PortsReadOnlyByTheirCommand : ∀ i : Instr, ∃ s t : State, exec i s = .next t := by
  intro i
  have hk : ∀ i ∈ [Instr.reset, .configure, .step, .stop, .status],
      (next? (exec i (searching 3 high))).any (fun _ => true) = true := by decide +kernel
  obtain ⟨t, h, -⟩ := exists_next _ (hk i (by cases i <;> decide))
  exact ⟨_, t, h⟩

theorem witness_LastResultIsNeverRead : ∃ (i : Instr) (s t : State), i ≠ .status ∧ exec i s = .next t := by
  obtain ⟨s, t, h⟩ := witness_PortsReadOnlyByTheirCommand .step
  exact ⟨.step, s, t, by decide, h⟩

theorem witness_FrequencyShiftIsNeverRead :
    ∃ (i : Instr) (s t : State) (c : Cfg), i ≠ .status ∧ i ≠ .reset ∧ s.regs.mode ≠ .unconfigured ∧
      s.regs.cfg = some c ∧ exec i s = .next t := by
  obtain ⟨t, h, -⟩ := exists_next (o := exec .step (searching 3 low)) (fun _ => true) (by decide +kernel)
  exact ⟨.step, _, t, tiny.toCfg, by decide, by decide, by decide +kernel, rfl, h⟩

/-- Two rings in different rotations that show the same window. -/
theorem witness_RingIsHiddenBehindWindow :
    ∃ s s' t : State, s' = { s with regs := s'.regs } ∧ SameWindow s.regs s'.regs ∧ s.regs.ring ≠ s'.regs.ring ∧
      exec .step s = .next t := by
  let base := searching 3 low
  let s : State := { base with regs := { base.regs with ring := [(0, 1)], wp := 1 } }
  let s' : State := { base with regs := { base.regs with ring := [(2, 1)], wp := 0 } }
  obtain ⟨t, h, -⟩ := exists_next (o := exec .step s) (fun _ => true) (by decide +kernel)
  refine ⟨s, s', t, rfl, ⟨rfl, by decide +kernel, fun c hc => ?_⟩, by decide +kernel, h⟩
  cases hc
  decide +kernel

end Sys2Proof.Tests
end

section
/-!
PROOFS of the family 00_scope.md: a step runs the command that the host's word decodes to (20_memory.md R55, R66), and
`round` is the nearest integer, the even one at a tie (00_scope.md R10).
-/
namespace Sys2Proof.Proofs

open Sys2Proof.Machine Sys2Proof.Safety Sys2Proof.Laws

/-! ### The rounding of R10 on the real numbers -/

/-- What R10's rounding can answer: the integer below when `x` is at most `1 / 2` above it, the integer above when `x`
is at least `1 / 2` above it, and in either case the even one when the distance is exactly `1 / 2`. -/
theorem realRound_cases (x : ℝ) :
    (realRound x = ⌊x⌋ ∧ x - ⌊x⌋ ≤ 1 / 2 ∧ (x - ⌊x⌋ = 1 / 2 → ⌊x⌋ % 2 = 0)) ∨
    (realRound x = ⌊x⌋ + 1 ∧ 1 / 2 ≤ x - ⌊x⌋ ∧ (x - ⌊x⌋ = 1 / 2 → (⌊x⌋ + 1) % 2 = 0)) := by
  rw [realRound]
  split_ifs with hbelow habove heven
  · exact .inl ⟨rfl, hbelow.le, fun htie => absurd htie hbelow.ne⟩
  · exact .inr ⟨rfl, habove.le, fun htie => absurd htie habove.ne'⟩
  · exact .inl ⟨rfl, not_lt.mp habove, fun _ => heven⟩
  · exact .inr ⟨rfl, not_lt.mp hbelow, fun _ => by omega⟩

/-- R10's rounding is to the nearest integer. -/
theorem abs_sub_realRound_le (x : ℝ) : |x - realRound x| ≤ 1 / 2 := by
  have hfrac := Int.lt_floor_add_one x
  obtain ⟨hround, hrest, -⟩ | ⟨hround, hrest, -⟩ := realRound_cases x
  · rw [hround, abs_of_nonneg (sub_nonneg.mpr (Int.floor_le x))]
    exact hrest
  · rw [hround, abs_le]
    push_cast
    constructor <;> linarith

/-- At a tie R10's rounding gives the even integer. -/
theorem realRound_even_of_tie (x : ℝ) (htie : |x - realRound x| = 1 / 2) : realRound x % 2 = 0 := by
  have hfrac := Int.lt_floor_add_one x
  obtain ⟨hround, -, heven⟩ | ⟨hround, -, heven⟩ := realRound_cases x
  · rw [hround, abs_of_nonneg (sub_nonneg.mpr (Int.floor_le x))] at htie
    rw [hround]
    exact heven htie
  · rw [hround, Int.cast_add, Int.cast_one, abs_of_neg (by linarith)] at htie
    rw [hround]
    exact heven (by linarith)

/-! ### The statements

In a namespace of their own, so that the name of the settling theorem does not hide the model's `roundHalfEven`. -/

namespace Scope

/-- Settles O3: delivering a command is writing the two operand ports and taking the command off the host's list. -/
theorem stepRunsDecodedCommand : Obligations.StepRunsDecodedCommand :=
  fun s c rest i hhost hdecode => step_of_decode s c rest i hhost hdecode

/-- Settles O23: the machine's `round` of a formula is R10's rounding of the formula's real value. -/
theorem roundHalfEven : Obligations.RoundHalfEven := by
  intro x
  rw [roundHalfEven_eq]
  exact ⟨abs_sub_realRound_le x.toReal, realRound_even_of_tie x.toReal⟩

end Scope

end Sys2Proof.Proofs
end

section
/-!
PROOFS of the family 10_state.md: the record's invariant and the bound on the position, the derived registers and flags,
and what no command reads: the last result, `f_shift`, and the ring but through its window.
-/
namespace Sys2Proof.Proofs

open Sys2Proof.Machine Sys2Proof.Safety Sys2Proof.Laws

/-! ### R10's rounding against integers and in order -/

/-- R10's rounding keeps the order of the reals. -/
theorem realRound_mono {x y : ℝ} (hxy : x ≤ y) : realRound x ≤ realRound y := by
  by_contra! hlt
  have hx := (abs_le.mp (abs_sub_realRound_le x)).1
  have hy := (abs_le.mp (abs_sub_realRound_le y)).2
  have hstep : (realRound y : ℝ) + 1 ≤ realRound x := by exact_mod_cast hlt
  obtain rfl : x = y := by linarith
  exact lt_irrefl _ hlt

theorem realRound_le_of_le_natCast {x : ℝ} {n : Nat} (h : x ≤ n) : realRound x ≤ n := by
  have hx := (abs_le.mp (abs_sub_realRound_le x)).1
  have hlt : (realRound x : ℝ) < (n : ℝ) + 1 := by linarith
  exact Int.lt_add_one_iff.mp (by exact_mod_cast hlt)

theorem pos_of_one_le_realRound {x : ℝ} (h : 1 ≤ realRound x) : 0 < x := by
  have hx := (abs_le.mp (abs_sub_realRound_le x)).1
  have hone : (1 : ℝ) ≤ realRound x := by exact_mod_cast h
  linarith

/-! ### The operands of a valid record (R16, R17, R139) -/

theorem realMod_lt {fs f : ℝ} (hfs : 0 < fs) : realMod fs f < fs := by
  have h := (div_lt_iff₀ hfs).mp (Int.lt_floor_add_one (f / fs))
  rw [realMod]
  linarith

/-- A bin index is below `N` (R89): a rounded index is at most `N`, and `N` itself becomes bin 0. -/
theorem realBin_lt {fs f : ℝ} {n : Nat} (hfs : 0 < fs) (hn : 1 ≤ n) : realBin fs n f < n := by
  have hle : realMod fs f * n / fs ≤ n := by
    rw [div_le_iff₀ hfs, mul_comm]
    exact mul_le_mul_of_nonneg_left (realMod_lt hfs).le (Nat.cast_nonneg n)
  have hround := realRound_le_of_le_natCast hle
  rw [realBin]
  split <;> omega

theorem binIndex_lt {fs f : RealExpr} {n : Nat} (hfs : 0 < fs.toReal) (hn : 1 ≤ n) : binIndex fs n f < n := by
  rw [binIndex_eq]
  exact realBin_lt hfs hn

/-- The checks V1 to V8 of R139, in their order. -/
theorem valid_iff (p : Params) (r : ConfigRecord) :
    r.valid p = true ↔
      0 < r.fs.toReal ∧ (1 ≤ r.n ∧ r.n ≤ p.nMax) ∧ (1 ≤ r.c ∧ r.c ≤ r.n) ∧
      (1 ≤ r.wakeFreqs.length ∧ r.wakeFreqs.length ≤ Config.maxTones) ∧
      (1 ≤ r.expected.length ∧ r.expected.length ≤ Config.maxBits) ∧
      1 ≤ realRound (r.pw.toReal * r.fs.toReal / r.c) ∧ 0 ≤ r.pri.toReal ∧
      binIndex (.num r.fs) r.n r.fHi ≠ binIndex (.num r.fs) r.n r.fLo := by
  have hpri : (!(RealExpr.num r.pri).lt (.int 0)) = true ↔ 0 ≤ r.pri.toReal := by
    rw [Bool.not_eq_true', Bool.eq_false_iff, Ne, lt_iff]
    simp
  simp only [ConfigRecord.valid, Bool.and_eq_true, hpri, lt_iff, decide_eq_true_eq, chunksOf_eq, toReal_num, toReal_int,
    Int.cast_zero, and_assoc]

/-- The rounded pulse and period of a valid record, in order (R17): `1 ≤ W ≤ P`, because `PRI ≥ 0`. -/
theorem durations_of_valid {p : Params} {r : ConfigRecord} (h : r.valid p = true) :
    1 ≤ realRound (r.pw.toReal * r.fs.toReal / r.c) ∧
      realRound (r.pw.toReal * r.fs.toReal / r.c) ≤
        realRound ((r.pw.toReal + r.pri.toReal) * r.fs.toReal / r.c) := by
  obtain ⟨hfs, -, -, -, -, hw, hpri, -⟩ := (valid_iff p r).mp h
  refine ⟨hw, realRound_mono ?_⟩
  gcongr
  linarith

theorem toCfg_w (r : ConfigRecord) : r.toCfg.w = (realRound (r.pw.toReal * r.fs.toReal / r.c)).toNat := by
  simp [ConfigRecord.toCfg, chunksOf_eq]

theorem toCfg_p (r : ConfigRecord) :
    r.toCfg.p = (realRound ((r.pw.toReal + r.pri.toReal) * r.fs.toReal / r.c)).toNat := by
  simp [ConfigRecord.toCfg, chunksOf_eq, ConfigRecord.period]

/-- Settles O21: V1, V2, V6 and V7 bound what CONFIGURE derives. -/
theorem derivedRegistersInRange : Obligations.DerivedRegistersInRange := by
  intro p r hvalid
  obtain ⟨hfs, ⟨hn, -⟩, ⟨hc, -⟩, -, -, hw, -, -⟩ := (valid_iff p r).mp hvalid
  obtain ⟨-, hwp⟩ := durations_of_valid hvalid
  have hpw : 0 < r.pw.toReal :=
    (mul_pos_iff_of_pos_right hfs).mp
      ((div_pos_iff_of_pos_right (by exact_mod_cast hc)).mp (pos_of_one_le_realRound hw))
  rw [toCfg_w, toCfg_p]
  refine ⟨by omega, by omega, by omega, by omega, binIndex_lt hfs hn, binIndex_lt hfs hn, List.length_map _,
    fun b hb => ?_, hpw⟩
  obtain ⟨f, -, rfl⟩ := List.mem_map.mp hb
  exact binIndex_lt hfs hn

/-! ### The derived flags (R27 to R29) -/

/-- The number of set flags, counted by position (R28). -/
theorem count_true_eq_card (l : List Bool) :
    l.count true = ((Finset.range l.length).filter fun i => l.getD i false = true).card := by
  rw [Finset.card_filter]
  induction l with
  | nil => rfl
  | cons f l ih =>
    rw [List.count_cons, ih, List.length_cons, Finset.sum_range_succ']
    simp only [List.getD_cons_succ, List.getD_cons_zero, beq_iff_eq]

/-- With paired vectors, `earliest` is the least recorded time (R29). -/
theorem earliest_eq_some_iff {S : Regs} (h : S.flag = S.time.map Option.isSome) (t : Nat) :
    earliest S = some t ↔ some t ∈ S.time ∧ ∀ u, some u ∈ S.time → t ≤ u := by
  rw [earliest_eq S h, List.min?_eq_some_iff]
  simp

/-- With paired vectors, there is no `earliest` exactly when no flag is set (R29). -/
theorem earliest_eq_none_iff {S : Regs} (h : S.flag = S.time.map Option.isSome) :
    earliest S = none ↔ ∀ f ∈ S.flag, f = false := by
  rw [earliest_eq S h, List.min?_eq_none_iff, List.filterMap_eq_nil_iff, h]
  simp

theorem forall_mem_iff_getD (l : List Bool) (b : Bool) :
    (∀ f ∈ l, f = b) ↔ ∀ i < l.length, l.getD i false = b := by
  simp +contextual [List.forall_mem_iff_forall_getElem, List.getD_eq_getElem?_getD]

/-- Settles O56: each derived flag, read off the vectors position by position. -/
theorem derivedFlags : Obligations.DerivedFlags := by
  intro S hpaired
  refine ⟨?_, count_true_eq_card S.flag, ?_, earliest_eq_some_iff hpaired⟩
  · rw [armed_iff, forall_mem_iff_getD, Nat.one_le_iff_ne_zero, Ne, Ne, List.length_eq_zero_iff]
  · rw [earliest_eq_none_iff hpaired, forall_mem_iff_getD]
    refine ⟨fun h i => ?_, fun h i _ => h i⟩
    rcases lt_or_ge i S.flag.length with hi | hi
    · exact h i hi
    · exact List.getD_eq_default _ _ hi

/-! ### What a command never reads: the last result -/

/-- A command other than STATUS clears the last result and overwrites the result port before it reads either (R40,
R150). -/
theorem exec_of_otherLast (i : Instr) (s : State) (l : Last) (r : ResultPort) (hi : i ≠ .status) :
    exec i { s with regs := { s.regs with last := l }, result := r } = exec i s := by
  cases i with
  | reset => rfl
  | configure => rfl
  | step => rfl
  | stop => rfl
  | status => exact absurd rfl hi

/-- Settles O58. Every command but STATUS answers from a record whose last result it has overwritten. -/
theorem lastResultIsNeverRead : Obligations.LastResultIsNeverRead :=
  fun i s _ l r hi h => (exec_of_otherLast i s l r hi).trans h

/-! ### STEP, one equation for each of its checks (R140) -/

theorem execStep_of_terminal {s : State} (hmode : s.regs.mode.isTerminal = true) :
    execStep s = .next (s.respond (ignoreCommand s.regs)) := if_pos hmode

theorem execStep_of_unconfigured {s : State} (hmode : s.regs.mode = .unconfigured) :
    execStep s = .next (s.respond (raiseFault .notConfigured s.regs)) := by
  simp [execStep, hmode, Mode.isTerminal]

theorem execStep_of_configured {s : State} {c : Cfg}
    (hmode : s.regs.mode = .searchingWakeup ∨ s.regs.mode = .decodingRelease) (hcfg : s.regs.cfg = some c) :
    execStep s = stepConfigured s c := by
  rcases hmode with hmode | hmode <;> simp [execStep, hmode, hcfg, Mode.isTerminal]

theorem stepConfigured_of_wrongLength {s : State} {c : Cfg} (hlen : s.chunkPort.length ≠ c.c) :
    stepConfigured s c = .next (s.respond (raiseFault .chunkSize s.regs)) := if_pos hlen

theorem stepConfigured_of_allowed {s : State} {c : Cfg} (hlen : s.chunkPort.length = c.c)
    (hpush : pushAllowed s.params c.n s.chunkPort = true) :
    stepConfigured s c = .next (s.respond (cycle s.params c s.chunkPort (clearLast s.regs))) := by
  rw [stepConfigured, if_neg (not_not_intro hlen), if_pos hpush]

theorem pushAllowed_iff (p : Params) (n : Nat) (chunk : List Sample) :
    pushAllowed p n chunk = true ↔ 1 ≤ chunk.length ∧ chunk.length ≤ n ∧ n ≤ p.nMax := by
  simp [pushAllowed, and_assoc]

/-! ### What a cycle never reads: the ring but through the window, and the record's own configuration value -/

/-- The phase of a cycle, chosen by the mode (R141, R142), on the record that has taken the chunk. -/
def phase (p : Params) (c : Cfg) (S : Regs) : Regs :=
  if S.mode = .searchingWakeup then searchPhase p c S else decodePhase p c S

theorem cycle_eq_phase (p : Params) (c : Cfg) (chunk : List Sample) (S : Regs) :
    cycle p c chunk S = phase p c (takeChunk c chunk S) := rfl

/-- `S` with another configuration value, ring and write pointer. -/
def reseat (g : Option Cfg) (m : Memory) (w : Nat) (S : Regs) : Regs := { S with cfg := g, ring := m, wp := w }

theorem wakeStepWith_reseat (p : Params) (d : List Bool) (g : Option Cfg) (m : Memory) (w : Nat) (S : Regs) :
    wakeStepWith p d (reseat g m w S) = (reseat g m w (wakeStepWith p d S).1, (wakeStepWith p d S).2) := by
  have hacquire : acquire d (reseat g m w S) = reseat g m w (acquire d S) := rfl
  have hstale : isStale p (reseat g m w (acquire d S)) = isStale p (acquire d S) := rfl
  rw [wakeStepWith, wakeStepWith, hacquire, hstale]
  cases isStale p (acquire d S) <;> rfl

theorem decodeStepWith_reseat (p : Params) (c : Cfg) (sym : Int) (g : Option Cfg) (m : Memory) (w : Nat) (S : Regs) :
    decodeStepWith p c sym (reseat g m w S) =
      (reseat g m w (decodeStepWith p c sym S).1, (decodeStepWith p c sym S).2) := rfl

theorem settle_reseat (p : Params) (c : Cfg) (r : DecodeResult) (g : Option Cfg) (m : Memory) (w : Nat) (S : Regs) :
    settle p c r (reseat g m w S) = reseat g m w (settle p c r S) := by
  have hverify : verify p c r.bits (append r.bits (reseat g m w S)) = verify p c r.bits (append r.bits S) := rfl
  rw [settle, settle, hverify]
  split
  · rfl
  · split <;> rfl

/-- DETECT reads the ring through the window alone (R23, R101). -/
theorem detect_congr {n : Nat} {S S' : Regs} (h : window n S' = window n S) (bins : List Nat) (θ : RealNum) :
    detect n S' bins θ = detect n S bins θ := by rw [detect, detect, h]

/-- A phase neither reads nor writes the record's configuration value, its ring or its pointer, but that DETECT reads
the window. -/
theorem phase_reseat (p : Params) (c : Cfg) (g : Option Cfg) (m : Memory) (w : Nat) (S : Regs)
    (hwindow : window c.n (reseat g m w S) = window c.n S) :
    phase p c (reseat g m w S) = reseat g m w (phase p c S) := by
  have hmode : (reseat g m w S).mode = S.mode := rfl
  rw [phase, phase, hmode]
  split
  · rw [searchPhase, searchPhase, wakeStep, wakeStep, detect_congr hwindow, wakeStepWith_reseat]
    cases (wakeStepWith p (detect c.n S c.wakeBin c.thetaW) S).2 <;> rfl
  · rw [decodePhase, decodePhase, decodeStep, decodeStep, detect_congr hwindow, decodeStepWith_reseat, settle_reseat]

theorem phase_eq_reseat (p : Params) (c : Cfg) (S : Regs) :
    phase p c S = reseat S.cfg S.ring S.wp (phase p c S) := phase_reseat p c S.cfg S.ring S.wp S rfl

/-- A cycle writes no configuration register (R18). -/
@[simp] theorem cycle_cfg (p : Params) (c : Cfg) (chunk : List Sample) (S : Regs) :
    (cycle p c chunk S).cfg = S.cfg := by rw [cycle_eq_phase, phase_eq_reseat]; rfl

/-- A cycle writes the ring by its PUSH alone (R141). -/
@[simp] theorem cycle_ring (p : Params) (c : Cfg) (chunk : List Sample) (S : Regs) :
    (cycle p c chunk S).ring = (push c.n chunk S).ring := by rw [cycle_eq_phase, phase_eq_reseat]; rfl

@[simp] theorem cycle_wp (p : Params) (c : Cfg) (chunk : List Sample) (S : Regs) :
    (cycle p c chunk S).wp = (push c.n chunk S).wp := by rw [cycle_eq_phase, phase_eq_reseat]; rfl

/-- A cycle does the same on a record with another configuration value, ring and pointer, if the window it pushes to is
the same. -/
theorem cycle_reseat (p : Params) (c : Cfg) (chunk : List Sample) (g : Option Cfg) (m : Memory) (w : Nat) (S : Regs)
    (hwindow : window c.n (push c.n chunk (reseat g m w S)) = window c.n (push c.n chunk S)) :
    cycle p c chunk (reseat g m w S) =
      reseat g (push c.n chunk (reseat g m w S)).ring (push c.n chunk (reseat g m w S)).wp (cycle p c chunk S) :=
  phase_reseat p c g _ _ (takeChunk c chunk S) hwindow

/-- `f` neither reads nor writes the record's configuration value, its ring or its pointer. -/
def IgnoresSeat (f : Regs → Regs) (S : Regs) : Prop :=
  ∀ (g : Option Cfg) (m : Memory) (w : Nat), f (reseat g m w S) = reseat g m w (f S)

section

variable {f : Regs → Regs} {S : Regs}

theorem IgnoresSeat.eq_reseat (hf : IgnoresSeat f S) : f S = reseat S.cfg S.ring S.wp (f S) := hf S.cfg S.ring S.wp

theorem IgnoresSeat.cfg (hf : IgnoresSeat f S) : (f S).cfg = S.cfg := by rw [hf.eq_reseat]; rfl

theorem IgnoresSeat.ring (hf : IgnoresSeat f S) : (f S).ring = S.ring := by rw [hf.eq_reseat]; rfl

theorem IgnoresSeat.wp (hf : IgnoresSeat f S) : (f S).wp = S.wp := by rw [hf.eq_reseat]; rfl

end

theorem ignoresSeat_ignoreCommand (S : Regs) : IgnoresSeat ignoreCommand S := fun _ _ _ => rfl

theorem ignoresSeat_raiseFault (cause : FaultCause) (S : Regs) : IgnoresSeat (raiseFault cause) S := fun _ _ _ => rfl

theorem ignoresSeat_stopRegs (S : Regs) : IgnoresSeat stopRegs S := by
  intro g m w
  have hmode : (reseat g m w S).mode = S.mode := rfl
  rw [stopRegs, stopRegs, hmode]
  split <;> rfl

/-- A CONFIGURE that is not accepted is ignored or faults (R138). -/
theorem ignoresSeat_configureRegs {p : Params} {r : ConfigRecord} {S : Regs}
    (h : ¬(S.mode = .unconfigured ∧ r.lookupOk = true ∧ r.valid p = true)) : IgnoresSeat (configureRegs p r) S := by
  intro g m w
  have hmode : (reseat g m w S).mode = S.mode := rfl
  rw [configureRegs, configureRegs, hmode]
  split_ifs with hterm hun hlookup hvalid
  · rfl
  · rfl
  · rfl
  · rfl
  · exact absurd ⟨not_not.mp hun, Bool.eq_true_of_not_eq_false hlookup, Bool.eq_true_of_not_eq_false hvalid⟩ h

theorem configureRegs_of_accepted {p : Params} {r : ConfigRecord} {S : Regs} (hmode : S.mode = .unconfigured)
    (hlookup : r.lookupOk = true) (hvalid : r.valid p = true) : configureRegs p r S = configureWith r S := by
  simp [configureRegs, hmode, hlookup, hvalid, Mode.isTerminal]

/-! ### No rule reads `f_shift` (90_conflicts.md C1) -/

/-- The record `S` with the configuration registers `c`, but for another `f_shift`. -/
def withShift (f : RealNum) (c : Cfg) (S : Regs) : Regs := { S with cfg := some { c with fShift := f } }

theorem withShift_eq_reseat (f : RealNum) (c : Cfg) (S : Regs) :
    withShift f c S = reseat (some { c with fShift := f }) S.ring S.wp S := rfl

/-- A cycle reads every register of the configuration it is handed but `f_shift`. -/
theorem cycle_otherShift (p : Params) (c : Cfg) (f : RealNum) (chunk : List Sample) (S : Regs) :
    cycle p { c with fShift := f } chunk S = cycle p c chunk S := rfl

theorem cycle_withShift (p : Params) (c : Cfg) (f : RealNum) (chunk : List Sample) (S : Regs) :
    cycle p { c with fShift := f } chunk (withShift f c S) = withShift f c (cycle p c chunk S) := by
  rw [cycle_otherShift, withShift_eq_reseat, cycle_reseat p c chunk (some { c with fShift := f }) S.ring S.wp S rfl,
    withShift_eq_reseat, cycle_ring, cycle_wp]
  rfl

theorem IgnoresSeat.map_withShift {F : Regs → Regs} {S : Regs} (hF : IgnoresSeat F S) (f : RealNum) (c : Cfg) :
    F (withShift f c S) = withShift f c (F S) := by
  rw [withShift_eq_reseat, hF, hF.eq_reseat]
  rfl

theorem execStep_withShift {s t : State} {c : Cfg} (f : RealNum) (hmode : s.regs.mode ≠ .unconfigured)
    (hcfg : s.regs.cfg = some c) (h : execStep s = .next t) :
    execStep { s with regs := withShift f c s.regs } = .next { t with regs := withShift f c t.regs } := by
  rcases execStep_cases s with ⟨hterm, e⟩ | ⟨hun, -⟩ | ⟨-, hnone, -⟩ | ⟨hcycle, c', hcfg', hchunk⟩
  · cases e.symm.trans h
    exact execStep_of_terminal hterm
  · exact absurd hun hmode
  · cases hcfg.symm.trans hnone
  · cases hcfg.symm.trans hcfg'
    refine (execStep_of_configured (s := { s with regs := withShift f c s.regs }) hcycle rfl).trans ?_
    rcases hchunk with ⟨hlen, e⟩ | ⟨hlen, hpush, e⟩ | ⟨-, -, e⟩
    · cases e.symm.trans h
      exact stepConfigured_of_wrongLength hlen
    · cases e.symm.trans h
      refine (stepConfigured_of_allowed (s := { s with regs := withShift f c s.regs }) hlen hpush).trans ?_
      exact congrArg (fun R => Host.Outcome.next (s.respond R))
        (cycle_withShift s.params c f s.chunkPort (clearLast s.regs))
    · cases e.symm.trans h

/-- Settles O59: on a configured core CONFIGURE is ignored or faults, and a cycle reads every register but `f_shift`. -/
theorem frequencyShiftIsNeverRead : Obligations.FrequencyShiftIsNeverRead := by
  intro i s t c f hstatus hreset hmode hcfg h
  cases i with
  | reset => exact absurd rfl hreset
  | status => exact absurd rfl hstatus
  | step => exact execStep_withShift f hmode hcfg h
  | configure =>
    cases h
    have hkeep := ignoresSeat_configureRegs (p := s.params) (r := s.cfgPort) fun haccepted => hmode haccepted.1
    exact congrArg (fun R => Host.Outcome.next (s.respond R)) (hkeep.map_withShift f c)
  | stop =>
    cases h
    exact congrArg (fun R => Host.Outcome.next (s.respond R)) ((ignoresSeat_stopRegs s.regs).map_withShift f c)

/-! ### The ring is hidden behind its window (R23) -/

theorem window_congr (n : Nat) {S S' : Regs} (hring : S'.ring = S.ring) (hwp : S'.wp = S.wp) :
    window n S' = window n S := by rw [window, window, hring, hwp]

/-- On the window, PUSH drops the oldest samples and appends the chunk (R82). -/
theorem window_push {n : Nat} {chunk : List Sample} {S : Regs} (hwf : S.ring.wf) (hlen : chunk.length ≤ n) :
    window n (push n chunk S) = (window n S).drop chunk.length ++ chunk := by
  refine List.ext_getElem (by simp; omega) fun i hi _ => ?_
  rw [length_window] at hi
  rw [getElem_window, push_ring, push_wp, Nat.mod_add_mod]
  rcases lt_or_ge i (n - chunk.length) with hold | hnew
  · rw [List.getElem_append_left (by simpa using hold), List.getElem_drop, getElem_window, ← add_assoc]
    refine read_pushSamples_of_ne n S.wp 0 chunk S.ring hwf _ fun j hj heq => ?_
    have := slot_injective n S.wp (chunk.length + i) (0 + j) (by omega) (by omega) (by rwa [← add_assoc])
    omega
  · obtain ⟨j, rfl⟩ := Nat.exists_eq_add_of_le hnew
    have hslot : (S.wp + chunk.length + (n - chunk.length + j)) % n = (S.wp + (0 + j)) % n := by
      rw [show S.wp + chunk.length + (n - chunk.length + j) = S.wp + (0 + j) + n by omega, Nat.add_mod_right]
    rw [hslot, read_pushSamples_slot n S.wp 0 chunk S.ring hwf j (by omega) (by omega),
      List.getElem_append_right (by simp)]
    simp

theorem sameWindow_refl {S : Regs} (h : S.ring.wf) : SameWindow S S := ⟨rfl, ⟨h, h⟩, fun _ _ => rfl⟩

/-- A cycle on two records with one window leaves records with one window again. -/
theorem sameWindow_cycle {S S' : Regs} {c : Cfg} (p : Params) {chunk : List Sample} (h : SameWindow S S')
    (hcfg : S.cfg = some c) (hlen : chunk.length ≤ c.n) :
    SameWindow (cycle p c chunk S) (cycle p c chunk S') := by
  obtain ⟨hrest, ⟨hwf, hwf'⟩, hwindow⟩ := h
  have hpushed : window c.n (push c.n chunk S') = window c.n (push c.n chunk S) := by
    rw [window_push hwf' hlen, window_push hwf hlen, hwindow c hcfg]
  have hseat : S' = reseat S.cfg S'.ring S'.wp S := hrest
  have hcycle : cycle p c chunk S' =
      reseat S.cfg (push c.n chunk S').ring (push c.n chunk S').wp (cycle p c chunk S) := by
    rw [hseat] at hpushed ⊢
    exact cycle_reseat p c chunk _ _ _ S hpushed
  refine ⟨?_, ⟨?_, ?_⟩, fun c' hc' => ?_⟩
  · rw [cycle_ring, cycle_wp, hcycle, ← cycle_cfg p c chunk S]
    rfl
  · rw [cycle_ring]
    exact wf_pushSamples _ _ _ _ _ hwf
  · rw [cycle_ring]
    exact wf_pushSamples _ _ _ _ _ hwf'
  · rw [cycle_cfg, hcfg] at hc'
    cases hc'
    rw [window_congr c.n (cycle_ring p c chunk S) (cycle_wp p c chunk S),
      window_congr c.n (cycle_ring p c chunk S') (cycle_wp p c chunk S'), hpushed]

/-- What ignores the ring and its pointer keeps the windows equal. -/
theorem IgnoresSeat.sameWindow {f : Regs → Regs} {S S' : Regs} (hf : IgnoresSeat f S) (h : SameWindow S S') :
    SameWindow (f S) (f S') := by
  obtain ⟨hrest, ⟨hwf, hwf'⟩, hwindow⟩ := h
  have hseat : S' = reseat S.cfg S'.ring S'.wp S := hrest
  have hf' : f S' = reseat S.cfg S'.ring S'.wp (f S) := by rw [← hf, ← hseat]
  have hring' : (f S').ring = S'.ring := by rw [hf']; rfl
  have hwp' : (f S').wp = S'.wp := by rw [hf']; rfl
  refine ⟨?_, ⟨by rwa [hf.ring], by rwa [hring']⟩, fun c hc => ?_⟩
  · rw [hring', hwp', hf', ← hf.cfg]
    rfl
  · rw [window_congr c.n hf.ring hf.wp, window_congr c.n hring' hwp']
    exact hwindow c (hf.cfg ▸ hc)

theorem sameWindow_configureRegs (p : Params) (r : ConfigRecord) {S S' : Regs} (h : SameWindow S S') :
    SameWindow (configureRegs p r S) (configureRegs p r S') := by
  by_cases haccepted : S.mode = .unconfigured ∧ r.lookupOk = true ∧ r.valid p = true
  · obtain ⟨hmode, hlookup, hvalid⟩ := haccepted
    have hmode' : S'.mode = .unconfigured := by rw [h.rest]; exact hmode
    have hsame : configureWith r S' = configureWith r S := by rw [h.rest]; rfl
    rw [configureRegs_of_accepted hmode hlookup hvalid, configureRegs_of_accepted hmode' hlookup hvalid, hsame]
    exact sameWindow_refl wf_nil
  · exact (ignoresSeat_configureRegs haccepted).sameWindow h

/-- STEP on two records with one window takes the same branch (R140) and leaves records with one window. -/
theorem execStep_sameWindow {s t : State} {S' : Regs} (h : SameWindow s.regs S') (hstep : execStep s = .next t) :
    ∃ R R', t = s.respond R ∧ execStep { s with regs := S' } = .next (s.respond R') ∧ SameWindow R R' := by
  have hmode : S'.mode = s.regs.mode := by rw [h.rest]
  have hcfg' : S'.cfg = s.regs.cfg := by rw [h.rest]
  rcases execStep_cases s with ⟨hterm, e⟩ | ⟨hun, e⟩ | ⟨-, -, e⟩ | ⟨hcycle, c, hcfg, hchunk⟩
  · cases e.symm.trans hstep
    exact ⟨_, _, rfl, execStep_of_terminal (s := { s with regs := S' }) (by rwa [hmode]),
      (ignoresSeat_ignoreCommand s.regs).sameWindow h⟩
  · cases e.symm.trans hstep
    exact ⟨_, _, rfl, execStep_of_unconfigured (s := { s with regs := S' }) (by rwa [hmode]),
      (ignoresSeat_raiseFault .notConfigured s.regs).sameWindow h⟩
  · cases e.symm.trans hstep
  · have hrun : execStep { s with regs := S' } = stepConfigured { s with regs := S' } c :=
      execStep_of_configured (by rwa [hmode]) (by rwa [hcfg'])
    rcases hchunk with ⟨hlen, e⟩ | ⟨hlen, hpush, e⟩ | ⟨-, -, e⟩
    · cases e.symm.trans hstep
      exact ⟨_, _, rfl, hrun.trans (stepConfigured_of_wrongLength hlen),
        (ignoresSeat_raiseFault .chunkSize s.regs).sameWindow h⟩
    · cases e.symm.trans hstep
      have hclear : SameWindow (clearLast s.regs) (clearLast S') :=
        IgnoresSeat.sameWindow (f := clearLast) (fun _ _ _ => rfl) h
      have hfits := ((pushAllowed_iff _ _ _).mp hpush).2.1
      exact ⟨_, _, rfl, hrun.trans (stepConfigured_of_allowed hlen hpush), sameWindow_cycle s.params hclear hcfg hfits⟩
    · cases e.symm.trans hstep

theorem resultRecord_of_sameWindow {S S' : Regs} (h : SameWindow S S') : resultRecord S' = resultRecord S := by
  have hcfg : S'.cfg = S.cfg := by rw [h.rest]
  have hwindow : statusWindow S' = statusWindow S := by
    rw [statusWindow, statusWindow, hcfg]
    cases hc : S.cfg with
    | none => rfl
    | some c => exact (h.window c hc).symm
  rw [resultRecord, hwindow, h.rest]
  rfl

/-- The result port carries nothing of a record but what two records with one window share. -/
theorem respond_of_sameWindow (s : State) {R R' : Regs} (h : SameWindow R R') :
    s.respond R' = { s.respond R with regs := R' } := by
  have hword : statusWord R' = statusWord R := by rw [h.rest]; rfl
  rw [State.respond, hword]
  rfl

theorem respondStatus_of_sameWindow (s : State) {S' : Regs} (h : SameWindow s.regs S') :
    State.respondStatus { s with regs := S' } = { s.respondStatus with regs := S' } := by
  have hword : statusWord S' = statusWord s.regs := by rw [h.rest]; rfl
  simp [State.respondStatus, hword, resultRecord_of_sameWindow h]

/-- Settles O60: every command commutes with exchanging the ring for one that shows the same window. -/
theorem ringIsHiddenBehindWindow : Obligations.RingIsHiddenBehindWindow := by
  intro i s s' t hs h hexec
  obtain ⟨S', rfl⟩ : ∃ S', s' = { s with regs := S' } := ⟨_, hs⟩
  have answer : ∀ {R R' : Regs}, t = s.respond R → exec i { s with regs := S' } = .next (s.respond R') →
      SameWindow R R' → ∃ t', exec i { s with regs := S' } = .next t' ∧ t' = { t with regs := t'.regs } ∧
        SameWindow t.regs t'.regs := by
    rintro R R' rfl hrun hR
    exact ⟨_, hrun, respond_of_sameWindow s hR, hR⟩
  cases i with
  | reset =>
    cases hexec
    exact answer rfl rfl (sameWindow_refl wf_nil)
  | configure =>
    cases hexec
    exact answer rfl rfl (sameWindow_configureRegs s.params s.cfgPort h)
  | stop =>
    cases hexec
    exact answer rfl rfl ((ignoresSeat_stopRegs s.regs).sameWindow h)
  | status =>
    cases hexec
    exact ⟨_, rfl, respondStatus_of_sameWindow s h, h⟩
  | step =>
    obtain ⟨R, R', ht, hrun, hR⟩ := execStep_sameWindow h hexec
    exact answer ht hrun hR

/-! ### Everything one step can leave in the record -/

/-- What one step from `s` can leave in the record: one constructor for each kind of effect, with its condition. -/
inductive RecordEffect (s : State) : Regs → Prop where
  /-- STATUS, or no command to come (R145, R167). -/
  | kept : RecordEffect s s.regs
  /-- RESET (R137). -/
  | reset (h : HostCommand) (rest : List HostCommand) (host : s.host = h :: rest) (word : decode h.word = .ok .reset) :
      RecordEffect s Regs.reset
  /-- A command or word ignored in a terminal mode (R147). -/
  | ignored (mode : s.regs.mode.isTerminal = true) : RecordEffect s (ignoreCommand s.regs)
  /-- A fault (R154). -/
  | faulted (cause : FaultCause) (some_cause : cause ≠ .none) (mode : s.regs.mode.isTerminal = false) :
      RecordEffect s (raiseFault cause s.regs)
  /-- STOP (R144). -/
  | stopped (mode : s.regs.mode.isTerminal = false) : RecordEffect s { clearLast s.regs with mode := .stopped }
  /-- An accepted CONFIGURE (R138). -/
  | configured (h : HostCommand) (rest : List HostCommand) (host : s.host = h :: rest)
      (word : decode h.word = .ok .configure) (mode : s.regs.mode = .unconfigured) (lookup : h.cfgPort.lookupOk = true)
      (valid : h.cfgPort.valid s.params = true) : RecordEffect s (configureWith h.cfgPort s.regs)
  /-- A STEP that runs its cycle (R140, R141). -/
  | cycled (c : Cfg) (chunk : List Sample) (mode : s.regs.mode = .searchingWakeup ∨ s.regs.mode = .decodingRelease)
      (cfg : s.regs.cfg = some c) (length : chunk.length = c.c) :
      RecordEffect s (cycle s.params c chunk (clearLast s.regs))

theorem not_isTerminal_of_runs {m : Mode} (h : m = .searchingWakeup ∨ m = .decodingRelease) : m.isTerminal = false := by
  rcases h with rfl | rfl <;> rfl

theorem recordEffect_configure {s : State} {h : HostCommand} {rest : List HostCommand} (host : s.host = h :: rest)
    (word : decode h.word = .ok .configure) : RecordEffect s (configureRegs s.params h.cfgPort s.regs) := by
  rcases configureRegs_cases s.params h.cfgPort s.regs with ⟨hm, e⟩ | ⟨hm, e⟩ | ⟨hm, -, e⟩ | ⟨hm, -, -, e⟩ |
    ⟨hm, hlookup, hvalid, e⟩ <;> rw [e]
  · exact .ignored hm
  · exact .faulted _ nofun (not_isTerminal_of_runs hm)
  · exact .faulted _ nofun (by rw [hm]; rfl)
  · exact .faulted _ nofun (by rw [hm]; rfl)
  · exact .configured h rest host word hm hlookup hvalid

theorem recordEffect_stop (s : State) : RecordEffect s (stopRegs s.regs) := by
  rcases stopRegs_cases s.regs with ⟨hm, e⟩ | ⟨hm, e⟩ <;> rw [e]
  · exact .ignored hm
  · exact .stopped hm

theorem recordEffect_illegal (s : State) : RecordEffect s (illegalRegs s.regs) := by
  rcases illegalRegs_cases s.regs with ⟨hm, e⟩ | ⟨hm, e⟩ <;> rw [e]
  · exact .ignored hm
  · exact .faulted _ nofun hm

theorem recordEffect_execStep {s t : State} {h : HostCommand} {rest : List HostCommand}
    (hstep : execStep (s.deliver h rest) = .next t) : RecordEffect s t.regs := by
  rcases execStep_cases (s.deliver h rest) with ⟨hm, e⟩ | ⟨hm, e⟩ | ⟨-, -, e⟩ |
    ⟨hm, c, hcfg, ⟨-, e⟩ | ⟨hlen, -, e⟩ | ⟨-, -, e⟩⟩ <;> cases e.symm.trans hstep
  · exact .ignored hm
  · exact .faulted _ nofun (show s.regs.mode.isTerminal = false by rw [show s.regs.mode = _ from hm]; rfl)
  · exact .faulted _ nofun (not_isTerminal_of_runs hm)
  · exact .cycled c h.chunkPort hm hcfg hlen

/-- A step keeps the parameters, and its effect on the record is one of those above. -/
theorem recordEffect_of_step {s t : State} (hstep : step s = .next t) :
    t.params = s.params ∧ RecordEffect s t.regs := by
  rcases step_cases hstep with ⟨-, rfl⟩ | ⟨h, rest, hhost, ⟨i, hword, hexec⟩ | ⟨-, hexec⟩⟩
  · exact ⟨rfl, .kept⟩
  · refine ⟨by rw [exec_frame i _ t hexec]; rfl, ?_⟩
    cases i with
    | reset =>
      cases hexec
      exact .reset h rest hhost hword
    | configure =>
      cases hexec
      exact recordEffect_configure hhost hword
    | step => exact recordEffect_execStep hexec
    | stop =>
      cases hexec
      exact recordEffect_stop s
    | status =>
      cases hexec
      exact .kept
  · cases hexec
    exact ⟨rfl, recordEffect_illegal s⟩

/-- Settles O22, by the effects of a step. -/
theorem configurationIsReadOnly : Obligations.ConfigurationIsReadOnly := by
  intro s t hstep
  obtain ⟨-, heffect⟩ := recordEffect_of_step hstep
  generalize t.regs = S' at heffect ⊢
  cases heffect with
  | kept => exact .inl rfl
  | reset h rest host word => exact .inr ⟨h, rest, host, .inl ⟨word, rfl⟩⟩
  | ignored _ => exact .inl rfl
  | faulted _ _ _ => exact .inl rfl
  | stopped _ => exact .inl rfl
  | configured h rest host word mode _ _ => exact .inr ⟨h, rest, host, .inr ⟨word, mode, rfl⟩⟩
  | cycled c chunk _ _ _ => exact .inl (cycle_cfg _ c chunk _)

/-! ### The invariant, clause by clause: what each depends on -/

/-- What the invariant says of the last result (R40, R70). -/
def LastLegal (l : Last) : Prop :=
  (l.rearmCause = .none ↔ l.evRearm = false) ∧ (l.evBitValid = false → l.evBit = .zero)

theorem lastLegal_clear : LastLegal Last.clear := ⟨iff_of_true rfl rfl, fun _ => rfl⟩

theorem ringLegal_congr {n : Nat} {S S' : Regs} (h : RingLegal n S) (hring : S'.ring = S.ring) (hwp : S'.wp = S.wp) :
    RingLegal n S' := ⟨hring ▸ h.canonical, hring ▸ h.active, hwp ▸ h.pointer⟩

theorem wakeUpLegal_congr {c : Cfg} {S S' : Regs} (h : WakeUpLegal c S) (hflag : S'.flag = S.flag)
    (htime : S'.time = S.time) (hpos : S.pos ≤ S'.pos) : WakeUpLegal c S' :=
  ⟨htime ▸ h.tones, hflag ▸ htime ▸ h.paired, fun t ht => (h.past t (htime ▸ ht)).trans hpos⟩

theorem decoderLegal_congr {c : Cfg} {S S' : Regs} (h : DecoderLegal c S) (hk : S'.k = S.k) (hacc : S'.acc = S.acc)
    (hnbits : S'.nbits = S.nbits) (hmsg : S'.msg = S.msg) : DecoderLegal c S' :=
  ⟨hk ▸ h.phase, hk ▸ hacc ▸ h.sum, hnbits ▸ h.count, hmsg ▸ hnbits ▸ h.message⟩

theorem cfgLegal_bounds {p : Params} {c : Cfg} (h : CfgLegal p c) : 1 ≤ c.n ∧ 1 ≤ c.l ∧ 1 ≤ c.p := by
  obtain ⟨r, -, hvalid, rfl⟩ := h
  obtain ⟨-, ⟨hn, -⟩, -, -, ⟨hl, -⟩, -⟩ := (valid_iff p r).mp hvalid
  obtain ⟨hw, hwp, -⟩ := derivedRegistersInRange p r hvalid
  exact ⟨hn, hl, hw.trans hwp⟩

/-! ### Commands that turn away (R144, R147, R154) -/

/-- A record of another mode, fault and last result stays legal, if the mode is kept or becomes `STOPPED` or `FAULTED`,
which lay down nothing of their own. -/
theorem regsLegal_withMode {p : Params} {S : Regs} (h : RegsLegal p S) {m : Mode} {e : FaultCause} {l : Last}
    (hmode : m = S.mode ∨ m = .stopped ∨ m = .faulted) (hfault : e = .none ↔ m ≠ .faulted) (hlast : LastLegal l) :
    RegsLegal p { S with mode := m, fault := e, last := l } where
  unconfigured hm := by
    rcases hmode with rfl | rfl | rfl
    · exact h.unconfigured hm
    · cases hm
    · cases hm
  absent hcfg := by
    obtain ⟨hclear, hmodes⟩ := h.absent hcfg
    refine ⟨congrArg (fun R : Regs => { R with mode := m, fault := e, last := l }) hclear, ?_⟩
    rcases hmode with rfl | rfl | rfl
    · exact hmodes
    · exact .inr (.inl rfl)
    · exact .inr (.inr rfl)
  present c hcfg := by
    obtain ⟨hc, hring, hwake, hdec, hsearching, hdecoding, hreleased⟩ := h.present c hcfg
    have hkept : ∀ {m' : Mode}, m' ≠ .stopped → m' ≠ .faulted → m = m' → S.mode = m' := by
      rintro m' hs hf rfl
      rcases hmode with hm | hm | hm
      · exact hm.symm
      · exact absurd hm hs
      · exact absurd hm hf
    exact {
      cfg := hc
      ring := ringLegal_congr hring rfl rfl
      wakeUp := wakeUpLegal_congr hwake rfl rfl le_rfl
      decoder := decoderLegal_congr hdec rfl rfl rfl rfl
      searching := fun hm => hsearching (hkept nofun nofun hm)
      decoding := fun hm => hdecoding (hkept nofun nofun hm)
      released := fun hm => hreleased (hkept nofun nofun hm) }
  fault := hfault
  cause := hlast.1
  bit := hlast.2

theorem regsLegal_ignoreCommand {p : Params} {S : Regs} (h : RegsLegal p S) : RegsLegal p (ignoreCommand S) :=
  regsLegal_withMode h (.inl rfl) h.fault lastLegal_clear

theorem regsLegal_raiseFault {p : Params} {S : Regs} (h : RegsLegal p S) {cause : FaultCause} (hcause : cause ≠ .none) :
    RegsLegal p (raiseFault cause S) :=
  regsLegal_withMode h (.inr (.inr rfl)) (iff_of_false hcause (not_not_intro rfl)) lastLegal_clear

/-- Outside the terminal modes no fault is latched (R20). -/
theorem fault_eq_none {p : Params} {S : Regs} (h : RegsLegal p S) (hmode : S.mode.isTerminal = false) :
    S.fault = .none := h.fault.mpr fun hm => by rw [hm] at hmode; cases hmode

theorem regsLegal_stop {p : Params} {S : Regs} (h : RegsLegal p S) (hmode : S.mode.isTerminal = false) :
    RegsLegal p { clearLast S with mode := .stopped } :=
  regsLegal_withMode (S := S) h (.inr (.inl rfl)) (iff_of_true (fault_eq_none (S := S) h hmode) nofun) lastLegal_clear

/-! ### RESET and CONFIGURE -/

theorem regsLegal_reset (p : Params) : RegsLegal p Regs.reset where
  unconfigured _ := rfl
  absent _ := ⟨rfl, .inl rfl⟩
  present _ := nofun
  fault := iff_of_true rfl nofun
  cause := lastLegal_clear.1
  bit := lastLegal_clear.2

/-- Settles O8: the reset record is legal for every build's parameters. -/
theorem resetIsLegal : Obligations.ResetIsLegal := regsLegal_reset _

/-- The clauses of the invariant that hold alike in the three modes that CONFIGURE and a cycle lead to (R135), for a
record with the configuration registers `c`. -/
structure BaseLegal (p : Params) (c : Cfg) (S : Regs) : Prop where
  cfg : S.cfg = some c
  fault : S.fault = .none
  last : LastLegal S.last
  valid : CfgLegal p c
  ring : RingLegal c.n S
  wakeUp : WakeUpLegal c S
  decoder : DecoderLegal c S

/-- A legal record in one of those modes, each with its own clause (R36, R106, R132). -/
inductive RunningLegal (p : Params) (c : Cfg) (S : Regs) : Prop where
  | searching (base : BaseLegal p c S) (mode : S.mode = .searchingWakeup)
      (clear : S.acc = 0 ∧ S.k = 0 ∧ S.nbits = 0 ∧ S.msg = [])
  | decoding (base : BaseLegal p c S) (mode : S.mode = .decodingRelease) (armed : armed S = true)
      (incomplete : S.nbits < c.l)
  | released (base : BaseLegal p c S) (mode : S.mode = .released)
      (clear : S.msg = c.expected ∧ armed S = false ∧ S.pos = 0)

/-- The invariant, from the clauses common to the modes and the clauses of each mode. -/
theorem BaseLegal.regsLegal {p : Params} {c : Cfg} {S : Regs} (h : BaseLegal p c S) (hun : S.mode ≠ .unconfigured)
    (hfaulted : S.mode ≠ .faulted)
    (hsearching : S.mode = .searchingWakeup → S.acc = 0 ∧ S.k = 0 ∧ S.nbits = 0 ∧ S.msg = [])
    (hdecoding : S.mode = .decodingRelease → armed S = true ∧ S.nbits < c.l)
    (hreleased : S.mode = .released → S.msg = c.expected ∧ armed S = false ∧ S.pos = 0) : RegsLegal p S where
  unconfigured hm := absurd hm hun
  absent hcfg := nomatch h.cfg.symm.trans hcfg
  present c' hcfg := by
    cases h.cfg.symm.trans hcfg
    exact ⟨h.valid, h.ring, h.wakeUp, h.decoder, hsearching, hdecoding, hreleased⟩
  fault := iff_of_true h.fault hfaulted
  cause := h.last.1
  bit := h.last.2

theorem RunningLegal.regsLegal {p : Params} {c : Cfg} {S : Regs} (h : RunningLegal p c S) : RegsLegal p S := by
  cases h with
  | searching base mode clear =>
    exact base.regsLegal (by simp [mode]) (by simp [mode]) (fun _ => clear) (by simp [mode]) (by simp [mode])
  | decoding base mode armed incomplete =>
    exact base.regsLegal (by simp [mode]) (by simp [mode]) (by simp [mode]) (fun _ => ⟨armed, incomplete⟩)
      (by simp [mode])
  | released base mode clear =>
    exact base.regsLegal (by simp [mode]) (by simp [mode]) (by simp [mode]) (by simp [mode]) fun _ => clear

theorem runningLegal_configureWith {p : Params} {r : ConfigRecord} {S : Regs} (hlookup : r.lookupOk = true)
    (hvalid : r.valid p = true) (hfault : S.fault = .none) : RunningLegal p r.toCfg (configureWith r S) := by
  have hc : CfgLegal p r.toCfg := ⟨r, hlookup, hvalid, rfl⟩
  obtain ⟨hn, -, hp⟩ := cfgLegal_bounds hc
  refine .searching ?_ rfl ⟨rfl, rfl, rfl, rfl⟩
  exact {
    cfg := rfl
    fault := hfault
    last := lastLegal_clear
    valid := hc
    ring := ⟨wf_nil, nofun, hn⟩
    wakeUp := ⟨by simp [ConfigRecord.toCfg], by simp, by simp⟩
    decoder := ⟨hp, by simp, by simp, rfl⟩ }

/-! ### A cycle keeps the record legal -/

theorem cycle_of_searching {p : Params} {c : Cfg} {chunk : List Sample} {S : Regs} (h : S.mode = .searchingWakeup) :
    cycle p c chunk S = searchPhase p c (takeChunk c chunk S) := if_pos h

theorem cycle_of_decoding {p : Params} {c : Cfg} {chunk : List Sample} {S : Regs} (h : S.mode = .decodingRelease) :
    cycle p c chunk S = decodePhase p c (takeChunk c chunk S) := if_neg (by simp [h])

section

variable {p : Params} {c : Cfg} {S : Regs}

/-- A legal record in a mode that runs a cycle, once STEP has cleared its last result. -/
theorem baseLegal_clearLast (h : RegsLegal p S) (hcfg : S.cfg = some c)
    (hmode : S.mode = .searchingWakeup ∨ S.mode = .decodingRelease) : BaseLegal p c (clearLast S) where
  cfg := hcfg
  fault := fault_eq_none (S := S) h (not_isTerminal_of_runs hmode)
  last := lastLegal_clear
  valid := (h.present c hcfg).cfg
  ring := ringLegal_congr (h.present c hcfg).ring rfl rfl
  wakeUp := wakeUpLegal_congr (h.present c hcfg).wakeUp rfl rfl le_rfl
  decoder := decoderLegal_congr (h.present c hcfg).decoder rfl rfl rfl rfl

theorem baseLegal_takeChunk (h : BaseLegal p c S) (chunk : List Sample) : BaseLegal p c (takeChunk c chunk S) where
  cfg := h.cfg
  fault := h.fault
  last := h.last
  valid := h.valid
  ring := ringLegal_takeChunk chunk (cfgLegal_bounds h.valid).1 h.ring
  wakeUp := wakeUpLegal_congr h.wakeUp rfl rfl (Nat.le_add_right _ _)
  decoder := decoderLegal_congr h.decoder rfl rfl rfl rfl

/-- An operation that writes only the mode, the wake-up state and the last result need only keep the last two legal. -/
theorem BaseLegal.of_wakeUp {S' : Regs} (h : BaseLegal p c S)
    (hframe : S' = { S with mode := S'.mode, flag := S'.flag, time := S'.time, pos := S'.pos, last := S'.last })
    (hlast : LastLegal S'.last) (hwake : WakeUpLegal c S') : BaseLegal p c S' where
  cfg := by rw [hframe]; exact h.cfg
  fault := by rw [hframe]; exact h.fault
  last := hlast
  valid := h.valid
  ring := ringLegal_congr h.ring (by rw [hframe]) (by rw [hframe])
  wakeUp := hwake
  decoder := decoderLegal_congr h.decoder (by rw [hframe]) (by rw [hframe]) (by rw [hframe]) (by rw [hframe])

theorem baseLegal_acquire (h : BaseLegal p c S) (d : List Bool) : BaseLegal p c (acquire d S) :=
  h.of_wakeUp rfl h.last (wakeUpLegal_acquire d h.wakeUp)

theorem baseLegal_staleReset (h : BaseLegal p c S) : BaseLegal p c (staleReset S) :=
  h.of_wakeUp rfl h.last (wakeUpLegal_congr (wakeUpLegal_clearWakeUp h.wakeUp) rfl rfl le_rfl)

theorem baseLegal_arm (h : BaseLegal p c S) : BaseLegal p c { S with mode := .decodingRelease } :=
  h.of_wakeUp rfl h.last (wakeUpLegal_congr h.wakeUp rfl rfl le_rfl)

theorem baseLegal_release (h : BaseLegal p c S) : BaseLegal p c (release S) :=
  h.of_wakeUp rfl h.last (wakeUpLegal_congr (wakeUpLegal_clearWakeUp h.wakeUp) rfl rfl le_rfl)

theorem baseLegal_rearm (h : BaseLegal p c S) {cause : RearmCause} (hcause : cause ≠ .none) :
    BaseLegal p c (rearm cause S) where
  cfg := h.cfg
  fault := h.fault
  last := ⟨iff_of_false hcause nofun, h.last.2⟩
  valid := h.valid
  ring := ringLegal_congr h.ring rfl rfl
  wakeUp := wakeUpLegal_congr (wakeUpLegal_clearWakeUp h.wakeUp) rfl rfl le_rfl
  decoder := ⟨(cfgLegal_bounds h.valid).2.2, by simp, by simp, rfl⟩

/-- The search phase: arming opens an attempt with an empty message, which is incomplete because `L ≥ 1` (R106). -/
theorem runningLegal_searchPhase (h : BaseLegal p c S) (hmode : S.mode = .searchingWakeup)
    (hclear : S.acc = 0 ∧ S.k = 0 ∧ S.nbits = 0 ∧ S.msg = []) : RunningLegal p c (searchPhase p c S) := by
  have hacquired := baseLegal_acquire h (detect c.n S c.wakeBin c.thetaW)
  rcases searchPhase_cases p c S with ⟨-, e⟩ | ⟨-, harmed, e⟩ | ⟨-, -, e⟩ <;> rw [e]
  · exact .searching (baseLegal_staleReset hacquired) hmode hclear
  · have hincomplete : S.nbits < c.l := by
      rw [hclear.2.2.1]
      exact (cfgLegal_bounds h.valid).2.1
    exact .decoding (baseLegal_arm hacquired) rfl harmed hincomplete
  · exact .searching hacquired hmode hclear

/-- The record between the decoding of a cycle, DECODE_STEP and APPEND, and the settling of the attempt (R141). -/
def decoded (p : Params) (c : Cfg) (sym : Int) (S : Regs) : Regs :=
  append (decodeStepWith p c sym S).2.bits (decodeStepWith p c sym S).1

/-- The decoder's ranges survive a cycle: `k` counts below `P`, the sum grows by at most one a cycle, and each bit is
both counted and appended (R35, R36). -/
theorem decoderLegal_decoded {sym : Int} (hsym : -1 ≤ sym ∧ sym ≤ 1) (h : DecoderLegal c S)
    (hincomplete : S.nbits < c.l) : DecoderLegal c (decoded p c sym S) := by
  obtain ⟨hphase, hsum, hcount, hmessage⟩ := h
  rw [decoded]
  rcases decodeStepWith_cases p c sym S with ⟨hk, e⟩ | ⟨-, -, e⟩ | ⟨-, b, -, e⟩ <;> rw [e]
  · exact ⟨by simp only [append_k]; omega, natAbs_integrate_le c sym S hsym hsum, hcount, by simpa using hmessage⟩
  · exact ⟨by simp only [append_k]; omega, by simp, hcount, by simpa using hmessage⟩
  · exact ⟨by simp only [append_k]; omega, by simp, hincomplete, by simpa using hmessage⟩

/-- DECODE_STEP shows a bit only when it emits one, and does not touch the rearm cause (R40, R114). -/
theorem lastLegal_decoded (sym : Int) (h : LastLegal S.last) : LastLegal (decoded p c sym S).last := by
  rw [decoded]
  rcases decodeStepWith_cases p c sym S with ⟨-, e⟩ | ⟨-, -, e⟩ | ⟨-, b, -, e⟩ <;> rw [e]
  · exact h
  · exact h
  · exact ⟨h.1, nofun⟩

theorem baseLegal_decoded {sym : Int} (hsym : -1 ≤ sym ∧ sym ≤ 1) (h : BaseLegal p c S) (hincomplete : S.nbits < c.l) :
    BaseLegal p c (decoded p c sym S) where
  cfg := h.cfg
  fault := h.fault
  last := lastLegal_decoded sym h.last
  valid := h.valid
  ring := ringLegal_congr h.ring rfl rfl
  wakeUp := wakeUpLegal_congr h.wakeUp rfl rfl le_rfl
  decoder := decoderLegal_decoded hsym h.decoder hincomplete

/-- Where `end_of_cycle` is not asserted, the message is not complete and the attempt is in time (R119, R120). -/
theorem incomplete_of_eoc_eq_false {sym : Int} (h : (decodeStepWith p c sym S).2.eoc = false) :
    (decoded p c sym S).nbits ≠ c.l ∧ isTimeout p S = false := by
  simp only [decodeStepWith, Bool.or_eq_false_iff, decide_eq_false_iff_not] at h
  exact ⟨h.1.1, h.1.2⟩

theorem rearmCause_ne_none (r : DecodeResult) (v : Verdict) : rearmCause r v ≠ .none := by
  rw [rearmCause]
  split
  · nofun
  · split <;> nofun

/-- Everything the decode phase can do, from the record after its decoding: a release, a rearm, or nothing more
(R141). -/
theorem decodePhase_cases (p : Params) (c : Cfg) (S : Regs) :
    ∃ sym : Int, (-1 ≤ sym ∧ sym ≤ 1) ∧
      (((decoded p c sym S).msg = c.expected ∧ decodePhase p c S = release (decoded p c sym S)) ∨
       (∃ cause, cause ≠ .none ∧ decodePhase p c S = rearm cause (decoded p c sym S)) ∨
       ((decoded p c sym S).nbits ≠ c.l ∧ isTimeout p S = false ∧ decodePhase p c S = decoded p c sym S)) := by
  refine ⟨symbol (detect c.n S [c.binHi, c.binLo] c.thetaR), symbol_bounds _, ?_⟩
  rw [decodePhase, decodeStep]
  generalize symbol (detect c.n S [c.binHi, c.binLo] c.thetaR) = sym
  rcases settle_cases p c (decodeStepWith p c sym S).2 (decodeStepWith p c sym S).1 with ⟨hmatch, e⟩ | ⟨-, -, e⟩ |
    ⟨-, -, -, heoc, e⟩
  · exact .inl ⟨((verify_isMatch_iff ..).mp hmatch).2, e⟩
  · exact .inr (.inl ⟨_, rearmCause_ne_none _ _, e⟩)
  · obtain ⟨hnbits, htime⟩ := incomplete_of_eoc_eq_false heoc
    exact .inr (.inr ⟨hnbits, htime, e⟩)

theorem runningLegal_decodePhase (h : BaseLegal p c S) (hmode : S.mode = .decodingRelease) (harmed : armed S = true)
    (hincomplete : S.nbits < c.l) : RunningLegal p c (decodePhase p c S) := by
  obtain ⟨sym, hsym, ⟨hmatch, e⟩ | ⟨cause, hcause, e⟩ | ⟨hnbits, -, e⟩⟩ := decodePhase_cases p c S <;>
    have hdecoded := baseLegal_decoded hsym h hincomplete <;> rw [e]
  · exact .released (baseLegal_release hdecoded) rfl ⟨hmatch, armed_clearWakeUp (decoded p c sym S), rfl⟩
  · exact .searching (baseLegal_rearm hdecoded hcause) rfl ⟨rfl, rfl, rfl, rfl⟩
  · exact .decoding hdecoded hmode harmed (lt_of_le_of_ne hdecoded.decoder.count hnbits)

theorem runningLegal_cycle (h : RegsLegal p S) (hcfg : S.cfg = some c)
    (hmode : S.mode = .searchingWakeup ∨ S.mode = .decodingRelease) (chunk : List Sample) :
    RunningLegal p c (cycle p c chunk (clearLast S)) := by
  have htaken := baseLegal_takeChunk (baseLegal_clearLast h hcfg hmode) chunk
  obtain ⟨-, -, -, -, hsearching, hdecoding, -⟩ := h.present c hcfg
  rcases hmode with hm | hm
  · rw [cycle_of_searching (S := clearLast S) hm]
    exact runningLegal_searchPhase htaken hm (hsearching hm)
  · obtain ⟨harmed, hincomplete⟩ := hdecoding hm
    rw [cycle_of_decoding (S := clearLast S) hm]
    exact runningLegal_decodePhase htaken hm harmed hincomplete

end

/-! ### The invariant is inductive -/

/-- Settles O9, by the effects of a step: RESET, an accepted CONFIGURE and a cycle lead to legal records, and everything
else writes only the mode, the fault and the last result. -/
theorem stepKeepsLegal : Obligations.StepKeepsLegal := by
  intro s t hlegal hstep
  obtain ⟨hparams, heffect⟩ := recordEffect_of_step hstep
  rw [Safety.Inv, hparams]
  generalize t.regs = S' at heffect ⊢
  cases heffect with
  | kept => exact hlegal
  | reset _ _ _ _ => exact regsLegal_reset s.params
  | ignored _ => exact regsLegal_ignoreCommand hlegal
  | faulted _ hcause _ => exact regsLegal_raiseFault hlegal hcause
  | stopped mode => exact regsLegal_stop hlegal mode
  | configured _ _ _ _ mode lookup valid =>
    exact (runningLegal_configureWith lookup valid (fault_eq_none hlegal (by rw [mode]; rfl))).regsLegal
  | cycled c chunk mode cfg _ => exact (runningLegal_cycle hlegal cfg mode chunk).regsLegal

/-! ### The bound on the position (R37) -/

section

variable {p : Params} {c : Cfg} {S : Regs}

theorem le_of_not_late {time : List (Option Nat)} {pos t : Nat} (h : late p time pos = false) (ht : some t ∈ time) :
    pos ≤ t + p.tTimeout := by
  by_contra! hlt
  rw [Bool.eq_false_iff, Ne, late_iff] at h
  exact h ⟨t, ht, by omega⟩

/-- With no time recorded there is nothing to bound. -/
theorem posBound_of_noTime (h : ∀ t, some t ∉ S.time) : PosBound p c S :=
  ⟨fun _ t ht => absurd ht (h t), fun _ t ht => absurd ht (h t)⟩

theorem some_not_mem_cleared (time : List (Option Nat)) (t : Nat) :
    some t ∉ time.map fun _ => (none : Option Nat) := by simp

/-- Where some tone is not flagged, only an attempt in time is not stale (R105). -/
theorem not_late_of_not_stale (h : WakeUpLegal c S) (hstale : isStale p S = false) (harmed : armed S = false) {t : Nat}
    (ht : some t ∈ S.time) : late p S.time S.pos = false := by
  have hunflagged : none ∈ S.time := by
    by_contra hall
    refine Bool.eq_false_iff.mp harmed ((armed_iff S).mpr ⟨?_, fun f hf => ?_⟩)
    · rw [h.paired]
      exact List.ne_nil_of_mem (List.mem_map_of_mem ht)
    · rw [h.paired] at hf
      obtain ⟨o, ho, rfl⟩ := List.mem_map.mp hf
      exact Option.isSome_iff_ne_none.mpr fun hnone => hall (hnone ▸ ho)
  rw [Bool.eq_false_iff, Ne, isStale_iff p S h.paired] at hstale
  exact Bool.eq_false_iff.mpr fun hlate => hstale ⟨hunflagged, hlate⟩

/-- The search phase: what is not armed is in time, and what is armed was in time one chunk ago, or is new. -/
theorem posBound_searchPhase (h : WakeUpLegal c S) (hmode : S.mode = .searchingWakeup)
    (hbound : ∀ t, some t ∈ S.time → S.pos ≤ t + p.tTimeout + c.c) : PosBound p c (searchPhase p c S) := by
  have hwake := wakeUpLegal_acquire (detect c.n S c.wakeBin c.thetaW) h
  rcases searchPhase_cases p c S with ⟨-, e⟩ | ⟨-, -, e⟩ | ⟨hstale, harmed, e⟩ <;> rw [e]
  · exact posBound_of_noTime (some_not_mem_cleared _)
  · refine ⟨nofun, fun _ t ht => ?_⟩
    rcases mem_acquireTimes ht with hold | hnew
    · exact hbound t hold
    · cases hnew
      exact (Nat.le_add_right _ _).trans (Nat.le_add_right _ _)
  · exact ⟨fun _ t ht => le_of_not_late (not_late_of_not_stale hwake hstale harmed ht) ht,
      fun hm => nomatch hmode.symm.trans hm⟩

/-- The decode phase: an attempt that goes on is in time (R120). -/
theorem posBound_decodePhase (h : WakeUpLegal c S) (hmode : S.mode = .decodingRelease) :
    PosBound p c (decodePhase p c S) := by
  obtain ⟨sym, -, ⟨-, e⟩ | ⟨cause, -, e⟩ | ⟨-, htime, e⟩⟩ := decodePhase_cases p c S <;> rw [e]
  · exact posBound_of_noTime (some_not_mem_cleared _)
  · exact posBound_of_noTime (some_not_mem_cleared _)
  · rw [isTimeout_eq_late p S h.paired] at htime
    exact ⟨fun hm => (nomatch hmode.symm.trans hm),
      fun _ t ht => (le_of_not_late htime ht).trans (Nat.le_add_right _ _)⟩

theorem posBound_cycle (h : RegsLegal p S) (hcfg : S.cfg = some c)
    (hmode : S.mode = .searchingWakeup ∨ S.mode = .decodingRelease) (hbound : PosBound p c S) (chunk : List Sample) :
    PosBound p c (cycle p c chunk (clearLast S)) := by
  have htaken := (baseLegal_takeChunk (baseLegal_clearLast h hcfg hmode) chunk).wakeUp
  rcases hmode with hm | hm
  · rw [cycle_of_searching (S := clearLast S) hm]
    exact posBound_searchPhase htaken hm fun t ht => Nat.add_le_add_right (hbound.searching hm t ht) c.c
  · rw [cycle_of_decoding (S := clearLast S) hm]
    exact posBound_decodePhase htaken hm

/-- In the terminal modes nothing is bounded. -/
theorem posBound_of_terminal (h : S.mode.isTerminal = true) : PosBound p c S :=
  ⟨fun hm => absurd h (Bool.eq_false_iff.mp (not_isTerminal_of_runs (.inl hm))),
    fun hm => absurd h (Bool.eq_false_iff.mp (not_isTerminal_of_runs (.inr hm)))⟩

end

/-- Settles O11, by the effects of a step: only a cycle moves the position or stays in a mode with a bound. -/
theorem stepKeepsPosBound : Obligations.StepKeepsPosBound := by
  intro s t c c' hlegal hcfg hbound hstep hcfg'
  obtain ⟨hparams, heffect⟩ := recordEffect_of_step hstep
  rw [hparams]
  generalize t.regs = S' at heffect hcfg' ⊢
  cases heffect with
  | kept =>
    cases hcfg.symm.trans hcfg'
    exact hbound
  | reset _ _ _ _ => cases hcfg'
  | ignored mode => exact posBound_of_terminal mode
  | faulted _ _ _ => exact posBound_of_terminal rfl
  | stopped _ => exact posBound_of_terminal rfl
  | configured _ _ _ _ mode _ _ => cases hcfg.symm.trans (hlegal.unconfigured mode)
  | cycled d chunk mode hd _ =>
    cases hcfg.symm.trans hd
    rw [cycle_cfg, clearLast_cfg, hcfg] at hcfg'
    cases hcfg'
    exact posBound_cycle hlegal hcfg mode hbound chunk

end Sys2Proof.Proofs
end

section
/-!
PROOFS of the family 20_memory.md: the ring's preconditions hold in every legal state, so no command stops the machine,
and a STEP writes its whole chunk into the ring or nothing.
-/
namespace Sys2Proof.Proofs

open Sys2Proof.Machine Sys2Proof.Safety Sys2Proof.Laws

/-! ### STEP from a legal state -/

/-- A chunk of a legal configuration's length fits the window, and the window fits the ring (V2, V3 of R139): PUSH's
precondition holds (R48, R81). -/
theorem pushAllowed_of_cfgLegal {p : Params} {c : Cfg} {chunk : List Sample} (h : CfgLegal p c)
    (hlen : chunk.length = c.c) : pushAllowed p c.n chunk = true := by
  obtain ⟨r, -, hvalid, rfl⟩ := h
  obtain ⟨-, ⟨-, hn⟩, hc, -⟩ := (valid_iff p r).mp hvalid
  rw [pushAllowed_iff, hlen]
  exact ⟨hc.1, hc.2, hn⟩

/-- In the modes that run cycles a legal record is configured (R16, R41). -/
theorem cfg_ne_none_of_runs {p : Params} {S : Regs} (h : RegsLegal p S)
    (hmode : S.mode = .searchingWakeup ∨ S.mode = .decodingRelease) : S.cfg ≠ none := by
  intro hcfg
  rcases hmode with hm | hm <;> simpa [hm] using (h.absent hcfg).mode

/-- STEP runs no cycle from `s`, whatever its mode and configuration (R140). -/
def TurnsAway (s : State) : Prop := ∀ c m, CycleReady s c m → m ≠ .searchingWakeup ∧ m ≠ .decodingRelease

theorem turnsAway_of_mode {s : State} (h : ¬(s.regs.mode = .searchingWakeup ∨ s.regs.mode = .decodingRelease)) :
    TurnsAway s := by
  rintro c m ⟨-, rfl, -, -⟩
  exact not_or.mp h

theorem turnsAway_of_wrongLength {s : State} {c : Cfg} (hcfg : s.regs.cfg = some c)
    (hlen : s.chunkPort.length ≠ c.c) : TurnsAway s := by
  rintro c' m ⟨-, -, hcfg', hlen'⟩
  cases hcfg.symm.trans hcfg'
  exact absurd hlen' hlen

/-- Everything STEP can do from a legal state: a cycle where one is due, and otherwise an ignored command or a fault
(R136, R140). -/
theorem execStep_cases_of_inv {s : State} (h : Inv s) :
    (∃ c m, CycleReady s c m ∧ (m = .searchingWakeup ∨ m = .decodingRelease) ∧
      execStep s = .next (s.respond (cycle s.params c s.chunkPort (clearLast s.regs)))) ∨
    (TurnsAway s ∧ (execStep s = .next (s.respond (ignoreCommand s.regs)) ∨
      ∃ cause, execStep s = .next (s.respond (raiseFault cause s.regs)))) := by
  rcases execStep_cases s with ⟨hterm, e⟩ | ⟨hun, e⟩ | ⟨hmode, hnone, -⟩ |
    ⟨hmode, c, hcfg, ⟨hlen, e⟩ | ⟨hlen, -, e⟩ | ⟨hlen, hpush, -⟩⟩
  · have hstill : TurnsAway s := turnsAway_of_mode fun hm => by simp [not_isTerminal_of_runs hm] at hterm
    exact .inr ⟨hstill, .inl e⟩
  · exact .inr ⟨turnsAway_of_mode (by simp [hun]), .inr ⟨_, e⟩⟩
  · exact absurd hnone (cfg_ne_none_of_runs h hmode)
  · exact .inr ⟨turnsAway_of_wrongLength hcfg hlen, .inr ⟨_, e⟩⟩
  · exact .inl ⟨c, _, ⟨h, rfl, hcfg, hlen⟩, hmode, e⟩
  · exact absurd (pushAllowed_of_cfgLegal (h.present c hcfg).cfg hlen) (Bool.eq_false_iff.mp hpush)

/-! ### No legal state stops the machine -/

/-- STEP alone has ways to stop, and a legal state meets its preconditions. -/
theorem exec_completes {s : State} (h : Inv s) (i : Instr) : ∃ t, exec i s = .next t := by
  cases i with
  | reset => exact ⟨_, exec_reset s⟩
  | configure => exact ⟨_, exec_configure s⟩
  | step =>
    rcases execStep_cases_of_inv h with ⟨_, _, -, -, e⟩ | ⟨-, e | ⟨_, e⟩⟩
    · exact ⟨_, e⟩
    · exact ⟨_, e⟩
    · exact ⟨_, e⟩
  | stop => exact ⟨_, exec_stop s⟩
  | status => exact ⟨_, exec_status s⟩

theorem runWord_completes {s : State} (h : Inv s) (word : Word) : ∃ t, runWord word s = .next t := by
  rw [runWord]
  split
  · exact exec_completes h _
  · exact ⟨_, rfl⟩

/-- Settles O10: legality speaks of the parameters and the record alone, so it survives the host writing the ports, and
there every word completes. -/
theorem legalStatesNeverStop : Obligations.LegalStatesNeverStop := by
  intro s hlegal
  refine ⟨?_, exec_completes hlegal⟩
  rw [step]
  split
  · exact ⟨s, rfl⟩
  · next c rest _ =>
    have hdelivered : Inv (s.deliver c rest) := hlegal
    exact runWord_completes hdelivered c.word

/-! ### A STEP takes its chunk whole or not at all -/

/-- PUSH writes the chunk's slots and no other (R80). -/
theorem ringTakes_push {n : Nat} {chunk : List Sample} {S : Regs} (hwf : S.ring.wf) (hlen : chunk.length ≤ n) :
    RingTakes n chunk S (push n chunk S) where
  stored j hj := by
    have hslot := read_pushSamples_slot n S.wp 0 chunk S.ring hwf j hj (by omega)
    rw [Nat.zero_add] at hslot
    rw [push_ring, hslot, List.getD_eq_getElem _ _ hj]
  kept a ha := read_pushSamples_of_ne n S.wp 0 chunk S.ring hwf a (by simpa using ha)
  pointer := rfl

theorem ringTakes_congr {n : Nat} {chunk : List Sample} {S R R' : Regs} (h : RingTakes n chunk S R)
    (hring : R'.ring = R.ring) (hwp : R'.wp = R.wp) : RingTakes n chunk S R' :=
  ⟨hring ▸ h.stored, hring ▸ h.kept, hwp ▸ h.pointer⟩

/-- STEP's cycle does to the ring and the window what its PUSH does, whatever its phase (R82, R87, R141). -/
theorem cycle_takesChunk (p : Params) {c : Cfg} {chunk : List Sample} {S : Regs} (hwf : S.ring.wf)
    (hlen : chunk.length ≤ c.n) :
    RingTakes c.n chunk S (cycle p c chunk (clearLast S)) ∧
      window c.n (cycle p c chunk (clearLast S)) = (window c.n S).drop chunk.length ++ chunk := by
  have hring : (cycle p c chunk (clearLast S)).ring = (push c.n chunk S).ring := cycle_ring p c chunk (clearLast S)
  have hwp : (cycle p c chunk (clearLast S)).wp = (push c.n chunk S).wp := cycle_wp p c chunk (clearLast S)
  exact ⟨ringTakes_congr (ringTakes_push hwf hlen) hring hwp, (window_congr c.n hring hwp).trans (window_push hwf hlen)⟩

/-- Settles O30: a STEP that runs its cycle pushes the whole chunk, and one that is turned away writes no memory. -/
theorem stepTakesChunkWholeOrNot : Obligations.StepTakesChunkWholeOrNot := by
  intro s t hlegal hexec
  rcases execStep_cases_of_inv hlegal with ⟨c, m, hready, hmode, e⟩ | ⟨haway, e | ⟨cause, e⟩⟩ <;>
    cases e.symm.trans hexec
  · have hlegalCfg := hlegal.present c hready.cfg
    obtain ⟨-, hfits, -⟩ := (pushAllowed_iff _ _ _).mp (pushAllowed_of_cfgLegal hlegalCfg.cfg hready.chunk)
    obtain ⟨htakes, hwindow⟩ := cycle_takesChunk s.params hlegalCfg.ring.canonical hfits
    rw [hready.chunk] at hwindow
    exact .inl ⟨c, m, hready, hmode, htakes, hwindow⟩
  · exact .inr ⟨haway, rfl, fun _ => rfl⟩
  · exact .inr ⟨haway, rfl, fun _ => rfl⟩

end Sys2Proof.Proofs
end

section
/-!
PROOFS of the family 30_encoding.md: the five command words and the decoder (R61 to R65), the ports a command reads
(R66), and the fields and codes of the status word (R70 to R73).
-/
namespace Sys2Proof.Proofs

open Sys2Proof.Machine Sys2Proof.Safety Sys2Proof.Laws

/-! ### The decoder (R61 to R65) -/

/-- A command word is its two fields (R61). -/
theorem word_eq_of_fields {w v : Word} (hrsv : rsvField w = rsvField v) (hop : opField w = opField v) : w = v := by
  have hhigh := congrArg BitVec.toNat hrsv
  have hlow := congrArg BitVec.toNat hop
  simp only [rsvField, opField, BitVec.extractLsb'_toNat, Nat.shiftRight_eq_div_pow] at hhigh hlow
  have hw := w.isLt
  have hv := v.isLt
  exact BitVec.eq_of_toNat_eq (by omega)

theorem decode_of_reserved {w : Word} (h : rsvField w ≠ 0) : decode w = .error .reservedNonzero := if_pos h

theorem decode_encode (i : Instr) : decode (encode i) = .ok i := by
  cases i with
  | reset => exact WellFormedEncoding.reset.2.2
  | configure => exact WellFormedEncoding.configure.2.2
  | step => exact WellFormedEncoding.step.2.2
  | stop => exact WellFormedEncoding.stop.2.2
  | status => exact WellFormedEncoding.status.2.2

/-- A word that decodes has the fields of its command's word (R62, R63). -/
theorem fields_of_decode {w : Word} {i : Instr} (h : decode w = .ok i) :
    rsvField w = rsvField (encode i) ∧ opField w = opField (encode i) := by
  rw [decode] at h
  split at h
  · cases h
  · next hrsv =>
    have hzero : rsvField w = 0 := not_not.mp hrsv
    split at h <;> cases h
    all_goals
      next hop => exact ⟨hzero, BitVec.eq_of_toNat_eq hop⟩

theorem decode_eq_ok_iff (w : Word) (i : Instr) : decode w = .ok i ↔ w = encode i := by
  constructor
  · intro h
    obtain ⟨hrsv, hop⟩ := fields_of_decode h
    exact word_eq_of_fields hrsv hop
  · rintro rfl
    exact decode_encode i

theorem encode_mem_words (i : Instr) :
    encode i ∈ ([0x00000001, 0x00000002, 0x00000003, 0x00000004, 0x00000005] : List Word) := by
  cases i <;> decide

/-- Settles O1: a word decodes to a command exactly when it is the command's word, and the decoder has no third answer. -/
theorem decodeExactlyFiveWords : Obligations.DecodeExactlyFiveWords := by
  intro w
  refine ⟨decode_eq_ok_iff w .reset, decode_eq_ok_iff w .configure, decode_eq_ok_iff w .step, decode_eq_ok_iff w .stop,
    decode_eq_ok_iff w .status, fun hother => ?_⟩
  cases hdecode : decode w with
  | error e => exact ⟨e, rfl⟩
  | ok i =>
    rw [(decode_eq_ok_iff w i).mp hdecode] at hother
    exact absurd (encode_mem_words i) hother

/-- Settles O2: the first five words are those of the commands, the last two have a reserved bit set. -/
theorem decodeWrittenWords : Obligations.DecodeWrittenWords :=
  ⟨decode_encode .reset, decode_encode .configure, decode_encode .step, decode_encode .stop, decode_encode .status,
    rfl, rfl, decode_of_reserved (by decide), decode_of_reserved (by decide)⟩

/-! ### What each command answers on the result port (R66, R70) -/

/-- A command that completes ends in one of two ways: `respond` with the record it leaves, or, for STATUS,
`respondStatus` (R66). -/
theorem exec_answers {i : Instr} {s t : State} (h : exec i s = .next t) : t = s.respond t.regs ∨ t = s.respondStatus := by
  cases i with
  | reset => cases h; exact .inl rfl
  | configure => cases h; exact .inl rfl
  | stop => cases h; exact .inl rfl
  | status => cases h; exact .inr rfl
  | step =>
    rcases execStep_cases s with ⟨-, e⟩ | ⟨-, e⟩ | ⟨-, -, e⟩ | ⟨-, _, -, ⟨-, e⟩ | ⟨-, -, e⟩ | ⟨-, -, e⟩⟩ <;>
      cases e.symm.trans h
    · exact .inl rfl
    · exact .inl rfl
    · exact .inl rfl
    · exact .inl rfl

theorem exec_result_word {i : Instr} {s t : State} (h : exec i s = .next t) : t.result.word = statusWord t.regs := by
  rcases exec_answers h with ht | ht <;> rw [ht] <;> rfl

/-! ### The fields of the status word (R70) -/

theorem extractLsb'_eq_iff {n k : Nat} (w : BitVec n) (start : Nat) (v : BitVec k) :
    w.extractLsb' start k = v ↔ ∀ i < k, w.getLsbD (start + i) = v.getLsbD i := by
  constructor
  · rintro rfl i hi
    simp [hi]
  · intro h
    exact BitVec.eq_of_getLsbD_eq fun i hi => by simpa [hi] using h i hi

@[simp] theorem statusWord_mode (S : Regs) : (statusWord S).extractLsb' 0 3 = S.mode.code := by
  rw [extractLsb'_eq_iff]
  intro i hi
  rw [getLsbD_statusWord, if_pos (by omega), Nat.zero_add]

@[simp] theorem statusWord_fault (S : Regs) : (statusWord S).extractLsb' 3 3 = S.fault.code := by
  rw [extractLsb'_eq_iff]
  intro i hi
  rw [getLsbD_statusWord, if_neg (by omega), if_pos (by omega), Nat.add_sub_cancel_left]

@[simp] theorem statusWord_rearmCause (S : Regs) : (statusWord S).extractLsb' 6 2 = S.last.rearmCause.code := by
  rw [extractLsb'_eq_iff]
  intro i hi
  rw [getLsbD_statusWord, if_neg (by omega), if_neg (by omega), if_pos (by omega), Nat.add_sub_cancel_left]

@[simp] theorem statusWord_nFlagged (S : Regs) : (statusWord S).extractLsb' 16 8 = BitVec.ofNat 8 (nFlagged S) := by
  rw [extractLsb'_eq_iff]
  intro i hi
  rw [getLsbD_statusWord]
  repeat rw [if_neg (by omega)]
  rw [if_pos (by omega), Nat.add_sub_cancel_left]

@[simp] theorem statusWord_nbits (S : Regs) : (statusWord S).extractLsb' 24 8 = BitVec.ofNat 8 S.nbits := by
  rw [extractLsb'_eq_iff]
  intro i hi
  rw [getLsbD_statusWord]
  repeat rw [if_neg (by omega)]
  rw [Nat.add_sub_cancel_left]

/-! ### The counts of a legal record fit their 8 bits (V4 and V5 of R139) -/

theorem cfgLegal_counts {p : Params} {c : Cfg} (h : CfgLegal p c) : c.nw ≤ Config.maxTones ∧ c.l ≤ Config.maxBits := by
  obtain ⟨r, -, hvalid, rfl⟩ := h
  obtain ⟨-, -, -, ⟨-, htones⟩, ⟨-, hbits⟩, -⟩ := (valid_iff p r).mp hvalid
  exact ⟨htones, hbits⟩

theorem nFlagged_le_length (S : Regs) : nFlagged S ≤ S.flag.length := List.count_le_length

theorem counts_of_legal {p : Params} {S : Regs} (h : RegsLegal p S) :
    nFlagged S ≤ Config.maxTones ∧ S.nbits ≤ Config.maxBits := by
  cases hcfg : S.cfg with
  | none =>
    rw [(h.absent hcfg).clear]
    exact ⟨Nat.zero_le _, Nat.zero_le _⟩
  | some c =>
    obtain ⟨hlegal, -, hwake, hdecoder, -⟩ := h.present c hcfg
    obtain ⟨htones, hbits⟩ := cfgLegal_counts hlegal
    have hlength : S.flag.length = c.nw := by rw [hwake.paired, List.length_map, hwake.tones]
    exact ⟨(nFlagged_le_length S).trans (hlength.trans_le htones), hdecoder.count.trans hbits⟩

theorem toNat_ofNat_of_le_255 {n : Nat} (h : n ≤ 255) : (BitVec.ofNat 8 n).toNat = n := by
  rw [BitVec.toNat_ofNat]
  exact Nat.mod_eq_of_lt (by omega)

/-! ### The codes (R71 to R73): no two alike -/

theorem modeCode_toNat_inj (m m' : Mode) : m.code.toNat = m'.code.toNat ↔ m = m' := by
  cases m <;> cases m' <;> decide

theorem modeCode_toNat_le (m : Mode) : m.code.toNat ≤ 5 := by cases m <;> decide

theorem faultCode_toNat_inj (e e' : FaultCause) : e.code.toNat = e'.code.toNat ↔ e = e' := by
  cases e <;> cases e' <;> decide

theorem faultCode_toNat_le (e : FaultCause) : e.code.toNat ≤ 6 := by cases e <;> decide

theorem rearmCode_toNat_inj (r r' : RearmCause) : r.code.toNat = r'.code.toNat ↔ r = r' := by
  cases r <;> cases r' <;> decide

theorem rearmCode_eq_zero_iff (r : RearmCause) : r.code = 0 ↔ r = .none := by
  rw [← rearmCode_toNat_inj, BitVec.toNat_inj]
  rfl

theorem bit_toBool_iff (b : Bit) : b.toBool = true ↔ b = .one := by cases b <;> decide

/-- Settles O54: the word of every command is `statusWord` of its record, and a legal record's counts fit. -/
theorem statusWordFields : Obligations.StatusWordFields := by
  refine ⟨fun i s t => exec_result_word, fun p S hlegal => ?_⟩
  obtain ⟨htones, hbits⟩ := counts_of_legal hlegal
  have hrearm : S.last.rearmCause.code ≠ 0 ↔ S.last.evRearm = true := by
    rw [Ne, rearmCode_eq_zero_iff, hlegal.cause, Bool.not_eq_false]
  have hbit : (statusWord S).getLsbD 12 = true ↔ S.last.evBit = .one := by
    rw [getLsbD_statusWord]
    exact bit_toBool_iff S.last.evBit
  rw [statusWord_rearmCause, statusWord_nFlagged, statusWord_nbits]
  exact ⟨statusWord_mode S, statusWord_fault S, rfl, hrearm, getLsbD_statusWord S 8, getLsbD_statusWord S 9,
    getLsbD_statusWord S 10, getLsbD_statusWord S 11, hbit, getLsbD_statusWord S 13, getLsbD_statusWord S 14,
    getLsbD_statusWord S 15, toNat_ofNat_of_le_255 htones, toNat_ofNat_of_le_255 hbits⟩

/-- Settles O55: each number in R71 to R73 is the code of its name, and no other name has that code. -/
theorem statusCodes : Obligations.StatusCodes := by
  intro S
  have hmode := modeCode_toNat_inj S.mode
  have hmax := modeCode_toNat_le S.mode
  have hfault := faultCode_toNat_inj S.fault
  have hfaultMax := faultCode_toNat_le S.fault
  have hcause := rearmCode_toNat_inj S.last.rearmCause
  rw [statusWord_mode, statusWord_fault, statusWord_rearmCause]
  exact ⟨hmode .unconfigured, hmode .searchingWakeup, hmode .decodingRelease, hmode .released, hmode .stopped,
    hmode .faulted, by omega, by omega,
    hfault .none, hfault .illegalCommand, hfault .notConfigured, hfault .configNotFound, hfault .configInvalid,
    hfault .chunkSize, hfault .reconfigure, by omega,
    hcause .none, hcause .tie, hcause .mismatch, hcause .timeout⟩

/-! ### The ports a command reads (R66) -/

/-- STEP never reads the configuration port: its checks are of the mode, the configuration registers and the chunk
(R140). -/
theorem execStep_otherCfgPort {s t : State} (r : ConfigRecord) (h : execStep s = .next t) :
    execStep { s with cfgPort := r } = .next { t with cfgPort := r } := by
  rcases execStep_cases s with ⟨hterm, e⟩ | ⟨hun, e⟩ | ⟨-, -, e⟩ | ⟨hruns, c, hcfg, hchunk⟩
  · cases e.symm.trans h
    exact execStep_of_terminal (s := { s with cfgPort := r }) hterm
  · cases e.symm.trans h
    exact execStep_of_unconfigured (s := { s with cfgPort := r }) hun
  · cases e.symm.trans h
  · refine (execStep_of_configured (s := { s with cfgPort := r }) hruns hcfg).trans ?_
    rcases hchunk with ⟨hlen, e⟩ | ⟨hlen, hpush, e⟩ | ⟨-, -, e⟩ <;> cases e.symm.trans h
    · exact stepConfigured_of_wrongLength (s := { s with cfgPort := r }) hlen
    · exact stepConfigured_of_allowed (s := { s with cfgPort := r }) hlen hpush

theorem exec_otherCfgPort {i : Instr} {s t : State} (hi : i ≠ .configure) (h : exec i s = .next t) (r : ConfigRecord) :
    exec i { s with cfgPort := r } = .next { t with cfgPort := r } := by
  cases i with
  | configure => exact absurd rfl hi
  | step => exact execStep_otherCfgPort r h
  | reset => cases h; rfl
  | stop => cases h; rfl
  | status => cases h; rfl

theorem exec_otherChunkPort {i : Instr} {s t : State} (hi : i ≠ .step) (h : exec i s = .next t) (chunk : List Sample) :
    exec i { s with chunkPort := chunk } = .next { t with chunkPort := chunk } := by
  cases i with
  | step => exact absurd rfl hi
  | reset => cases h; rfl
  | configure => cases h; rfl
  | stop => cases h; rfl
  | status => cases h; rfl

/-- Settles O57: CONFIGURE alone reads the configuration port, and STEP alone the chunk port. -/
theorem portsReadOnlyByTheirCommand : Obligations.PortsReadOnlyByTheirCommand :=
  fun _ _ _ h => ⟨fun hi r => exec_otherCfgPort hi h r, fun hi chunk => exec_otherChunkPort hi h chunk⟩

end Sys2Proof.Proofs
end

section
/-!
PROOFS of the family 40_sample_buffer.md: PUSH on the ring and on the window, what the window holds after any sequence of
pushes, and why DETECT may as well read the ring in slot order.
-/
namespace Sys2Proof.Proofs

open Sys2Proof.Machine Sys2Proof.Safety Sys2Proof.Laws

/-! ### One PUSH (R80, R82) -/

theorem push_keeps_wf {n : Nat} {chunk : List Sample} {S : Regs} (hwf : S.ring.wf) : (push n chunk S).ring.wf :=
  wf_pushSamples n S.wp 0 chunk S.ring hwf

/-- PUSH writes the ring and the write pointer alone (R80). -/
theorem push_frame (n : Nat) (chunk : List Sample) (S : Regs) :
    push n chunk S = { S with ring := (push n chunk S).ring, wp := (push n chunk S).wp } := rfl

/-- Settles O27: the slots that PUSH addresses, the canonical form, and the frame. -/
theorem pushWritesChunk : Obligations.PushWritesChunk :=
  fun n chunk S hwf _ hlen => ⟨ringTakes_push hwf hlen, push_keeps_wf hwf, push_frame n chunk S⟩

/-- Settles O28: the new window position by position, an old slot or one that the chunk went to. -/
theorem pushShiftsWindow : Obligations.PushShiftsWindow :=
  fun _ _ _ hwf _ hlen => window_push hwf hlen

/-! ### Any sequence of pushes (R83, R84) -/

/-- The window after some pushes: the most recent `n` samples of the old window followed by everything pushed. -/
theorem window_foldl_push {n : Nat} {chunks : List (List Sample)} {S : Regs} (hwf : S.ring.wf)
    (hlen : ∀ ch ∈ chunks, ch.length ≤ n) :
    window n (chunks.foldl (fun T ch => push n ch T) S) =
      (window n S ++ chunks.flatten).drop chunks.flatten.length := by
  induction chunks generalizing S with
  | nil => simp
  | cons ch rest ih =>
    obtain ⟨hch, hrest⟩ := List.forall_mem_cons.mp hlen
    have hfits : ch.length ≤ (window n S).length := by rwa [length_window]
    calc window n (rest.foldl (fun T ch => push n ch T) (push n ch S))
        = (window n (push n ch S) ++ rest.flatten).drop rest.flatten.length := ih (push_keeps_wf hwf) hrest
      _ = ((window n S ++ (ch ++ rest.flatten)).drop ch.length).drop rest.flatten.length := by
          rw [window_push hwf hch, List.append_assoc, List.drop_append_of_le_length hfits]
      _ = (window n S ++ (ch :: rest).flatten).drop (ch :: rest).flatten.length := by
          rw [List.drop_drop, List.flatten_cons, List.length_append]

/-- A cleared ring's window is silence, wherever the pointer stands (R41, R84). -/
theorem window_of_cleared {n : Nat} {S : Regs} (hring : S.ring = []) : window n S = List.replicate n 0 := by
  refine List.ext_getElem (by simp) fun i hi _ => ?_
  rw [getElem_window, hring, read_nil, List.getElem_replicate]

/-- Settles O29: of the silence followed by everything pushed, the most recent `N` samples reach back into the silence
exactly when fewer than `N` were pushed. -/
theorem windowHoldsMostRecent : Obligations.WindowHoldsMostRecent := by
  intro n chunks S _ hring _ hchunks S'
  have hwindow : window n S' =
      List.replicate (n - chunks.flatten.length) 0 ++ chunks.flatten.drop (chunks.flatten.length - n) := by
    rw [window_foldl_push (hring ▸ wf_nil) fun ch hch => (hchunks ch hch).2, window_of_cleared hring, List.drop_append,
      List.drop_replicate, List.length_replicate]
  rw [hwindow]
  refine ⟨fun hfull => ?_, fun hshort => ?_⟩
  · rw [Nat.sub_eq_zero_of_le hfull, List.replicate_zero, List.nil_append]
  · rw [Nat.sub_eq_zero_of_le hshort, List.drop_zero]

/-! ### The spectrum of a rotated window (R86) -/

/-- The term of `X[k]` at the place `i` of the samples repeated without end (R93). -/
noncomputable def spectrumTerm (x : List Int) (k i : Nat) : ℂ :=
  ((x.getD (i % x.length) 0 : Int) : ℂ) * unityRoot x.length ^ (k * i)

theorem coefficient_eq_sum_spectrumTerm (x : List Int) (k : Nat) :
    coefficient x k = ∑ i ∈ Finset.range x.length, spectrumTerm x k i := by
  rw [coefficient_eq_polyAt, polyAt]
  refine Finset.sum_congr rfl fun i hi => ?_
  rw [spectrumTerm, Nat.mod_eq_of_lt (Finset.mem_range.mp hi)]

theorem spectrumTerm_add_length {x : List Int} (hx : 0 < x.length) (k i : Nat) :
    spectrumTerm x k (i + x.length) = spectrumTerm x k i := by
  rw [spectrumTerm, spectrumTerm, Nat.add_mod_right, mul_add, pow_add, mul_comm k x.length, pow_mul _ x.length,
    unityRoot_pow _ hx, one_pow, mul_one]

theorem unityRoot_pow_mul_spectrumTerm_rotate (x : List Int) (d k : Nat) {i : Nat} (hi : i < x.length) :
    unityRoot x.length ^ (k * d) * spectrumTerm (x.rotate d) k i = spectrumTerm x k (d + i) := by
  rw [spectrumTerm, spectrumTerm, List.length_rotate, Nat.mod_eq_of_lt hi, List.getD_eq_getElem?_getD,
    List.getElem?_rotate hi, ← List.getD_eq_getElem?_getD, add_comm i d, mul_left_comm, ← pow_add, ← mul_add]

/-- The shift theorem of the DFT: to read the samples from place `d` on turns each coefficient by a root of unity. -/
theorem unityRoot_pow_mul_coefficient_rotate (x : List Int) (d k : Nat) (hx : 0 < x.length) :
    unityRoot x.length ^ (k * d) * coefficient (x.rotate d) k = coefficient x k := by
  calc unityRoot x.length ^ (k * d) * coefficient (x.rotate d) k
      = ∑ i ∈ Finset.range x.length, spectrumTerm x k (d + i) := by
        rw [coefficient_eq_sum_spectrumTerm, List.length_rotate, Finset.mul_sum]
        exact Finset.sum_congr rfl fun i hi => unityRoot_pow_mul_spectrumTerm_rotate x d k (Finset.mem_range.mp hi)
    _ = ∑ i ∈ Finset.range x.length, spectrumTerm x k i := sum_period _ _ (spectrumTerm_add_length hx k) d
    _ = coefficient x k := (coefficient_eq_sum_spectrumTerm x k).symm

/-- A root of unity has absolute value 1, so rotating the samples keeps every magnitude (R86). -/
theorem magnitude_rotate (x : List Int) (d k : Nat) : magnitude (x.rotate d) k = magnitude x k := by
  rcases x.length.eq_zero_or_pos with hnil | hx
  · rw [List.length_eq_zero_iff.mp hnil, List.rotate_nil]
  · rw [magnitude, magnitude, ← unityRoot_pow_mul_coefficient_rotate x d k hx, norm_mul, norm_pow, norm_unityRoot _ hx,
      one_pow, one_mul]

/-- DETECT reads nothing of the samples but their number and their magnitudes (R94, R95). -/
theorem detectValues_congr {x y : List Int} (hlen : y.length = x.length) (hmag : ∀ k, magnitude y k = magnitude x k)
    (bins : List Nat) (θ : RealNum) : detectValues y bins θ = detectValues x bins θ := by
  classical
  have hmean : mean y = mean x := by simp only [mean, hlen, hmag]
  have hdev : stdDev y = stdDev x := by simp only [stdDev, hlen, hmag, hmean]
  rw [detectValues_eq, detectValues_eq]
  refine List.map_congr_left fun b _ => decide_eq_decide.mpr ?_
  rw [Detected, Detected, hmag, hmean, hdev]

theorem detectValues_rotate (x : List Int) (d : Nat) (bins : List Nat) (θ : RealNum) :
    detectValues (x.rotate d) bins θ = detectValues x bins θ :=
  detectValues_congr (List.length_rotate x d) (magnitude_rotate x d) bins θ

/-! ### The ring in slot order -/

/-- The window is the ring in slot order, read from the write pointer on (R79). -/
theorem window_eq_rotate (n : Nat) (S : Regs) : window n S = ((List.range n).map S.ring.read).rotate S.wp := by
  refine List.ext_getElem (by simp) fun i hi _ => ?_
  rw [getElem_window, List.getElem_rotate, List.getElem_map, List.getElem_range, List.length_map, List.length_range,
    add_comm]

/-- Turning the window on by the rest of a full turn gives slot order again. -/
theorem rotate_window {n : Nat} {S : Regs} (hwp : S.wp ≤ n) :
    (window n S).rotate (n - S.wp) = (List.range n).map S.ring.read := by
  rw [window_eq_rotate, List.rotate_rotate, Nat.add_sub_of_le hwp]
  simpa using List.rotate_length ((List.range n).map S.ring.read)

/-- Settles O34: slot order is a rotation of the window, and neither magnitudes nor verdicts see a rotation. -/
theorem ringOrderDetectsAlike : Obligations.RingOrderDetectsAlike := by
  intro n S hwp slots
  have hslots : slots = (window n S).rotate (n - S.wp) := (rotate_window hwp.le).symm
  rw [hslots, List.map_rotate]
  refine ⟨fun a ha => ?_, magnitude_rotate _ _, detectValues_rotate _ _⟩
  rw [List.getElem?_rotate (by rwa [length_window]), length_window]

end Sys2Proof.Proofs
end

section
/-!
PROOFS of the family 41_tone_detector.md: where a frequency's bin falls, and what DETECT's test does to flat spectra, to
extreme thresholds, to a scaled window, to mirror bins and to a spectrum of equal bins.
-/
namespace Sys2Proof.Proofs

open Sys2Proof.Machine Sys2Proof.Safety Sys2Proof.Laws

/-! ### The normalised frequency (R88) -/

theorem realMod_nonneg {fs f : ℝ} (hfs : 0 < fs) : 0 ≤ realMod fs f := by
  have h := (le_div_iff₀ hfs).mp (Int.floor_le (f / fs))
  rw [realMod]
  linarith

/-- The remainder is the only value in `[0, fs)` that whole multiples of `fs` away from `f` reach. -/
theorem realMod_eq_sub_mul {fs f : ℝ} (z : Int) (hfs : 0 < fs) (hlo : 0 ≤ f - fs * z) (hhi : f - fs * z < fs) :
    realMod fs f = f - fs * z := by
  have hfloor : ⌊f / fs⌋ = z := by
    rw [Int.floor_eq_iff, le_div_iff₀ hfs, div_lt_iff₀ hfs]
    constructor <;> linarith
  rw [realMod, hfloor]

/-! ### The bin index (R89, R91) -/

theorem index_nonneg {fs f : ℝ} (n : Nat) (hfs : 0 < fs) : 0 ≤ realMod fs f * n / fs :=
  div_nonneg (mul_nonneg (realMod_nonneg hfs) n.cast_nonneg) hfs.le

theorem index_lt {fs f : ℝ} {n : Nat} (hfs : 0 < fs) (hn : 0 < n) : realMod fs f * n / fs < n := by
  rw [div_lt_iff₀ hfs, mul_comm]
  exact mul_lt_mul_of_pos_left (realMod_lt hfs) (by exact_mod_cast hn)

@[simp] theorem realRound_intCast (m : Int) : realRound m = m := by
  simp [realRound]

theorem realRound_nonneg {x : ℝ} (hx : 0 ≤ x) : 0 ≤ realRound x := by
  rw [← realRound_intCast 0]
  exact realRound_mono (by rwa [Int.cast_zero])

/-- Below `n`, a value rounds to `n` from `n - 1 / 2` on, at that tie only for an even `n` (R10). -/
theorem realRound_eq_natCast_iff {q : ℝ} {n : Nat} (hq : q < n) :
    realRound q = n ↔ (n : ℝ) - 1 / 2 < q ∨ (q = (n : ℝ) - 1 / 2 ∧ n % 2 = 0) := by
  obtain ⟨hlo, hhi⟩ := abs_le.mp (abs_sub_realRound_le q)
  have hle := realRound_le_of_le_natCast hq.le
  constructor
  · intro hround
    have hcast : (realRound q : ℝ) = n := by exact_mod_cast hround
    rcases (show (n : ℝ) - 1 / 2 ≤ q by linarith).lt_or_eq with hgt | htie
    · exact .inl hgt
    · have heven := realRound_even_of_tie q (by rw [hcast, ← htie]; norm_num)
      exact .inr ⟨htie.symm, by omega⟩
  · rintro (hgt | ⟨htie, heven⟩)
    · have hge : (n : ℝ) < realRound q + 1 := by linarith
      have hge' : (n : Int) < realRound q + 1 := by exact_mod_cast hge
      omega
    · have hge : (n : ℝ) ≤ realRound q + 1 := by linarith
      have hge' : (n : Int) ≤ realRound q + 1 := by exact_mod_cast hge
      rcases hle.lt_or_eq with hbelow | hround
      · have hpred : realRound q = (n : Int) - 1 := by omega
        have hparity := realRound_even_of_tie q (by rw [hpred, htie]; push_cast; norm_num)
        omega
      · exact hround

/-- The bin index as an integer: the rounded index, with `N` mapped to bin 0 (R89). -/
theorem cast_realBin {fs f : ℝ} (n : Nat) (hfs : 0 < fs) :
    (realBin fs n f : Int) =
      if realRound (realMod fs f * n / fs) = n then 0 else realRound (realMod fs f * n / fs) := by
  have hround := realRound_nonneg (index_nonneg (f := f) n hfs)
  rw [realBin]
  split_ifs <;> omega

/-- A frequency that falls on the whole index `m` has bin `m mod N` (R88, R89). -/
theorem cast_realBin_of_index_eq {fs f : ℝ} {n : Nat} {m : Int} (hfs : 0 < fs) (hn : 0 < n) (hm : f * n / fs = m) :
    (realBin fs n f : Int) = m % n := by
  have hindex : realMod fs f * n / fs = ((m - ⌊f / fs⌋ * n : Int) : ℝ) := by
    rw [realMod]
    push_cast
    rw [← hm]
    field_simp
  have hlo := index_nonneg (f := f) n hfs
  have hhi := index_lt (f := f) hfs hn
  rw [cast_realBin n hfs]
  rw [hindex] at hlo hhi ⊢
  have hlo' : 0 ≤ m - ⌊f / fs⌋ * n := by exact_mod_cast hlo
  have hhi' : m - ⌊f / fs⌋ * n < n := by exact_mod_cast hhi
  rw [realRound_intCast, if_neg hhi'.ne, ← Int.emod_eq_of_lt hlo' hhi', Int.sub_mul_emod_self_right]

/-- `d·fs/N` is `d` bins (R91). -/
theorem index_add_mul_div {fs : ℝ} {n : Nat} (fc d : ℝ) (hfs : 0 < fs) (hn : 0 < n) :
    (fc + d * fs / n) * n / fs = fc * n / fs + d := by
  have hn' : (n : ℝ) ≠ 0 := by exact_mod_cast hn.ne'
  field_simp

theorem toCfg_binHi (r : ConfigRecord) :
    r.toCfg.binHi = realBin r.fs.toReal r.n (r.fc.toReal + 4 * r.fs.toReal / r.n) := by
  simp [ConfigRecord.toCfg, binIndex_eq, ConfigRecord.fHi, ConfigRecord.releaseShift]

theorem toCfg_binLo (r : ConfigRecord) :
    r.toCfg.binLo = realBin r.fs.toReal r.n (r.fc.toReal + -4 * r.fs.toReal / r.n) := by
  simp [ConfigRecord.toCfg, binIndex_eq, ConfigRecord.fLo, ConfigRecord.releaseShift, sub_eq_add_neg, neg_div]

/-! ### DETECT's answers, in terms of the test of R95 -/

theorem detectValues_singleton_eq_true_iff (x : List Int) (b : Nat) (θ : RealNum) :
    detectValues x [b] θ = [true] ↔ Detected x b θ.toReal := by
  classical
  simp [detectValues_eq]

theorem detectValues_singleton_eq_false_iff (x : List Int) (b : Nat) (θ : RealNum) :
    detectValues x [b] θ = [false] ↔ ¬Detected x b θ.toReal := by
  classical
  simp [detectValues_eq]

theorem detectValues_of_not_detected {x : List Int} {θ : RealNum} (h : ∀ b, ¬Detected x b θ.toReal)
    (bins : List Nat) : detectValues x bins θ = List.replicate bins.length false := by
  classical
  simp [detectValues_eq, h]

theorem detectValues_of_detected_iff {x y : List Int} {θ : RealNum}
    (h : ∀ b, Detected y b θ.toReal ↔ Detected x b θ.toReal) (bins : List Nat) :
    detectValues y bins θ = detectValues x bins θ := by
  classical
  simp only [detectValues_eq, h]

theorem detected_congr {x : List Int} {b b' : Nat} (h : magnitude x b = magnitude x b') (θ : ℝ) :
    Detected x b θ ↔ Detected x b' θ := by
  rw [Detected, Detected, h]

/-! ### The statistics of a spectrum (R94) -/

theorem stdDev_nonneg (x : List Int) : 0 ≤ stdDev x := Real.sqrt_nonneg _

theorem length_mul_stdDev_sq {x : List Int} (hx : 0 < x.length) :
    x.length * stdDev x ^ 2 = ∑ k ∈ Finset.range x.length, (magnitude x k - mean x) ^ 2 := by
  rw [stdDev, Real.sq_sqrt (by positivity), mul_div_cancel₀ _ (by exact_mod_cast hx.ne')]

theorem sum_magnitude_sub_mean {x : List Int} (hx : 0 < x.length) :
    ∑ k ∈ Finset.range x.length, (magnitude x k - mean x) = 0 := by
  rw [Finset.sum_sub_distrib, Finset.sum_const, Finset.card_range, nsmul_eq_mul, mean,
    mul_div_cancel₀ _ (by exact_mod_cast hx.ne'), sub_self]

/-- Without spread every bin is at the mean, and then the mean is the bin's magnitude (R96). -/
theorem magnitude_eq_mean_of_stdDev_eq_zero {x : List Int} (h : stdDev x = 0) (k : Nat) : magnitude x k = mean x := by
  rcases x.length.eq_zero_or_pos with hnil | hx
  · rw [List.length_eq_zero_iff.mp hnil]
    simp [magnitude, coefficient, mean]
  · have hsum := length_mul_stdDev_sq hx
    rw [h, zero_pow two_ne_zero, mul_zero, eq_comm, Finset.sum_eq_zero_iff_of_nonneg fun _ _ => sq_nonneg _] at hsum
    rw [← magnitude_mod]
    exact sub_eq_zero.mp (pow_eq_zero_iff two_ne_zero |>.mp (hsum _ (Finset.mem_range.mpr (Nat.mod_lt k hx))))

theorem stdDev_eq_zero_of_flat {x : List Int} {a : ℝ} (hx : 0 < x.length) (h : ∀ k, magnitude x k = a) :
    stdDev x = 0 := by
  have hmean : mean x = a := by
    rw [mean, Finset.sum_congr rfl fun k _ => h k, Finset.sum_const, Finset.card_range, nsmul_eq_mul,
      mul_div_cancel_left₀ _ (by exact_mod_cast hx.ne')]
  simp [stdDev, h, hmean]

theorem not_detected_of_stdDev_eq_zero {x : List Int} (h : stdDev x = 0) (b : Nat) (θ : ℝ) : ¬Detected x b θ := by
  rw [Detected, magnitude_eq_mean_of_stdDev_eq_zero h, h, mul_zero, sub_self]
  exact lt_irrefl 0

/-- An impulse has one term in every coefficient, of one absolute value (R96). -/
theorem magnitude_replicate_set {n i : Nat} (v : Int) (hi : i < n) (k : Nat) :
    magnitude ((List.replicate n 0).set i v) k = |(v : ℝ)| := by
  have hlen : ((List.replicate n 0).set i v).length = n := by simp
  have hterm : coefficient ((List.replicate n 0).set i v) k = (v : ℂ) * unityRoot n ^ (k * i) := by
    rw [coefficient_eq_polyAt, polyAt, hlen, Finset.sum_eq_single_of_mem i (Finset.mem_range.mpr hi)]
    · simp [List.getD_eq_getElem?_getD, hi]
    · intro j hj hji
      have hzero : ((List.replicate n 0).set i v).getD j 0 = 0 := by
        rw [List.getD_eq_getElem?_getD, List.getElem?_set_ne hji.symm, ← List.getD_eq_getElem?_getD,
          List.getD_replicate _ (Finset.mem_range.mp hj)]
      rw [hzero, Int.cast_zero, zero_mul]
  rw [magnitude, hterm, norm_mul, norm_pow, norm_unityRoot n (by omega), one_pow, mul_one, Complex.norm_intCast]

/-- No value of a population of `N` is further than `√(N − 1)` deviations from the mean: what one bin lies above
the mean, the `N - 1` others together lie below it (R97). -/
theorem sq_magnitude_sub_mean_le {x : List Int} {b : Nat} (hb : b < x.length) :
    (magnitude x b - mean x) ^ 2 ≤ (x.length - 1) * stdDev x ^ 2 := by
  have hx : 0 < x.length := by omega
  have hmem := Finset.mem_range.mpr hb
  have hsum := sum_magnitude_sub_mean hx
  have hsq := length_mul_stdDev_sq hx
  have hothers := sq_sum_le_card_mul_sum_sq (s := (Finset.range x.length).erase b)
    (f := fun k => magnitude x k - mean x)
  rw [← Finset.add_sum_erase _ _ hmem] at hsum hsq
  rw [Finset.card_erase_of_mem hmem, Finset.card_range, Nat.cast_pred hx, eq_neg_of_add_eq_zero_right hsum, neg_sq,
    eq_sub_of_add_eq' hsq.symm] at hothers
  have hN : (0 : ℝ) < x.length := by exact_mod_cast hx
  exact le_of_mul_le_mul_left (by linarith) hN

theorem magnitude_sub_mean_le {x : List Int} (hx : 0 < x.length) (b : Nat) :
    magnitude x b - mean x ≤ √((x.length : ℝ) - 1) * stdDev x := by
  have hN : (1 : ℝ) ≤ x.length := by exact_mod_cast hx
  calc magnitude x b - mean x
      ≤ √((x.length - 1) * stdDev x ^ 2) := by
        rw [← magnitude_mod]
        exact Real.le_sqrt_of_sq_le (sq_magnitude_sub_mean_le (Nat.mod_lt b hx))
    _ = √((x.length : ℝ) - 1) * stdDev x := by rw [Real.sqrt_mul (by linarith), Real.sqrt_sq (stdDev_nonneg x)]

/-! ### A scaled window (R99) -/

section Scaled

variable {x y : List Int} {a : ℝ}

theorem magnitude_of_scaled (hlen : y.length = x.length)
    (hscale : ∀ i < x.length, ((y.getD i 0 : Int) : ℝ) = a * ((x.getD i 0 : Int) : ℝ)) (k : Nat) :
    magnitude y k = |a| * magnitude x k := by
  have hcoeff : coefficient y k = (a : ℂ) * coefficient x k := by
    rw [coefficient, coefficient, hlen, Finset.mul_sum]
    refine Finset.sum_congr rfl fun i hi => ?_
    have hi' : ((y.getD i 0 : Int) : ℂ) = (a : ℂ) * ((x.getD i 0 : Int) : ℂ) := by
      exact_mod_cast congrArg Complex.ofReal (hscale i (Finset.mem_range.mp hi))
    rw [hi', mul_assoc]
  rw [magnitude, hcoeff, norm_mul, Complex.norm_real, Real.norm_eq_abs, magnitude]

theorem mean_of_scaled {c : ℝ} (hlen : y.length = x.length) (hmag : ∀ k, magnitude y k = c * magnitude x k) :
    mean y = c * mean x := by
  simp only [mean, hlen, hmag, ← Finset.mul_sum, mul_div_assoc]

theorem stdDev_of_scaled {c : ℝ} (hc : 0 ≤ c) (hlen : y.length = x.length)
    (hmag : ∀ k, magnitude y k = c * magnitude x k) : stdDev y = c * stdDev x := by
  simp only [stdDev, hlen, hmag, mean_of_scaled hlen hmag, ← mul_sub, mul_pow, ← Finset.mul_sum, mul_div_assoc]
  rw [Real.sqrt_mul (sq_nonneg c), Real.sqrt_sq hc]

theorem detected_of_scaled {c : ℝ} (hc : 0 < c) (hlen : y.length = x.length)
    (hmag : ∀ k, magnitude y k = c * magnitude x k) (b : Nat) (θ : ℝ) : Detected y b θ ↔ Detected x b θ := by
  rw [Detected, Detected, hmag, mean_of_scaled hlen hmag, stdDev_of_scaled hc.le hlen hmag, mul_left_comm, ← mul_sub]
  exact mul_lt_mul_iff_right₀ hc

end Scaled

/-! ### Mirror bins (R93) -/

/-- The samples are real, so bins `k` and `N - k` hold conjugate coefficients. -/
theorem coefficient_mirror {x : List Int} {k : Nat} (hk : k < x.length) :
    coefficient x (x.length - k) = (starRingEnd ℂ) (coefficient x k) := by
  have hx : 0 < x.length := by omega
  have hone := unityRoot_pow x.length hx
  rw [coefficient_eq_polyAt, coefficient_eq_polyAt, conj_polyAt x k hx, polyAt, polyAt]
  refine Finset.sum_congr rfl fun i _ => ?_
  have hinv : unityRoot x.length ^ (x.length - k) = (unityRoot x.length)⁻¹ ^ k := by
    rw [inv_pow]
    exact eq_inv_of_mul_eq_one_left (by rw [← pow_add, Nat.sub_add_cancel hk.le, hone])
  rw [pow_mul, pow_mul, hinv]

theorem magnitude_mirror {x : List Int} {k : Nat} (hk : k < x.length) :
    magnitude x ((x.length - k) % x.length) = magnitude x k := by
  rw [magnitude_mod, magnitude, coefficient_mirror hk, Complex.norm_conj, magnitude]

/-! ### Equal bins (R100) -/

/-- The spectrum of R100: magnitude `M` on the bins of `B`, and 0 on the other bins of the window. -/
structure EqualBins (x : List Int) (B : Finset Nat) (M : ℝ) : Prop where
  subset : B ⊆ Finset.range x.length
  on : ∀ k ∈ B, magnitude x k = M
  off : ∀ k < x.length, k ∉ B → magnitude x k = 0

section EqualBins

variable {x : List Int} {B : Finset Nat} {M : ℝ}

/-- A sum over all bins of a function of the magnitude has two terms, one for each level. -/
theorem EqualBins.sum_comp (h : EqualBins x B M) (g : ℝ → ℝ) :
    ∑ k ∈ Finset.range x.length, g (magnitude x k) = B.card * g M + (x.length - B.card) * g 0 := by
  have hcard : ((Finset.range x.length \ B).card : ℝ) = x.length - B.card := by
    rw [Finset.card_sdiff_of_subset h.subset, Finset.card_range, Nat.cast_sub]
    simpa using Finset.card_le_card h.subset
  have hon : ∀ k ∈ B, g (magnitude x k) = g M := fun k hk => by rw [h.on k hk]
  have hoff : ∀ k ∈ Finset.range x.length \ B, g (magnitude x k) = g 0 := fun k hk => by
    obtain ⟨hlt, hB⟩ := Finset.mem_sdiff.mp hk
    rw [h.off k (Finset.mem_range.mp hlt) hB]
  rw [← Finset.sum_sdiff h.subset, Finset.sum_congr rfl hoff, Finset.sum_congr rfl hon,
    Finset.sum_const, Finset.sum_const, nsmul_eq_mul, nsmul_eq_mul, hcard, add_comm]

theorem EqualBins.mean_eq (h : EqualBins x B M) : mean x = B.card * M / x.length := by
  have hsum := h.sum_comp id
  simp only [id, mul_zero, add_zero] at hsum
  rw [mean, hsum]

theorem EqualBins.stdDev_eq (h : EqualBins x B M) (hM : 0 ≤ M) (hx : 0 < x.length) :
    stdDev x = M * √(B.card * (x.length - B.card)) / x.length := by
  have hN : (0 : ℝ) < x.length := by exact_mod_cast hx
  have hvar : (∑ k ∈ Finset.range x.length, (magnitude x k - mean x) ^ 2) / (x.length : ℝ) =
      (M / x.length) ^ 2 * (B.card * (x.length - B.card)) := by
    rw [h.sum_comp fun A => (A - mean x) ^ 2, h.mean_eq]
    field_simp
    ring
  rw [stdDev, hvar, Real.sqrt_mul (sq_nonneg _), Real.sqrt_sq (div_nonneg hM hN.le)]
  ring

/-- On the `j` equal bins the test of R95 is `θ·√(j(N − j)) < N − j`. -/
theorem EqualBins.detected_iff_of_mem (h : EqualBins x B M) (hM : 0 < M) {b : Nat} (hb : b ∈ B) (θ : ℝ) :
    Detected x b θ ↔ θ * √(B.card * (x.length - B.card)) < x.length - B.card := by
  have hx : 0 < x.length := (Nat.zero_le b).trans_lt (Finset.mem_range.mp (h.subset hb))
  have hN : (0 : ℝ) < x.length := by exact_mod_cast hx
  have hexcess : M - B.card * M / x.length = M / x.length * (x.length - B.card) := by field_simp
  rw [Detected, h.on b hb, h.stdDev_eq hM.le hx, h.mean_eq, hexcess, mul_div_right_comm, mul_left_comm]
  exact mul_lt_mul_iff_right₀ (div_pos hM hN)

/-- On the other bins the test of R95 is `θ·√(j(N − j)) < −j`. -/
theorem EqualBins.detected_iff_of_notMem (h : EqualBins x B M) (hM : 0 < M) {b : Nat} (hb : b < x.length)
    (hB : b ∉ B) (θ : ℝ) : Detected x b θ ↔ θ * √(B.card * (x.length - B.card)) < -B.card := by
  have hx : 0 < x.length := (Nat.zero_le b).trans_lt hb
  have hN : (0 : ℝ) < x.length := by exact_mod_cast hx
  have hexcess : 0 - B.card * M / x.length = M / x.length * -B.card := by ring
  rw [Detected, h.off b hb hB, h.stdDev_eq hM.le hx, h.mean_eq, hexcess, mul_div_right_comm, mul_left_comm]
  exact mul_lt_mul_iff_right₀ (div_pos hM hN)

end EqualBins

theorem div_sqrt_mul_eq {p q : ℝ} (hp : 0 < p) (hq : 0 < q) : q / √(p * q) = √(q / p) := by
  rw [Real.sqrt_div hq.le, Real.sqrt_mul hp.le, mul_comm, ← div_div, Real.div_sqrt]

/-! ### The statements

In a namespace of their own, so that the name of a settling theorem does not hide the model's `binIndex`. -/

namespace ToneDetector

/-- Settles O24: the remainder's range, and its quotient `-1` or `0` on the two ranges the document names. -/
theorem normalisedFrequency : Obligations.NormalisedFrequency := by
  intro fs f hfs
  rw [toReal_normFreq]
  refine ⟨realMod_nonneg hfs, realMod_lt hfs, ⟨⌊f.toReal / fs.toReal⌋, by rw [realMod, mul_comm]⟩,
    fun hlo hhi => ?_, fun hlo hhi => ?_⟩
  · rw [realMod_eq_sub_mul (-1) hfs] <;> push_cast <;> linarith
  · rw [realMod_eq_sub_mul 0 hfs] <;> push_cast <;> linarith

/-- Settles O25: the index lies in `[0, N)`, so its rounding reaches `N` only from `N - 1 / 2` on. -/
theorem binIndex : Obligations.BinIndex := by
  intro fs f n hfs hn q
  have hq : q = realMod fs.toReal f.toReal * n / fs.toReal := by rw [← toReal_normFreq]
  rw [hq, binIndex_eq]
  have hlt := index_lt (f := f.toReal) hfs hn
  exact ⟨realRound_nonneg (index_nonneg n hfs), realRound_le_of_le_natCast hlt.le, cast_realBin n hfs,
    realRound_eq_natCast_iff hlt⟩

/-- Settles O26: the two release tones fall on the whole indices `b + 4` and `b - 4`. -/
theorem releaseBinsFourApart : Obligations.ReleaseBinsFourApart := by
  intro r b hfs hn hb
  rw [toCfg_binHi, toCfg_binLo]
  refine ⟨cast_realBin_of_index_eq hfs hn ?_, cast_realBin_of_index_eq hfs hn ?_⟩
  · rw [index_add_mul_div _ _ hfs hn, hb, Int.cast_add, Int.cast_ofNat]
  · rw [index_add_mul_div _ _ hfs hn, hb, Int.cast_sub, Int.cast_ofNat, sub_eq_add_neg]

/-- Settles O31: without spread the test of R95 asks `0 < 0`, and an impulse has no spread. -/
theorem flatSpectrumDetectsNothing : Obligations.FlatSpectrumDetectsNothing := by
  refine ⟨fun x hdev => ⟨magnitude_eq_mean_of_stdDev_eq_zero hdev, fun bins θ => ?_⟩, fun n i v hi => ?_⟩
  · exact detectValues_of_not_detected (fun b => not_detected_of_stdDev_eq_zero hdev b _) bins
  · have hmag := magnitude_replicate_set v hi
    have hdev := stdDev_eq_zero_of_flat (by simp; omega) hmag
    exact ⟨hmag, fun bins θ =>
      detectValues_of_not_detected (fun b => not_detected_of_stdDev_eq_zero hdev b _) bins⟩

/-- Settles O32: the comparison of R95 at equality, at the mean, and at the largest excess a window can have. -/
theorem thresholdIsStrict : Obligations.ThresholdIsStrict := by
  intro x b θ hx
  simp only [detectValues_singleton_eq_false_iff, detectValues_singleton_eq_true_iff, Detected, not_lt]
  refine ⟨fun htie => htie.le, fun hθ hdev hmean => ?_, fun hθ => ?_⟩
  · rw [hmean, sub_self]
    exact mul_neg_of_neg_of_pos hθ hdev
  · exact (magnitude_sub_mean_le hx b).trans (mul_le_mul_of_nonneg_right hθ (stdDev_nonneg x))

/-- Settles O33: both sides of the test of R95 scale by `|a| > 0`. -/
theorem levelDoesNotMatter : Obligations.LevelDoesNotMatter := by
  intro x y a ha hlen hscale
  have hmag := magnitude_of_scaled hlen hscale
  exact ⟨hmag, mean_of_scaled hlen hmag, stdDev_of_scaled (abs_nonneg a) hlen hmag, fun bins θ =>
    detectValues_of_detected_iff (fun b => detected_of_scaled (abs_pos.mpr ha) hlen hmag b _) bins⟩

/-- Settles O35: DETECT reads a bin's magnitude alone, and conjugate coefficients have one absolute value. -/
theorem mirrorBinsAgree : Obligations.MirrorBinsAgree := by
  classical
  intro x k θ hk
  have hmag := (magnitude_mirror hk).symm
  refine ⟨hmag, ?_⟩
  simp only [detectValues_eq, List.map_cons, List.map_nil, detected_congr hmag]

/-- Settles O36: the sums of R94 have two kinds of terms, and dividing the test of R95 by `√(j(N − j))` gives R100's
z-scores. -/
theorem equalBinsClosedForm : Obligations.EqualBinsClosedForm := by
  intro x B M hsub hone hcard hM hon hoff
  have h : EqualBins x B M := ⟨hsub, hon, hoff⟩
  have hj : (0 : ℝ) < B.card := by exact_mod_cast hone
  have hrest : (0 : ℝ) < x.length - B.card := sub_pos.mpr (by exact_mod_cast hcard)
  have hroot : 0 < √((B.card : ℝ) * (x.length - B.card)) := Real.sqrt_pos.mpr (mul_pos hj hrest)
  refine ⟨h.mean_eq, h.stdDev_eq hM.le (by omega), fun b θ hb => ?_⟩
  rw [detectValues_singleton_eq_true_iff]
  split_ifs with hB
  · rw [h.detected_iff_of_mem hM hB, ← lt_div_iff₀ hroot, div_sqrt_mul_eq hj hrest]
  · rw [h.detected_iff_of_notMem hM hb hB, ← lt_div_iff₀ hroot, neg_div, mul_comm (B.card : ℝ),
      div_sqrt_mul_eq hrest hj]

end ToneDetector

end Sys2Proof.Proofs
end

section
/-!
PROOFS of the family 42_wakeup.md: the search cycle, the arming after the window, the monotone flags, and the position's
origin, which no outcome depends on.
-/
namespace Sys2Proof.Proofs

open Sys2Proof.Machine Sys2Proof.Safety Sys2Proof.Laws

/-! ### The wake-up vectors -/

/-- Step 2 of WAKE_STEP unsets no flag (R103). -/
theorem getD_acquireFlags_of_set {fs : List Bool} (ds : List Bool) {i : Nat} (h : fs.getD i false = true) :
    (acquireFlags fs ds).getD i false = true := by
  have hi : i < fs.length := by
    by_contra! hge
    rw [List.getD_eq_default _ _ hge] at h
    cases h
  rw [getD_acquireFlags fs ds i hi, h, Bool.true_or]

theorem mem_iff_getD {α : Type} (l : List α) (a d : α) : a ∈ l ↔ ∃ i < l.length, l.getD i d = a := by
  rw [List.mem_iff_getElem]
  exact exists_congr fun i => ⟨fun ⟨hi, ha⟩ => ⟨hi, (List.getD_eq_getElem l d hi).trans ha⟩,
    fun ⟨hi, ha⟩ => ⟨hi, (List.getD_eq_getElem l d hi).symm.trans ha⟩⟩

theorem length_wakeBin {p : Params} {c : Cfg} (h : CfgLegal p c) : c.wakeBin.length = c.nw := by
  obtain ⟨r, -, -, rfl⟩ := h
  exact List.length_map _

theorem length_flag {c : Cfg} {S : Regs} (h : WakeUpLegal c S) : S.flag.length = c.nw := by
  rw [h.paired, List.length_map, h.tones]

/-- A legal configuration has a tone (V4 of R139). -/
theorem one_le_nw {p : Params} {c : Cfg} (h : CfgLegal p c) : 1 ≤ c.nw := by
  obtain ⟨r, -, hvalid, rfl⟩ := h
  obtain ⟨-, -, -, ⟨hnw, -⟩, -⟩ := (valid_iff p r).mp hvalid
  exact hnw

/-- With paired vectors, a record with tones is armed exactly when no time is missing (R26, R27). -/
theorem armed_iff_none_not_mem {S : Regs} (h : S.flag = S.time.map Option.isSome) (hne : S.time ≠ []) :
    armed S = true ↔ none ∉ S.time := by
  rw [armed_iff, h]
  simp only [ne_eq, List.map_eq_nil_iff, hne, not_false_eq_true, true_and, List.forall_mem_map]
  exact ⟨fun hall hnone => Bool.false_ne_true (hall none hnone),
    fun hnone o ho => Option.isSome_iff_ne_none.mpr fun ho' => hnone (ho' ▸ ho)⟩

theorem getD_flag {S : Regs} (h : S.flag = S.time.map Option.isSome) (i : Nat) :
    S.flag.getD i false = (S.time.getD i none).isSome := by
  rw [h]
  exact List.getD_map (d := none) ..

/-- The clearing, with the vectors written out (R105). -/
theorem clearWakeUp_eq {c : Cfg} {S : Regs} (h : WakeUpLegal c S) :
    clearWakeUp S =
      { S with flag := List.replicate c.nw false, time := List.replicate c.nw none, pos := 0 } := by
  rw [clearWakeUp, List.map_const', List.map_const', length_flag h, h.tones]

/-! ### A STEP that is ready for its cycle, and the search phase -/

section

variable {s : State} {c : Cfg} {m : Mode}

theorem configured_of_ready (h : CycleReady s c m) : ConfiguredLegal s.params c s.regs := h.legal.present c h.cfg

theorem chunk_fits_of_ready (h : CycleReady s c m) : s.chunkPort.length ≤ c.n := by
  obtain ⟨-, hfits, -⟩ := (pushAllowed_iff _ _ _).mp (pushAllowed_of_cfgLegal (configured_of_ready h).cfg h.chunk)
  exact hfits

/-- A STEP that is ready runs its cycle (R140). -/
theorem exec_step_of_ready (h : CycleReady s c m) (hm : m = .searchingWakeup ∨ m = .decodingRelease) :
    exec .step s = .next (s.respond (cycle s.params c s.chunkPort (clearLast s.regs))) :=
  (execStep_of_configured (h.mode ▸ hm) h.cfg).trans
    (stepConfigured_of_allowed h.chunk (pushAllowed_of_cfgLegal (configured_of_ready h).cfg h.chunk))

theorem inv_of_ready {t : State} (h : CycleReady s c m) (hm : m = .searchingWakeup ∨ m = .decodingRelease)
    (hexec : exec .step s = .next t) : Inv t := by
  cases (exec_step_of_ready h hm).symm.trans hexec
  exact (runningLegal_cycle h.legal h.cfg (h.mode ▸ hm) s.chunkPort).regsLegal

end

/-- Arming, the end of a search cycle with every tone flagged (R106). -/
def arm (S : Regs) : Regs := { S with mode := .decodingRelease }

/-- The record after step 2 of WAKE_STEP, from the detections of its own window (R102). -/
def acquired (c : Cfg) (S : Regs) : Regs := acquire (detect c.n S c.wakeBin c.thetaW) S

/-- The search phase ends in the stale reset, in arming, or with the acquisition alone (R102, R141). -/
theorem searchPhase_eq (p : Params) (c : Cfg) (S : Regs) :
    searchPhase p c S =
      if isStale p (acquired c S) then staleReset (acquired c S)
      else if armed (acquired c S) then arm (acquired c S)
      else acquired c S := by
  rcases searchPhase_cases p c S with ⟨hstale, e⟩ | ⟨hstale, harmed, e⟩ | ⟨hstale, harmed, e⟩ <;> rw [e]
  · exact (if_pos hstale).symm
  · exact ((if_neg (Bool.eq_false_iff.mp hstale)).trans (if_pos harmed)).symm
  · exact ((if_neg (Bool.eq_false_iff.mp hstale)).trans (if_neg (Bool.eq_false_iff.mp harmed))).symm

/-! ### The position's origin (R111): what the shift commutes with -/

/-- `S` with `d` added to the position and to every recorded time. -/
def shift (d : Nat) (S : Regs) : Regs := { S with pos := S.pos + d, time := S.time.map (Option.map (· + d)) }

theorem shiftedBy_iff {d : Nat} {S S' : Regs} : ShiftedBy d S S' ↔ S' = shift d S := Iff.rfl

theorem min?_map_add (l : List Nat) (d : Nat) : (l.map (· + d)).min? = l.min?.map (· + d) := by
  cases hmin : l.min? with
  | none => simp [List.min?_eq_none_iff.mp hmin]
  | some m =>
    obtain ⟨hmem, hle⟩ := List.min?_eq_some_iff.mp hmin
    refine List.min?_eq_some_iff.mpr ⟨List.mem_map_of_mem hmem, fun u hu => ?_⟩
    obtain ⟨v, hv, rfl⟩ := List.mem_map.mp hu
    exact Nat.add_le_add_right (hle v hv) d

theorem earliest_shift (d : Nat) (S : Regs) : earliest (shift d S) = (earliest S).map (· + d) := by
  have htimes : (shift d S).time.filterMap id = (S.time.filterMap id).map (· + d) := by
    rw [shift, List.filterMap_map, List.map_filterMap]
    rfl
  have hflag : (shift d S).flag = S.flag := rfl
  rw [earliest, earliest, htimes, hflag, min?_map_add]
  split <;> rfl

/-- How far the position lies past a recorded time does not depend on the origin. -/
theorem isStale_shift (p : Params) (d : Nat) (S : Regs) : isStale p (shift d S) = isStale p S := by
  rw [isStale, isStale, earliest_shift]
  cases earliest S with
  | none => rfl
  | some t => simp [shift, Nat.add_sub_add_right]

theorem isTimeout_shift (p : Params) (d : Nat) (S : Regs) : isTimeout p (shift d S) = isTimeout p S := by
  rw [isTimeout, isTimeout, earliest_shift]
  cases earliest S with
  | none => rfl
  | some t => simp [shift, Nat.add_sub_add_right]

theorem acquireTimes_shift (pos d : Nat) (fs : List Bool) (ts : List (Option Nat)) (ds : List Bool) :
    acquireTimes (pos + d) fs (ts.map (Option.map (· + d))) ds =
      (acquireTimes pos fs ts ds).map (Option.map (· + d)) := by
  induction fs generalizing ts ds with
  | nil => rfl
  | cons f fs ih =>
    cases ts with
    | nil => rfl
    | cons t ts =>
      cases ds with
      | nil => rfl
      | cons v ds =>
        simp only [List.map_cons, acquireTimes, ih]
        split <;> rfl

theorem acquired_shift (c : Cfg) (d : Nat) (S : Regs) : acquired c (shift d S) = shift d (acquired c S) := by
  have htimes := acquireTimes_shift S.pos d S.flag S.time (detect c.n S c.wakeBin c.thetaW)
  exact congrArg (fun ts => { acquired c (shift d S) with time := ts }) htimes

theorem takeChunk_shift (c : Cfg) (chunk : List Sample) (d : Nat) (S : Regs) :
    takeChunk c chunk (shift d S) = shift d (takeChunk c chunk S) :=
  congrArg (fun n => { shift d (takeChunk c chunk S) with pos := n }) (Nat.add_right_comm S.pos d c.c)

/-- The clearing forgets the origin. -/
theorem clearWakeUp_shift (d : Nat) (S : Regs) : clearWakeUp (shift d S) = clearWakeUp S := by
  have htimes : (S.time.map (Option.map (· + d))).map (fun _ => (none : Option Nat)) = S.time.map fun _ => none :=
    List.map_map
  exact congrArg (fun ts => { clearWakeUp S with time := ts }) htimes

theorem staleReset_shift (d : Nat) (S : Regs) : staleReset (shift d S) = staleReset S :=
  congrArg (fun R => { R with last := { S.last with evStale := true } }) (clearWakeUp_shift d S)

theorem rearm_shift (cause : RearmCause) (d : Nat) (S : Regs) : rearm cause (shift d S) = rearm cause S :=
  congrArg (fun R => { rearm cause S with flag := R.flag, time := R.time, pos := 0 }) (clearWakeUp_shift d S)

theorem release_shift (d : Nat) (S : Regs) : release (shift d S) = release S :=
  congrArg (fun R => { release S with flag := R.flag, time := R.time, pos := 0 }) (clearWakeUp_shift d S)

theorem decodeStepWith_shift (p : Params) (c : Cfg) (sym : Int) (d : Nat) (S : Regs) :
    decodeStepWith p c sym (shift d S) = (shift d (decodeStepWith p c sym S).1, (decodeStepWith p c sym S).2) := by
  rw [decodeStepWith, isTimeout_shift]
  rfl

/-! ### The position's origin: the outcome of a command -/

/-- `R'` is `R` with the shift `d`, or `R` itself with every time cleared: what R111 says of the records that a command
leaves. -/
def SameOutcome (d : Nat) (R R' : Regs) : Prop :=
  ∃ d', (d' = d ∨ (d' = 0 ∧ ∀ u, some u ∉ R.time)) ∧ ShiftedBy d' R R'

theorem sameOutcome_shift (d : Nat) (R : Regs) : SameOutcome d R (shift d R) := ⟨d, .inl rfl, rfl⟩

theorem shift_zero (S : Regs) : shift 0 S = S := by simp [shift]

theorem sameOutcome_of_noTime {R : Regs} (d : Nat) (h : ∀ u, some u ∉ R.time) : SameOutcome d R R :=
  ⟨0, .inr ⟨rfl, h⟩, shiftedBy_iff.mpr (shift_zero R).symm⟩

theorem sameOutcome_searchPhase (p : Params) (c : Cfg) (d : Nat) (S : Regs) :
    SameOutcome d (searchPhase p c S) (searchPhase p c (shift d S)) := by
  have harmed : armed (shift d (acquired c S)) = armed (acquired c S) := rfl
  rw [searchPhase_eq, searchPhase_eq, acquired_shift, isStale_shift, staleReset_shift, harmed]
  split_ifs
  · exact sameOutcome_of_noTime d (some_not_mem_cleared _)
  · exact sameOutcome_shift d (arm (acquired c S))
  · exact sameOutcome_shift d (acquired c S)

theorem sameOutcome_settle (p : Params) (c : Cfg) (r : DecodeResult) (d : Nat) (S : Regs) :
    SameOutcome d (settle p c r S) (settle p c r (shift d S)) := by
  have happend : append r.bits (shift d S) = shift d (append r.bits S) := rfl
  have hverify : verify p c r.bits (shift d (append r.bits S)) = verify p c r.bits (append r.bits S) := rfl
  rw [settle, settle, happend, hverify, release_shift, rearm_shift]
  split
  · exact sameOutcome_of_noTime d (some_not_mem_cleared _)
  · split
    · exact sameOutcome_of_noTime d (some_not_mem_cleared _)
    · exact sameOutcome_shift d (append r.bits S)

theorem sameOutcome_cycle (p : Params) (c : Cfg) (chunk : List Sample) (d : Nat) (S : Regs) :
    SameOutcome d (cycle p c chunk S) (cycle p c chunk (shift d S)) := by
  have hmode : (shift d (takeChunk c chunk S)).mode = (takeChunk c chunk S).mode := rfl
  rw [cycle_eq_phase, cycle_eq_phase, takeChunk_shift, phase, phase, hmode]
  split
  · exact sameOutcome_searchPhase p c d _
  · have hdetect : decodeStep p c (shift d (takeChunk c chunk S)) = _ := decodeStepWith_shift p c _ d _
    rw [decodePhase, decodePhase, hdetect]
    exact sameOutcome_settle p c _ d _

theorem sameOutcome_configureRegs (p : Params) (r : ConfigRecord) (d : Nat) (S : Regs) :
    SameOutcome d (configureRegs p r S) (configureRegs p r (shift d S)) := by
  have hmode : (shift d S).mode = S.mode := rfl
  rw [configureRegs, configureRegs, hmode]
  split_ifs
  · exact sameOutcome_shift d (ignoreCommand S)
  · exact sameOutcome_shift d (raiseFault .reconfigure S)
  · exact sameOutcome_shift d (raiseFault .configNotFound S)
  · exact sameOutcome_shift d (raiseFault .configInvalid S)
  · exact sameOutcome_of_noTime d (by simp)

theorem sameOutcome_stopRegs (d : Nat) (S : Regs) : SameOutcome d (stopRegs S) (stopRegs (shift d S)) := by
  have hmode : (shift d S).mode = S.mode := rfl
  rw [stopRegs, stopRegs, hmode]
  split
  · exact sameOutcome_shift d (ignoreCommand S)
  · exact sameOutcome_shift d { clearLast S with mode := .stopped }

/-- STEP takes the same branch from both origins (R140): no check of it reads the position or a time. -/
theorem execStep_shift {s t : State} (d : Nat) (h : execStep s = .next t) :
    ∃ t', execStep { s with regs := shift d s.regs } = .next t' ∧ SameOutcome d t.regs t'.regs := by
  rcases execStep_cases s with ⟨hterm, e⟩ | ⟨hun, e⟩ | ⟨-, -, e⟩ | ⟨hruns, c, hcfg, hchunk⟩
  · cases e.symm.trans h
    exact ⟨_, execStep_of_terminal (s := { s with regs := shift d s.regs }) hterm,
      sameOutcome_shift d (ignoreCommand s.regs)⟩
  · cases e.symm.trans h
    exact ⟨_, execStep_of_unconfigured (s := { s with regs := shift d s.regs }) hun,
      sameOutcome_shift d (raiseFault .notConfigured s.regs)⟩
  · cases e.symm.trans h
  · have hrun := execStep_of_configured (s := { s with regs := shift d s.regs }) hruns hcfg
    rcases hchunk with ⟨hlen, e⟩ | ⟨hlen, hpush, e⟩ | ⟨-, -, e⟩ <;> cases e.symm.trans h
    · exact ⟨_, hrun.trans (stepConfigured_of_wrongLength hlen), sameOutcome_shift d (raiseFault .chunkSize s.regs)⟩
    · exact ⟨_, hrun.trans (stepConfigured_of_allowed hlen hpush),
        sameOutcome_cycle s.params c s.chunkPort d (clearLast s.regs)⟩

theorem exec_shift {i : Instr} {s t : State} (d : Nat) (h : exec i s = .next t) :
    ∃ t', exec i { s with regs := shift d s.regs } = .next t' ∧ SameOutcome d t.regs t'.regs := by
  cases i with
  | step => exact execStep_shift d h
  | reset =>
    cases h
    exact ⟨_, rfl, sameOutcome_of_noTime d (R := Regs.reset) nofun⟩
  | configure =>
    cases h
    exact ⟨_, rfl, sameOutcome_configureRegs s.params s.cfgPort d s.regs⟩
  | stop =>
    cases h
    exact ⟨_, rfl, sameOutcome_stopRegs d s.regs⟩
  | status =>
    cases h
    exact ⟨_, rfl, sameOutcome_shift d s.regs⟩

/-- The status word shows neither the position nor a time (R70). -/
theorem statusWord_of_shiftedBy {d : Nat} {S S' : Regs} (h : ShiftedBy d S S') : statusWord S' = statusWord S := by
  rw [shiftedBy_iff.mp h]
  rfl

/-- Settles O40: every comparison of a time is with the position, every write of a time writes the position, and the
clearings forget both. -/
theorem positionOriginDoesNotMatter : Obligations.PositionOriginDoesNotMatter := by
  intro i s s' t d hs hshift hexec
  obtain rfl : s' = { s with regs := shift d s.regs } := hs.trans (by rw [shiftedBy_iff.mp hshift])
  obtain ⟨t', hexec', d', hd', hregs⟩ := exec_shift d hexec
  refine ⟨t', d', hexec', hd', hregs, ?_⟩
  rw [exec_result_word hexec', exec_result_word hexec, statusWord_of_shiftedBy hregs]

/-! ### The flags are monotone (R112) -/

/-- Every flag set in `S` is set in `S'`, or `S'` shows the event that cleared it (R105, R131, R132). -/
def FlagsKeptOrShown (S S' : Regs) : Prop :=
  (∀ i, S.flag.getD i false = true → S'.flag.getD i false = true) ∨
    S'.last.evStale = true ∨ S'.last.evRearm = true ∨ S'.last.evReleased = true

theorem flagsKept_of_flag_eq {S S' : Regs} (h : S'.flag = S.flag) : FlagsKeptOrShown S S' :=
  .inl fun _ hi => h ▸ hi

theorem flagsKept_searchPhase (p : Params) (c : Cfg) (S : Regs) : FlagsKeptOrShown S (searchPhase p c S) := by
  have hacquired : ∀ i, S.flag.getD i false = true → (acquired c S).flag.getD i false = true :=
    fun _ hi => getD_acquireFlags_of_set _ hi
  rw [searchPhase_eq]
  split_ifs
  · exact .inr (.inl rfl)
  · exact .inl hacquired
  · exact .inl hacquired

theorem flagsKept_decodePhase (p : Params) (c : Cfg) (S : Regs) : FlagsKeptOrShown S (decodePhase p c S) := by
  obtain ⟨sym, -, ⟨-, e⟩ | ⟨cause, -, e⟩ | ⟨-, -, e⟩⟩ := decodePhase_cases p c S <;> rw [e]
  · exact .inr (.inr (.inr rfl))
  · exact .inr (.inr (.inl rfl))
  · exact flagsKept_of_flag_eq rfl

theorem flagsKept_cycle (p : Params) (c : Cfg) (chunk : List Sample) (S : Regs) :
    FlagsKeptOrShown S (cycle p c chunk (clearLast S)) := by
  rw [cycle_eq_phase, phase]
  split
  · exact flagsKept_searchPhase p c (takeChunk c chunk (clearLast S))
  · exact flagsKept_decodePhase p c (takeChunk c chunk (clearLast S))

/-- In `UNCONFIGURED` there is no flag to unset (R41). -/
theorem flag_eq_nil_of_unconfigured {p : Params} {S : Regs} (h : RegsLegal p S) (hmode : S.mode = .unconfigured) :
    S.flag = [] := by
  rw [(h.absent (h.unconfigured hmode)).clear]
  rfl

/-- In `DECODING_RELEASE` every tone is flagged (R106). -/
theorem flags_set_of_decoding {p : Params} {S : Regs} (h : RegsLegal p S) (hmode : S.mode = .decodingRelease) :
    ∀ f ∈ S.flag, f = true := by
  obtain ⟨c, hcfg⟩ := Option.ne_none_iff_exists'.mp (cfg_ne_none_of_runs h (.inr hmode))
  obtain ⟨harmed, -⟩ := (h.present c hcfg).decoding hmode
  obtain ⟨-, hset⟩ := (armed_iff S).mp harmed
  exact hset

/-- Settles O39: the flags by the effects of a step, and `DECODING_RELEASE` by the invariant, which the step keeps. -/
theorem flagsAreMonotone : Obligations.FlagsAreMonotone := by
  intro s t hlegal hstep
  refine ⟨?_, flags_set_of_decoding (stepKeepsLegal s t hlegal hstep)⟩
  have hresult : FlagsKeptOrShown s.regs t.regs ∨ ∃ h rest, s.host = h :: rest ∧ decode h.word = .ok .reset := by
    obtain ⟨-, heffect⟩ := recordEffect_of_step hstep
    generalize t.regs = S' at heffect ⊢
    cases heffect with
    | kept => exact .inl (flagsKept_of_flag_eq rfl)
    | reset h rest host word => exact .inr ⟨h, rest, host, word⟩
    | ignored _ => exact .inl (flagsKept_of_flag_eq rfl)
    | faulted _ _ _ => exact .inl (flagsKept_of_flag_eq rfl)
    | stopped _ => exact .inl (flagsKept_of_flag_eq rfl)
    | configured _ _ _ _ mode _ _ =>
      exact .inl (.inl fun i hi => by simp [flag_eq_nil_of_unconfigured hlegal mode] at hi)
    | cycled c chunk _ _ _ => exact .inl (flagsKept_cycle s.params c chunk s.regs)
  rwa [FlagsKeptOrShown, or_assoc, or_assoc, or_assoc] at hresult

/-! ### One search cycle (R102) -/

/-- The record from which the phase of a STEP's cycle starts (R141). -/
def taken (s : State) (c : Cfg) : Regs := takeChunk c s.chunkPort (clearLast s.regs)

/-- `R` with the ring and the pointer that a STEP's PUSH leaves (R80). -/
def withTakenRing (s : State) (c : Cfg) (R : Regs) : Regs := { R with ring := (taken s c).ring, wp := (taken s c).wp }

/-- The record of a STEP's search cycle after step 2 of WAKE_STEP (R102). -/
def searched (s : State) (c : Cfg) : Regs := acquired c (taken s c)

/-- The record that a search cycle leaves, but for the ring, from the times after step 2 and `ev_tone` (R102): the stale
reset, the arming, or neither. -/
def searchOutcome (p : Params) (c : Cfg) (S : Regs) (time : List (Option Nat)) (tone : Bool) : Regs :=
  if none ∈ time ∧ late p time (S.pos + c.c) = true then
    { S with
      flag := List.replicate c.nw false, time := List.replicate c.nw none, pos := 0,
      last := { Last.clear with evTone := tone, evStale := true } }
  else
    { S with
      flag := time.map Option.isSome, time := time, pos := S.pos + c.c,
      mode := if none ∈ time then .searchingWakeup else .decodingRelease,
      last := { Last.clear with evTone := tone } }

/-- Step 2 of the search cycle acquires the tone `i`: it is not flagged, and is detected in the new window (R103). -/
def AcquiresTone (s : State) (c : Cfg) (i : Nat) : Prop :=
  s.regs.flag.getD i false = false ∧
    Detected (windowAfter c s.regs [s.chunkPort]) (c.wakeBin.getD i 0) c.thetaW.toReal

section

variable {s : State} {c : Cfg} {m : Mode}

/-- The window that the cycle's phase reads (R141). -/
theorem window_taken (h : CycleReady s c m) :
    (window c.n (taken s c)).map sampleValue = windowAfter c s.regs [s.chunkPort] := by
  have hpush : window c.n (taken s c) = (window c.n s.regs).drop s.chunkPort.length ++ s.chunkPort :=
    window_push (configured_of_ready h).ring.canonical (chunk_fits_of_ready h)
  rw [hpush, windowAfter, List.flatten_singleton, List.drop_append_of_le_length (by simpa using chunk_fits_of_ready h)]
  rfl

/-- The cycle's detections, tone by tone (R95). -/
theorem getD_detect_taken_iff (h : CycleReady s c m) (bins : List Nat) (θ : RealNum) {i : Nat} (hi : i < bins.length) :
    (detect c.n (taken s c) bins θ).getD i false = true ↔
      Detected (windowAfter c s.regs [s.chunkPort]) (bins.getD i 0) θ.toReal := by
  rw [detect, window_taken h]
  exact detectValues_getD_iff _ bins θ i hi

theorem wakeUpLegal_searched (h : CycleReady s c m) : WakeUpLegal c (searched s c) :=
  wakeUpLegal_acquire _ (wakeUpLegal_congr (configured_of_ready h).wakeUp rfl rfl (Nat.le_add_right _ _))

/-- Whether the cycle acquires a tone, as the machine computes it. -/
theorem acquiresTone_iff (h : CycleReady s c m) {i : Nat} (hi : i < c.nw) :
    AcquiresTone s c i ↔
      s.regs.flag.getD i false = false ∧ (detect c.n (taken s c) c.wakeBin c.thetaW).getD i false = true := by
  rw [AcquiresTone, getD_detect_taken_iff h _ _ (by rwa [length_wakeBin (configured_of_ready h).cfg])]

/-- Step 2 on the times: an acquired tone gets the new position, every other tone keeps its time (R103). -/
theorem getD_searched_time (h : CycleReady s c m) {i : Nat} (hi : i < c.nw) :
    (AcquiresTone s c i → (searched s c).time.getD i none = some (s.regs.pos + c.c)) ∧
      (¬AcquiresTone s c i → (searched s c).time.getD i none = s.regs.time.getD i none) := by
  have hlen := length_flag (configured_of_ready h).wakeUp
  have htime := getD_acquireTimes (s.regs.pos + c.c) s.regs.flag s.regs.time
    (detect c.n (taken s c) c.wakeBin c.thetaW) i (by rwa [hlen]) (hlen.trans (configured_of_ready h).wakeUp.tones.symm)
  rw [acquiresTone_iff h hi]
  exact ⟨fun hacq => htime.trans (if_pos hacq), fun hnot => htime.trans (if_neg hnot)⟩

/-- `ev_tone` of the search cycle (R103). -/
theorem searched_evTone_iff (h : CycleReady s c m) :
    (searched s c).last.evTone = true ↔ ∃ i < c.nw, AcquiresTone s c i := by
  have hany : (searched s c).last.evTone = acquiresAny s.regs.flag (detect c.n (taken s c) c.wakeBin c.thetaW) := rfl
  rw [hany, acquiresAny_iff, length_flag (configured_of_ready h).wakeUp]
  exact exists_congr fun i => and_congr_right fun hi => (acquiresTone_iff h hi).symm

theorem isStale_searched_iff (h : CycleReady s c m) :
    isStale s.params (searched s c) = true ↔
      none ∈ (searched s c).time ∧ late s.params (searched s c).time (s.regs.pos + c.c) = true :=
  isStale_iff s.params (searched s c) (wakeUpLegal_searched h).paired

theorem armed_searched_iff (h : CycleReady s c m) : armed (searched s c) = true ↔ none ∉ (searched s c).time := by
  refine armed_iff_none_not_mem (wakeUpLegal_searched h).paired ?_
  rw [← List.length_pos_iff, (wakeUpLegal_searched h).tones]
  exact one_le_nw (configured_of_ready h).cfg

/-- The search phase of a ready STEP, on all but the ring (R102, R105, R106). -/
theorem searchPhase_taken (h : CycleReady s c .searchingWakeup) :
    searchPhase s.params c (taken s c) =
      withTakenRing s c
        (searchOutcome s.params c s.regs (searched s c).time (searched s c).last.evTone) := by
  have hlegal := wakeUpLegal_searched h
  have hreset : staleReset (searched s c) = { searched s c with
      flag := List.replicate c.nw false, time := List.replicate c.nw none, pos := 0,
      last := { (searched s c).last with evStale := true } } := by
    rw [staleReset, clearWakeUp_eq hlegal]
  have hpaired : searched s c = { searched s c with flag := (searched s c).time.map Option.isSome } := by
    rw [← hlegal.paired]
  have hsearching : searched s c = { searched s c with mode := .searchingWakeup } :=
    congrArg (fun m => { searched s c with mode := m }) h.mode
  rw [searchOutcome]
  rcases searchPhase_cases s.params c (taken s c) with ⟨hstale, e⟩ | ⟨hstale, harmed, e⟩ | ⟨hstale, harmed, e⟩ <;>
    rw [e]
  · rw [if_pos ((isStale_searched_iff h).mp hstale)]
    exact hreset
  · rw [if_neg fun hlate => Bool.eq_false_iff.mp hstale ((isStale_searched_iff h).mpr hlate),
      if_neg ((armed_searched_iff h).mp harmed)]
    exact congrArg (fun R => { R with mode := .decodingRelease }) hpaired
  · rw [if_neg fun hlate => Bool.eq_false_iff.mp hstale ((isStale_searched_iff h).mpr hlate),
      if_pos (not_not.mp fun hall => Bool.eq_false_iff.mp harmed ((armed_searched_iff h).mpr hall))]
    exact hsearching.trans (congrArg (fun R => { R with mode := .searchingWakeup }) hpaired)

theorem cycle_searching (h : CycleReady s c .searchingWakeup) :
    cycle s.params c s.chunkPort (clearLast s.regs) =
      withTakenRing s c
        (searchOutcome s.params c s.regs (searched s c).time (searched s c).last.evTone) :=
  (cycle_of_searching (S := clearLast s.regs) h.mode).trans (searchPhase_taken h)

/-- A ready STEP leaves `R`, if its cycle does but for the ring, where PUSH wrote (R80, R141). -/
theorem cycleLeaves_of_cycle_eq (h : CycleReady s c m) {R : Regs}
    (hcycle : cycle s.params c s.chunkPort (clearLast s.regs) = withTakenRing s c R) :
    CycleLeaves s c R (s.respond (cycle s.params c s.chunkPort (clearLast s.regs))) where
  ring := (cycle_takesChunk s.params (configured_of_ready h).ring.canonical (chunk_fits_of_ready h)).1
  rest := by
    rw [hcycle]
    rfl

end

theorem searchOutcome_evTone (p : Params) (c : Cfg) (S : Regs) (time : List (Option Nat)) (tone : Bool) :
    (searchOutcome p c S time tone).last.evTone = tone := by
  rw [searchOutcome]
  split <;> rfl

/-- Settles O37. The cycle pushes, step 2 gives the times, and what follows depends on them alone. -/
theorem searchCycle : Obligations.SearchCycle := by
  intro s c h x pos acquired
  have htone : (cycle s.params c s.chunkPort (clearLast s.regs)).last.evTone = (searched s c).last.evTone := by
    rw [cycle_searching h]
    exact searchOutcome_evTone ..
  refine ⟨_, (searched s c).time, exec_step_of_ready h (.inl rfl), (wakeUpLegal_searched h).tones,
    fun i hi => getD_searched_time h hi, ?_, cycleLeaves_of_cycle_eq h ?_⟩
  · rw [respond_regs, htone]
    exact searched_evTone_iff h
  · rw [respond_regs, htone]
    exact cycle_searching h

/-! ### The last tone after the window (R108) -/

section

variable {s : State} {c : Cfg} {m : Mode}

/-- Step 2 of WAKE_STEP keeps every recorded time (R103). -/
theorem mem_searched_time_of_mem (h : CycleReady s c m) {t : Nat} (ht : some t ∈ s.regs.time) :
    some t ∈ (searched s c).time := by
  obtain ⟨i, hi, hti⟩ := (mem_iff_getD _ _ none).mp ht
  have hwake := (configured_of_ready h).wakeUp
  have hold : ¬AcquiresTone s c i := fun hacq => by
    have hclear := hacq.1
    rw [getD_flag hwake.paired, hti] at hclear
    cases hclear
  have hkept := (getD_searched_time h (hwake.tones ▸ hi)).2 hold
  exact (mem_iff_getD _ _ none).mpr
    ⟨i, by rwa [(wakeUpLegal_searched h).tones, ← hwake.tones], hkept.trans hti⟩

/-- When every tone is flagged or detected, none is missing after step 2 (R103). -/
theorem none_not_mem_searched_time (h : CycleReady s c m)
    (hall : ∀ i < c.nw, s.regs.flag.getD i false = true ∨
      Detected (windowAfter c s.regs [s.chunkPort]) (c.wakeBin.getD i 0) c.thetaW.toReal) :
    none ∉ (searched s c).time := by
  intro hnone
  obtain ⟨i, hi, hmissing⟩ := (mem_iff_getD _ _ none).mp hnone
  rw [(wakeUpLegal_searched h).tones] at hi
  obtain ⟨hnew, hold⟩ := getD_searched_time h hi
  have hnot : ¬AcquiresTone s c i := fun hacq => nomatch (hnew hacq).symm.trans hmissing
  have hclear : s.regs.flag.getD i false = false := by
    rw [getD_flag (configured_of_ready h).wakeUp.paired, (hold hnot).symm.trans hmissing]
    rfl
  rcases hall i hi with hset | hdetected
  · exact Bool.false_ne_true (hclear.symm.trans hset)
  · exact hnot ⟨hclear, hdetected⟩

/-- A search cycle after which no tone is missing arms, however late it is, and keeps the decoder as it was (R106,
R108). -/
theorem cycle_arms (h : CycleReady s c .searchingWakeup) (hall : none ∉ (searched s c).time) :
    cycle s.params c s.chunkPort (clearLast s.regs) = arm (searched s c) := by
  have hphase : searchPhase s.params c (taken s c) = _ :=
    (searchPhase_eq s.params c (taken s c)).trans
      ((if_neg fun hstale => hall ((isStale_searched_iff h).mp hstale).1).trans
        (if_pos ((armed_searched_iff h).mpr hall)))
  exact (cycle_of_searching (S := clearLast s.regs) h.mode).trans hphase

end

/-- Past the timeout every decode cycle ends the attempt (R120). -/
theorem decodePhase_mode_of_timeout {p : Params} {S : Regs} (c : Cfg) (h : isTimeout p S = true) :
    (decodePhase p c S).mode ≠ .decodingRelease := by
  obtain ⟨sym, -, ⟨-, e⟩ | ⟨cause, -, e⟩ | ⟨-, htime, -⟩⟩ := decodePhase_cases p c S
  · rw [e]
    nofun
  · rw [e]
    nofun
  · cases h.symm.trans htime

/-- Inside a period no bit is decided and no tie found, so what ends the attempt there is the timeout (R120, R130). -/
theorem decodePhase_of_timeout_inside {p : Params} {c : Cfg} {S : Regs} (h : isTimeout p S = true)
    (hk : S.k + 1 ≠ c.p) : ∃ R, decodePhase p c S = rearm .timeout R := by
  rw [decodePhase, decodeStep]
  generalize symbol (detect c.n S [c.binHi, c.binLo] c.thetaR) = sym
  rcases decodeStepWith_cases p c sym S with ⟨-, e⟩ | ⟨hend, -⟩ | ⟨hend, -⟩
  · rw [e, settle, verify_nil, h, Bool.or_true]
    exact ⟨_, rfl⟩
  · exact absurd hend hk
  · exact absurd hend hk

/-- A decode cycle with the position past the timeout of some recorded time (R120). -/
theorem exec_step_of_late {s : State} {c : Cfg} (h : CycleReady s c .decodingRelease) {t₀ : Nat}
    (ht₀ : some t₀ ∈ s.regs.time) (hlate : s.params.tTimeout < s.regs.pos + c.c - t₀) :
    ∃ u, exec .step s = .next u ∧ u.regs.mode ≠ .decodingRelease ∧
      (s.regs.k + 1 ≠ c.p → u.regs.mode = .searchingWakeup ∧ u.regs.last.rearmCause = .timeout) := by
  have htimeout : isTimeout s.params (taken s c) = true :=
    (isTimeout_eq_late s.params (taken s c) (configured_of_ready h).wakeUp.paired).trans
      ((late_iff ..).mpr ⟨t₀, ht₀, hlate⟩)
  have hcycle : cycle s.params c s.chunkPort (clearLast s.regs) = decodePhase s.params c (taken s c) :=
    cycle_of_decoding (S := clearLast s.regs) h.mode
  refine ⟨_, exec_step_of_ready h (.inr rfl), ?_, fun hk => ?_⟩
  · rw [respond_regs, hcycle]
    exact decodePhase_mode_of_timeout c htimeout
  · obtain ⟨R, hrearm⟩ := decodePhase_of_timeout_inside (S := taken s c) htimeout hk
    rw [respond_regs, hcycle, hrearm]
    exact ⟨rfl, rfl⟩

/-- Settles O38. The arming cycle keeps every recorded time and leaves the decoder at the start of a period, and the next
cycle is later still. -/
theorem lastToneAfterTimeout : Obligations.LastToneAfterTimeout := by
  intro s c t₀ r chunk h ht₀ hlate hall hlen
  have hexec := exec_step_of_ready h (.inl rfl)
  have hlegal := inv_of_ready h (.inl rfl) hexec
  rw [cycle_arms h (none_not_mem_searched_time h hall)] at hexec hlegal
  have hready : CycleReady { s.respond (arm (searched s c)) with cfgPort := r, chunkPort := chunk } c
      .decodingRelease := ⟨hlegal, rfl, h.cfg, hlen⟩
  have hlater : s.params.tTimeout < s.regs.pos + c.c + c.c - t₀ := by omega
  obtain ⟨u, hnext, hends, hinside⟩ := exec_step_of_late hready (mem_searched_time_of_mem h ht₀) hlater
  obtain ⟨-, hk, -, -⟩ := (configured_of_ready h).searching h.mode
  have hk' : c.p ≠ 1 → s.regs.k + 1 ≠ c.p := by omega
  exact ⟨_, u, hexec, rfl, hnext, hends, fun hp => hinside (hk' hp)⟩

end Sys2Proof.Proofs
end

section
/-!
PROOFS of the family 43_symbol_decoder.md: the count of the decode cycles against the timeout, one decode cycle, the
decoder on an encoded sequence, and the clean transmission.
-/
namespace Sys2Proof.Proofs

open Sys2Proof.Machine Sys2Proof.Safety Sys2Proof.Laws

/-! ### The decode cycles of an attempt -/

/-- The decode cycles that an attempt has run so far (R116): `P` for each bit, and those of the period that runs. -/
def cyclesDone (c : Cfg) (S : Regs) : Nat := S.nbits * c.p + S.k

/-- The cycle that ends a period with a bit counts as every other: the bit stands for the whole period (R114). -/
theorem cyclesDone_of_period_end {c : Cfg} {S S' : Regs} (hnbits : S'.nbits = S.nbits + 1) (hk' : S'.k = 0)
    (hk : S.k + 1 = c.p) : cyclesDone c S' = cyclesDone c S + 1 :=
  calc cyclesDone c S' = S.nbits * c.p + c.p := by rw [cyclesDone, hnbits, hk', Nat.add_zero, Nat.succ_mul]
    _ = cyclesDone c S + 1 := by rw [cyclesDone, Nat.add_assoc, hk]

/-- The last of an attempt's `L·P` cycles is the one that ends the period of the last bit (R116). -/
theorem isLastCycle_iff {c : Cfg} {S : Regs} (hk : S.k < c.p) (hnbits : S.nbits < c.l) :
    cyclesDone c S + 1 = c.l * c.p ↔ S.nbits + 1 = c.l ∧ S.k + 1 = c.p := by
  rw [cyclesDone]
  constructor
  · intro hlast
    have hbits : S.nbits + 1 = c.l := by
      by_contra hne
      have hmore : (S.nbits + 1 + 1) * c.p ≤ c.l * c.p := Nat.mul_le_mul_right _ (by omega)
      rw [Nat.succ_mul, Nat.succ_mul] at hmore
      omega
    rw [← hbits, Nat.succ_mul] at hlast
    exact ⟨hbits, by omega⟩
  · rintro ⟨hbits, hperiod⟩
    rw [← hbits, Nat.succ_mul]
    omega

/-- The expected sequence has `L` bits (R17). -/
theorem length_expected {p : Params} {c : Cfg} (h : CfgLegal p c) : c.expected.length = c.l := by
  obtain ⟨r, -, -, rfl⟩ := h
  rfl

section

variable {p : Params} {c : Cfg} {S : Regs} {sym : Int}

/-- A cycle that does not assert `end_of_cycle` counts: it is no tie, and a bit stands for its whole period (R114). -/
theorem cyclesDone_decoded (h : (decodeStepWith p c sym S).2.eoc = false) :
    cyclesDone c (decoded p c sym S) = cyclesDone c S + 1 := by
  rw [decoded]
  rcases decodeStepWith_cases p c sym S with ⟨-, e⟩ | ⟨-, -, e⟩ | ⟨hk, b, -, e⟩ <;> rw [e] at h ⊢
  · rfl
  · cases h
  · exact cyclesDone_of_period_end rfl rfl hk

/-- A decode phase that goes on with the attempt has counted its cycle, and was in time (R116, R120). -/
theorem decodePhase_goes_on (h : (decodePhase p c S).mode = .decodingRelease) :
    (decodePhase p c S).cfg = S.cfg ∧ (decodePhase p c S).time = S.time ∧ (decodePhase p c S).pos = S.pos ∧
      cyclesDone c (decodePhase p c S) = cyclesDone c S + 1 ∧ isTimeout p S = false := by
  rw [decodePhase, decodeStep] at h ⊢
  generalize symbol (detect c.n S [c.binHi, c.binLo] c.thetaR) = sym at h ⊢
  rcases settle_cases p c (decodeStepWith p c sym S).2 (decodeStepWith p c sym S).1 with ⟨-, e⟩ | ⟨-, -, e⟩ |
    ⟨-, -, -, heoc, e⟩ <;> rw [e] at h ⊢
  · cases h
  · cases h
  · exact ⟨rfl, rfl, rfl, cyclesDone_decoded heoc, (incomplete_of_eoc_eq_false heoc).2⟩

/-- A decode phase releases only at the end of the last period: the message is complete only with the bit that it
decides there (R116, R134). -/
theorem decodePhase_releases_at_end (h : BaseLegal p c S) (hincomplete : S.nbits < c.l)
    (hmode : S.mode = .decodingRelease) (hreleased : (decodePhase p c S).mode = .released) :
    S.nbits + 1 = c.l ∧ S.k + 1 = c.p := by
  obtain ⟨sym, hsym, ⟨hmatch, -⟩ | ⟨cause, -, e⟩ | ⟨-, -, e⟩⟩ := decodePhase_cases p c S
  · have hnbits : (decoded p c sym S).nbits = c.l := by
      rw [← (decoderLegal_decoded hsym h.decoder hincomplete).message, hmatch, length_expected h.valid]
    rw [decoded] at hnbits
    rcases decodeStepWith_cases p c sym S with ⟨-, e⟩ | ⟨-, -, e⟩ | ⟨hk, b, -, e⟩ <;> rw [e] at hnbits
    · exact absurd hnbits hincomplete.ne
    · exact absurd hnbits hincomplete.ne
    · exact ⟨hnbits, hk⟩
  · rw [e] at hreleased
    cases hreleased
  · rw [e] at hreleased
    cases hmode.symm.trans hreleased

/-! ### The cycles done, against the timeout (R120, R177) -/

/-- Outside `DECODING_RELEASE` the phase bound says nothing. -/
theorem phaseBound_of_mode (h : S.mode ≠ .decodingRelease) : PhaseBound p S :=
  ⟨fun hm => absurd hm h, fun hm => absurd hm h⟩

/-- An attempt's phase opens with no decode cycle done, and no time lies after the position (R105, R106). -/
theorem phaseBound_opens {S' : Regs} (h : BaseLegal p c S') (hk : S'.k = 0) (hnbits : S'.nbits = 0) :
    PhaseBound p S' where
  elapsed _ _ t _ ht := by
    rw [hk, hnbits, Nat.zero_mul, Nat.zero_mul]
    exact h.wakeUp.past t ht
  inTime _ hcount := absurd hcount (by omega)

theorem phaseBound_searchPhase (h : BaseLegal p c S) (hmode : S.mode = .searchingWakeup)
    (hclear : S.acc = 0 ∧ S.k = 0 ∧ S.nbits = 0 ∧ S.msg = []) : PhaseBound p (searchPhase p c S) := by
  have hstill : S.mode ≠ .decodingRelease := by rw [hmode]; nofun
  rcases searchPhase_cases p c S with ⟨-, e⟩ | ⟨-, -, e⟩ | ⟨-, -, e⟩ <;> rw [e]
  · exact phaseBound_of_mode hstill
  · exact phaseBound_opens (baseLegal_arm (baseLegal_acquire h _)) hclear.2.1 hclear.2.2.1
  · exact phaseBound_of_mode hstill

/-- A decode phase that goes on adds one to the cycles done, whose chunk the position already counts. -/
theorem phaseBound_decodePhase (h : BaseLegal p c S)
    (hpos : ∀ t, some t ∈ S.time → t + (cyclesDone c S + 1) * c.c ≤ S.pos) : PhaseBound p (decodePhase p c S) := by
  by_cases hm : (decodePhase p c S).mode = .decodingRelease
  · obtain ⟨hcfg, htime, hposition, hcycles, hintime⟩ := decodePhase_goes_on hm
    rw [isTimeout_eq_late p S h.wakeUp.paired] at hintime
    refine ⟨fun _ d t hd ht => ?_, fun _ _ t ht => ?_⟩
    · cases h.cfg.symm.trans (hcfg.symm.trans hd)
      rw [hposition, ← cyclesDone, hcycles]
      exact hpos t (htime ▸ ht)
    · rw [hposition]
      exact le_of_not_late hintime (htime ▸ ht)
  · exact phaseBound_of_mode hm

theorem phaseBound_cycle (h : RegsLegal p S) (hcfg : S.cfg = some c)
    (hmode : S.mode = .searchingWakeup ∨ S.mode = .decodingRelease) (hbound : PhaseBound p S) (chunk : List Sample) :
    PhaseBound p (cycle p c chunk (clearLast S)) := by
  have htaken := baseLegal_takeChunk (baseLegal_clearLast h hcfg hmode) chunk
  rcases hmode with hm | hm
  · rw [cycle_of_searching (S := clearLast S) hm]
    exact phaseBound_searchPhase htaken hm ((h.present c hcfg).searching hm)
  · rw [cycle_of_decoding (S := clearLast S) hm]
    refine phaseBound_decodePhase htaken fun t ht => ?_
    have helapsed : t + cyclesDone c S * c.c ≤ S.pos := hbound.elapsed hm c t hcfg ht
    calc t + (cyclesDone c S + 1) * c.c = t + cyclesDone c S * c.c + c.c := by rw [Nat.succ_mul, Nat.add_assoc]
      _ ≤ S.pos + c.c := Nat.add_le_add_right helapsed c.c

/-- An armed record has a tone, with its time (R26, R27). -/
theorem exists_time_of_armed (hpaired : S.flag = S.time.map Option.isSome) (harmed : armed S = true) :
    ∃ t, some t ∈ S.time := by
  obtain ⟨hne, hset⟩ := (armed_iff S).mp harmed
  obtain ⟨f, hf⟩ := List.exists_mem_of_ne_nil _ hne
  have hrecorded := hset f hf
  rw [hpaired] at hf
  obtain ⟨o, ho, rfl⟩ := List.mem_map.mp hf
  obtain ⟨t, rfl⟩ := Option.isSome_iff_exists.mp hrecorded
  exact ⟨t, ho⟩

/-- Under the phase bound the timeout leaves room for all but the last of an attempt's `L·P` cycles, once they are done
(R120, R177). -/
theorem timeout_of_last_cycle (h : RegsLegal p S) (hcfg : S.cfg = some c) (hmode : S.mode = .decodingRelease)
    (hbound : PhaseBound p S) (hlast : cyclesDone c S + 1 = c.l * c.p) : (c.l * c.p - 1) * c.c ≤ p.tTimeout := by
  rw [← hlast, Nat.add_sub_cancel]
  rcases Nat.eq_zero_or_pos (S.nbits + S.k) with hfirst | hlater
  · have hnone : cyclesDone c S = 0 := by
      rw [cyclesDone, (Nat.add_eq_zero_iff.mp hfirst).1, (Nat.add_eq_zero_iff.mp hfirst).2, Nat.zero_mul]
    rw [hnone, Nat.zero_mul]
    exact Nat.zero_le _
  · obtain ⟨harmed, -⟩ := (h.present c hcfg).decoding hmode
    obtain ⟨t, ht⟩ := exists_time_of_armed (h.present c hcfg).wakeUp.paired harmed
    have helapsed : t + cyclesDone c S * c.c ≤ S.pos := hbound.elapsed hmode c t hcfg ht
    have hintime := hbound.inTime hmode hlater t ht
    omega

/-- A cycle that releases is the last of the attempt's `L·P`, and all before it fit the timeout (R120, R177). -/
theorem timeout_of_cycle_releases (h : RegsLegal p S) (hcfg : S.cfg = some c)
    (hmode : S.mode = .searchingWakeup ∨ S.mode = .decodingRelease) (hbound : PhaseBound p S) {chunk : List Sample}
    (hreleased : (cycle p c chunk (clearLast S)).mode = .released) : (c.l * c.p - 1) * c.c ≤ p.tTimeout := by
  have htaken := baseLegal_takeChunk (baseLegal_clearLast h hcfg hmode) chunk
  rcases hmode with hm | hm
  · rw [cycle_of_searching (S := clearLast S) hm] at hreleased
    have hstill : (takeChunk c chunk (clearLast S)).mode ≠ .released := by
      rw [takeChunk_mode, clearLast_mode, hm]
      nofun
    rcases searchPhase_cases p c (takeChunk c chunk (clearLast S)) with ⟨-, e⟩ | ⟨-, -, e⟩ | ⟨-, -, e⟩ <;>
      rw [e] at hreleased
    · exact absurd hreleased hstill
    · cases hreleased
    · exact absurd hreleased hstill
  · rw [cycle_of_decoding (S := clearLast S) hm] at hreleased
    obtain ⟨hnbits, hk⟩ := decodePhase_releases_at_end htaken ((h.present c hcfg).decoding hm).2 hm hreleased
    exact timeout_of_last_cycle h hcfg hm hbound
      ((isLastCycle_iff (h.present c hcfg).decoder.phase ((h.present c hcfg).decoding hm).2).mpr ⟨hnbits, hk⟩)

end

/-- Settles O12, by the effects of a step: only a cycle leads to `DECODING_RELEASE` or stays there. -/
theorem stepKeepsPhaseBound : Obligations.StepKeepsPhaseBound := by
  intro s t hlegal hbound hstep
  obtain ⟨hparams, heffect⟩ := recordEffect_of_step hstep
  rw [hparams]
  generalize t.regs = S' at heffect ⊢
  cases heffect with
  | kept => exact hbound
  | reset _ _ _ _ => exact phaseBound_of_mode nofun
  | ignored mode =>
    exact phaseBound_of_mode fun hm => Bool.eq_false_iff.mp (not_isTerminal_of_runs (.inr hm)) mode
  | faulted _ _ _ => exact phaseBound_of_mode nofun
  | stopped _ => exact phaseBound_of_mode nofun
  | configured _ _ _ _ _ _ _ => exact phaseBound_of_mode nofun
  | cycled c chunk mode cfg _ => exact phaseBound_cycle hlegal cfg mode hbound chunk

/-- Settles O13: only a cycle can release, and one that does shows that the timeout was long enough. -/
theorem shortTimeoutNeverReleases : Obligations.ShortTimeoutNeverReleases := by
  intro s t c hlegal hbound hcfg hshort hmode hstep hreleased
  obtain ⟨-, heffect⟩ := recordEffect_of_step hstep
  generalize t.regs = S' at heffect hreleased
  cases heffect with
  | kept => exact hmode hreleased
  | reset _ _ _ _ => cases hreleased
  | ignored _ => exact hmode hreleased
  | faulted _ _ _ => cases hreleased
  | stopped _ => cases hreleased
  | configured _ _ _ _ _ _ _ => cases hreleased
  | cycled d chunk mode hd _ =>
    cases hcfg.symm.trans hd
    exact (timeout_of_cycle_releases hlegal hcfg mode hbound hreleased).not_gt hshort

/-! ### One decode cycle (R114 to R120) -/

/-- A tie rearms, whatever the timeout and the count of bits are (R118, R130). -/
theorem settle_of_tie (p : Params) (c : Cfg) {r : DecodeResult} (S : Regs) (hbits : r.bits = [])
    (htie : r.tie = true) : settle p c r S = rearm .tie (append r.bits S) := by
  rw [settle, hbits, verify_nil, rearmCause, htie]
  rfl

/-- Where VERIFY and the sum end nothing, `end_of_cycle` does, and then it is the timeout that ended it (R130). -/
theorem settle_of_undecided (p : Params) (c : Cfg) {r : DecodeResult} {S : Regs} (htie : r.tie = false)
    (hverify : verify p c r.bits (append r.bits S) = { isMatch := false, isMismatch := false }) :
    settle p c r S = if r.eoc then rearm .timeout (append r.bits S) else append r.bits S := by
  rw [settle, hverify, rearmCause, htie]
  rfl

/-- A bit that leaves the message short of `L` bits completes nothing. It mismatches only with `PREFIX_REARM`, and only
if the expected sequence does not begin with the message (R127, R129). -/
theorem verify_of_open_bit {p : Params} {c : Cfg} {b : Bit} {S : Regs} (hlen : S.msg.length ≠ c.l)
    (hexpected : c.expected.length = c.l) (hprefix : S.msg <+: c.expected ∨ p.prefixRearm = false) :
    verify p c [b] S = { isMatch := false, isMismatch := false } := by
  have hmatch : S.msg ≠ c.expected := fun h => hlen (h ▸ hexpected)
  have hmismatch : mismatches p c S = false := by
    rw [mismatches]
    split
    · next hearly =>
      have hp : S.msg <+: c.expected := hprefix.resolve_right (by simp [hearly])
      rw [(isPrefix_iff _ _).mpr hp, Bool.not_true]
    · rw [decide_eq_false hlen, Bool.false_and]
  rw [verify, decide_eq_false hmatch, hmismatch]
  rfl

/-- REARM, with the vectors written out (R131). -/
theorem rearm_eq {c : Cfg} {S : Regs} (cause : RearmCause) (h : WakeUpLegal c S) :
    rearm cause S = rearmed c cause S.last S := by
  rw [rearm, clearWakeUp_eq h]
  rfl

/-- The sign of the sum decides the bit (R117). -/
theorem decideBit_of_ne_zero {z : Int} (h : z ≠ 0) : decideBit z = [if 0 < z then .one else .zero] := by
  rw [decideBit]
  split_ifs
  · rfl
  · rfl
  · omega

section

variable {s : State} {c : Cfg} {sym : Int}

/-- A ready STEP in `DECODING_RELEASE` decodes the symbol of the new window, and settles the attempt (R113, R141). -/
theorem cycle_decoding (h : CycleReady s c .decodingRelease)
    (hsym : IsSymbol (windowAfter c s.regs [s.chunkPort]) c sym) :
    cycle s.params c s.chunkPort (clearLast s.regs) =
      settle s.params c (decodeStepWith s.params c sym (taken s c)).2 (decodeStepWith s.params c sym (taken s c)).1 := by
  rw [cycle_of_decoding (S := clearLast s.regs) h.mode, decodePhase, decodeStep, detect, ← taken, window_taken h,
    symbol_of_isSymbol hsym]

/-- Such a STEP leaves `R`, if the settling of its attempt does but for the ring. -/
theorem exec_step_of_settled (h : CycleReady s c .decodingRelease)
    (hsym : IsSymbol (windowAfter c s.regs [s.chunkPort]) c sym) {R : Regs}
    (hsettle : settle s.params c (decodeStepWith s.params c sym (taken s c)).2
      (decodeStepWith s.params c sym (taken s c)).1 = withTakenRing s c R) :
    ∃ t, exec .step s = .next t ∧ CycleLeaves s c R t :=
  ⟨_, exec_step_of_ready h (.inr rfl), cycleLeaves_of_cycle_eq h ((cycle_decoding h hsym).trans hsettle)⟩

theorem isTimeout_taken (h : CycleReady s c .decodingRelease) :
    isTimeout s.params (taken s c) = late s.params s.regs.time (s.regs.pos + c.c) :=
  isTimeout_eq_late s.params (taken s c) (configured_of_ready h).wakeUp.paired

theorem incomplete_of_ready (h : CycleReady s c .decodingRelease) : s.regs.nbits < c.l :=
  ((configured_of_ready h).decoding h.mode).2

/-- After a decoding, which does not touch the wake-up state, REARM writes the vectors and the position out. -/
theorem rearm_decoded (h : CycleReady s c .decodingRelease) (cause : RearmCause) :
    rearm cause (decoded s.params c sym (taken s c)) =
      withTakenRing s c (rearmed c cause (decoded s.params c sym (taken s c)).last s.regs) :=
  rearm_eq cause (wakeUpLegal_congr (configured_of_ready h).wakeUp rfl rfl (Nat.le_add_right _ _))

/-- A decode cycle whose sum and bit end nothing goes on, unless the timeout rearms it (R120, R130). -/
theorem settle_taken_of_undecided (h : CycleReady s c .decodingRelease)
    (htie : (decodeStepWith s.params c sym (taken s c)).2.tie = false)
    (hverify : verify s.params c (decodeStepWith s.params c sym (taken s c)).2.bits
      (decoded s.params c sym (taken s c)) = { isMatch := false, isMismatch := false })
    (heoc : (decodeStepWith s.params c sym (taken s c)).2.eoc = late s.params s.regs.time (s.regs.pos + c.c)) :
    settle s.params c (decodeStepWith s.params c sym (taken s c)).2 (decodeStepWith s.params c sym (taken s c)).1 =
      withTakenRing s c
        (if late s.params s.regs.time (s.regs.pos + c.c) = true then
          rearmed c .timeout (decoded s.params c sym (taken s c)).last s.regs
        else decoded s.params c sym (taken s c)) := by
  rw [settle_of_undecided s.params c htie hverify, heoc]
  split
  · exact rearm_decoded h .timeout
  · rfl

/-- Inside a period no bit is decided, and only the timeout asserts `end_of_cycle` (R119, R120). -/
theorem decodeStepWith_taken_inside (h : CycleReady s c .decodingRelease) (hk : s.regs.k + 1 ≠ c.p) :
    decodeStepWith s.params c sym (taken s c) =
      ({ taken s c with
         acc := sumAfter c s.regs sym, k := s.regs.k + 1,
         last := { Last.clear with evEoc := late s.params s.regs.time (s.regs.pos + c.c) } },
       { eoc := late s.params s.regs.time (s.regs.pos + c.c), bits := [], tie := false,
         timeout := late s.params s.regs.time (s.regs.pos + c.c) }) := by
  have hnbits : decide ((taken s c).nbits = c.l) = false := decide_eq_false (incomplete_of_ready h).ne
  rcases decodeStepWith_cases s.params c sym (taken s c) with ⟨-, e⟩ | ⟨hend, -⟩ | ⟨hend, -⟩
  · rw [e, hnbits, isTimeout_taken h]
    rfl
  · exact absurd hend hk
  · exact absurd hend hk

/-- At the end of a period a sum of 0 is a tie (R118). -/
theorem decodeStepWith_taken_tie (h : CycleReady s c .decodingRelease) (hk : s.regs.k + 1 = c.p)
    (hsum : sumAfter c s.regs sym = 0) :
    decodeStepWith s.params c sym (taken s c) =
      ({ taken s c with acc := 0, k := 0, last := { Last.clear with evEoc := true } },
       { eoc := true, bits := [], tie := true,
         timeout := late s.params s.regs.time (s.regs.pos + c.c) }) := by
  rcases decodeStepWith_cases s.params c sym (taken s c) with ⟨hinside, -⟩ | ⟨-, -, e⟩ | ⟨-, b, hb, -⟩
  · exact absurd hk hinside
  · rw [e, isTimeout_taken h]
    rfl
  · have hnone : decideBit (integrate c sym (taken s c)) = [] := congrArg decideBit hsum
    cases hnone.symm.trans hb

/-- At the end of a period any other sum decides its bit, which is counted and shown (R117). -/
theorem decodeStepWith_taken_bit (h : CycleReady s c .decodingRelease) (hk : s.regs.k + 1 = c.p) {b : Bit}
    (hb : decideBit (sumAfter c s.regs sym) = [b]) :
    decodeStepWith s.params c sym (taken s c) =
      ({ taken s c with
         acc := 0, k := 0, nbits := s.regs.nbits + 1,
         last := { Last.clear with
           evBitValid := true, evBit := b,
           evEoc := decide (s.regs.nbits + 1 = c.l) || late s.params s.regs.time (s.regs.pos + c.c) } },
       { eoc := decide (s.regs.nbits + 1 = c.l) || late s.params s.regs.time (s.regs.pos + c.c), bits := [b],
         tie := false, timeout := late s.params s.regs.time (s.regs.pos + c.c) }) := by
  rcases decodeStepWith_cases s.params c sym (taken s c) with ⟨hinside, -⟩ | ⟨-, hsum, -⟩ | ⟨-, b', hb', e⟩
  · exact absurd hk hinside
  · have hnone : decideBit (sumAfter c s.regs sym) = [] := congrArg decideBit hsum
    cases hnone.symm.trans hb
  · cases hb'.symm.trans hb
    rw [e, isTimeout_taken h]
    rfl

/-- The effect of a decode cycle at whose end a bit is decided that ends no attempt by its value (R126, R130). -/
theorem exec_step_of_open_bit (h : CycleReady s c .decodingRelease)
    (hsym : IsSymbol (windowAfter c s.regs [s.chunkPort]) c sym) (hk : s.regs.k + 1 = c.p) {b : Bit}
    (hb : decideBit (sumAfter c s.regs sym) = [b]) (hopen : s.regs.nbits + 1 ≠ c.l)
    (hprefix : s.regs.msg ++ [b] <+: c.expected ∨ s.params.prefixRearm = false) :
    ∃ t : State, exec .step s = .next t ∧
      CycleLeaves s c
        (if late s.params s.regs.time (s.regs.pos + c.c) = true then
          rearmed c .timeout { Last.clear with evBitValid := true, evBit := b, evEoc := true } s.regs
        else
          { s.regs with
            pos := s.regs.pos + c.c, acc := 0, k := 0, nbits := s.regs.nbits + 1, msg := s.regs.msg ++ [b],
            last := { Last.clear with evBitValid := true, evBit := b } }) t := by
  have e := decodeStepWith_taken_bit h hk hb
  rw [decide_eq_false hopen, Bool.false_or] at e
  have hlen : (s.regs.msg ++ [b]).length ≠ c.l := by
    rwa [List.length_append, (configured_of_ready h).decoder.message]
  refine exec_step_of_settled h hsym ((settle_taken_of_undecided h (by rw [e]) ?_ (by rw [e])).trans ?_)
  · rw [decoded, e]
    exact verify_of_open_bit hlen (length_expected (configured_of_ready h).cfg) hprefix
  · rw [decoded, e]
    cases late s.params s.regs.time (s.regs.pos + c.c) <;> rfl

/-- The bit that completes the expected sequence releases, in time or not (R132, R143). -/
theorem exec_step_of_matching_bit (h : CycleReady s c .decodingRelease)
    (hsym : IsSymbol (windowAfter c s.regs [s.chunkPort]) c sym) (hk : s.regs.k + 1 = c.p) {b : Bit}
    (hb : decideBit (sumAfter c s.regs sym) = [b]) (hmatch : s.regs.msg ++ [b] = c.expected) :
    ∃ t : State, exec .step s = .next t ∧ t.regs.mode = .released ∧ t.regs.msg = c.expected := by
  have e := decodeStepWith_taken_bit h hk hb
  refine ⟨_, exec_step_of_ready h (.inr rfl), ?_⟩
  rw [respond_regs, cycle_decoding h hsym, e]
  have hverify : (verify s.params c [b] (append [b] (decodeStepWith s.params c sym (taken s c)).1)).isMatch = true :=
    (verify_isMatch_iff ..).mpr ⟨List.cons_ne_nil _ _, hmatch⟩
  rw [e] at hverify
  rw [settle, if_pos hverify]
  exact ⟨rfl, hmatch⟩

end

/-- Settles O41. Inside a period there is nothing to verify and no tie. -/
theorem decodeInsidePeriod : Obligations.DecodeInsidePeriod := by
  intro s c sym h hsym hk
  have e := decodeStepWith_taken_inside (sym := sym) h hk
  refine exec_step_of_settled h hsym
    ((settle_taken_of_undecided h (by rw [e]) (by rw [e, verify_nil]) (by rw [e])).trans ?_)
  have hmsg : (taken s c).msg ++ [] = s.regs.msg := List.append_nil _
  rw [decoded, e, append, hmsg]
  cases late s.params s.regs.time (s.regs.pos + c.c) <;> rfl

/-- Settles O42. A tie comes before the timeout among the causes (R130), so the timeout makes no difference. -/
theorem tieRearms : Obligations.TieRearms := by
  intro s c sym h hsym hk hsum
  have e := decodeStepWith_taken_tie h hk hsum
  refine exec_step_of_settled h hsym
    ((settle_of_tie _ _ _ (by rw [e]) (by rw [e])).trans ((rearm_decoded h .tie).trans ?_))
  rw [decoded, e]
  rfl

/-- Settles O45, by the sign of the sum, which decides the bit. -/
theorem bitIsAppended : Obligations.BitIsAppended := by
  intro s c sym b h hsym hk hsum hb hopen hprefix
  exact exec_step_of_open_bit h hsym hk (hb ▸ decideBit_of_ne_zero hsum) hopen hprefix

/-! ### The decoder on an encoded sequence (R124) -/

/-- The symbol that a transmission of `b` carries in the period's cycle `k` (R124). -/
def encodedSymbol (c : Cfg) (b : Bit) (k : Nat) : Int := if k < c.w then bitSymbol b else 0

/-- The accumulator holds what the period's cycles so far have carried of `b`. -/
def Carries (c : Cfg) (b : Bit) (S : Regs) : Prop := S.acc = (min S.k c.w : Nat) * bitSymbol b

section

variable {c : Cfg} {b : Bit} {S : Regs}

theorem carries_of_fresh (hacc : S.acc = 0) (hk : S.k = 0) : Carries c b S := by
  rw [Carries, hacc, hk, Nat.zero_min, Nat.cast_zero, zero_mul]

/-- One more cycle of the transmission adds its symbol in the first `W` cycles, and nothing after them (R115). -/
theorem sumAfter_encoded (h : Carries c b S) :
    sumAfter c S (encodedSymbol c b S.k) = (min (S.k + 1) c.w : Nat) * bitSymbol b := by
  rw [sumAfter, encodedSymbol, h]
  split
  · next hk =>
    rw [min_eq_left hk.le, min_eq_left hk]
    push_cast
    ring
  · next hk => rw [min_eq_right (by omega), min_eq_right (by omega)]

/-- A whole period's sum is `W` times the bit's symbol, which decides the bit (R117). -/
theorem decideBit_sumAfter_encoded (hw : 1 ≤ c.w) (hwp : c.w ≤ c.p) (h : Carries c b S) (hk : S.k + 1 = c.p) :
    decideBit (sumAfter c S (encodedSymbol c b S.k)) = [b] := by
  rw [sumAfter_encoded h, hk, min_eq_right hwp, decideBit]
  cases b with
  | zero => rw [bitSymbol, if_neg (by omega), if_pos (by omega)]
  | one => rw [bitSymbol, if_pos (by omega)]

/-- The transmission of one bit, as R124 gives it, cycle by cycle. -/
theorem encodedPeriod_eq (hwp : c.w ≤ c.p) (b : Bit) :
    List.replicate c.w (bitSymbol b) ++ List.replicate (c.p - c.w) 0 =
      (List.range' 0 c.p).map (encodedSymbol c b) := by
  refine List.ext_getElem (by simp [hwp]) fun k hk _ => ?_
  rw [List.getElem_append, List.getElem_map, List.getElem_range', encodedSymbol, Nat.zero_add, Nat.one_mul]
  simp only [List.length_replicate, List.getElem_replicate, dite_eq_ite]

theorem decodeStepWith_encoded_inside (p : Params) (h : Carries c b S) (hk : S.k + 1 ≠ c.p) :
    (decodeStepWith p c (encodedSymbol c b S.k) S).2.bits = [] ∧
      (decodeStepWith p c (encodedSymbol c b S.k) S).1.k = S.k + 1 ∧
      Carries c b (decodeStepWith p c (encodedSymbol c b S.k) S).1 := by
  rcases decodeStepWith_cases p c (encodedSymbol c b S.k) S with ⟨-, e⟩ | ⟨hend, -⟩ | ⟨hend, -⟩
  · rw [e]
    exact ⟨rfl, rfl, sumAfter_encoded h⟩
  · exact absurd hend hk
  · exact absurd hend hk

theorem decodeStepWith_encoded_end (p : Params) (hw : 1 ≤ c.w) (hwp : c.w ≤ c.p) (h : Carries c b S)
    (hk : S.k + 1 = c.p) :
    (decodeStepWith p c (encodedSymbol c b S.k) S).2.bits = [b] ∧
      (decodeStepWith p c (encodedSymbol c b S.k) S).1.k = 0 ∧
      (decodeStepWith p c (encodedSymbol c b S.k) S).1.acc = 0 := by
  have hb := decideBit_sumAfter_encoded hw hwp h hk
  rcases decodeStepWith_cases p c (encodedSymbol c b S.k) S with ⟨hinside, -⟩ | ⟨-, hsum, -⟩ | ⟨-, b', hb', e⟩
  · exact absurd hk hinside
  · have hnone : decideBit (sumAfter c S (encodedSymbol c b S.k)) = [] := congrArg decideBit hsum
    cases hnone.symm.trans hb
  · cases hb'.symm.trans hb
    rw [e]
    exact ⟨rfl, rfl, rfl⟩

/-- The rest of a period of `b` emits `b` in its last cycle and nothing before, and leaves a fresh decoder (R116). -/
theorem decoderOutputs_encodedPeriod (p : Params) (hw : 1 ≤ c.w) (hwp : c.w ≤ c.p) (m : Nat) (rest : List Int)
    (h : Carries c b S) (hm : S.k + (m + 1) = c.p) :
    ∃ S' : Regs, S'.acc = 0 ∧ S'.k = 0 ∧
      decoderOutputs p c ((List.range' S.k (m + 1)).map (encodedSymbol c b) ++ rest) S =
        List.replicate m [] ++ [b] :: decoderOutputs p c rest S' := by
  rw [List.range'_succ, List.map_cons, List.cons_append, decoderOutputs]
  induction m generalizing S with
  | zero =>
    obtain ⟨hbits, hk, hacc⟩ := decodeStepWith_encoded_end p hw hwp h hm
    exact ⟨_, hacc, hk, by rw [hbits]; rfl⟩
  | succ m ih =>
    obtain ⟨hbits, hk, hcarries⟩ := decodeStepWith_encoded_inside p h (by omega)
    obtain ⟨S', hacc', hk', e⟩ := ih hcarries (by omega)
    refine ⟨S', hacc', hk', ?_⟩
    rw [hbits, List.range'_succ, List.map_cons, List.cons_append, decoderOutputs, List.replicate_succ, List.cons_append,
      ← e, hk]

end

/-- Settles O46, bit by bit: each period leaves the decoder as fresh as it found it. -/
theorem decoderRoundTrip : Obligations.DecoderRoundTrip := by
  intro p c S bits hw hwp hacc hk
  simp only [encodedPeriod_eq hwp]
  induction bits generalizing S with
  | nil => rfl
  | cons b bits ih =>
    obtain ⟨m, hm⟩ : ∃ m, m + 1 = c.p := ⟨c.p - 1, by omega⟩
    obtain ⟨S', hacc', hk', e⟩ :=
      decoderOutputs_encodedPeriod p hw hwp m (bits.flatMap fun b => (List.range' 0 c.p).map (encodedSymbol c b))
        (carries_of_fresh (b := b) hacc hk) (by omega)
    rw [hk, hm] at e
    rw [List.flatMap_cons, e, ih S' hacc' hk', List.flatMap_cons, ← hm, Nat.add_sub_cancel, List.append_assoc]
    rfl

/-! ### A clean transmission (R120, R124, R143) -/

/-- The symbol of an attempt's decode cycle `i`, when the expected sequence is transmitted (R124). -/
def sentSymbol (c : Cfg) (i : Nat) : Int := encodedSymbol c (c.expected.getD (i / c.p) .zero) (i % c.p)

theorem sentSymbol_cyclesDone {c : Cfg} {S : Regs} (hk : S.k < c.p) :
    sentSymbol c (cyclesDone c S) = encodedSymbol c (c.expected.getD S.nbits .zero) S.k := by
  obtain ⟨hdiv, hmod⟩ : cyclesDone c S / c.p = S.nbits ∧ cyclesDone c S % c.p = S.k :=
    (Nat.div_mod_unique (by omega)).mpr ⟨by rw [cyclesDone, Nat.mul_comm, Nat.add_comm], hk⟩
  rw [sentSymbol, hdiv, hmod]

/-- A record that decodes a transmission of the expected sequence: the bits so far are right, and so is the sum. -/
structure Receiving (c : Cfg) (S : Regs) : Prop where
  mode : S.mode = .decodingRelease
  cfg : S.cfg = some c
  carries : Carries c (c.expected.getD S.nbits .zero) S
  message : S.msg = c.expected.take S.nbits

/-- A clean transmission under way: the chunks still to come carry the rest of the expected sequence, and all but the
last of them arrive in time. -/
structure Transmission (s : State) (c : Cfg) (chunks : List (List Sample)) : Prop where
  legal : Inv s
  receiving : Receiving c s.regs
  host : s.host = chunks.map (stepCommand s.cfgPort)
  remaining : cyclesDone c s.regs + chunks.length = c.l * c.p
  sizes : ∀ ch ∈ chunks, ch.length = c.c
  symbols : ∀ j < chunks.length,
    IsSymbol (windowAfter c s.regs (chunks.take (j + 1))) c (sentSymbol c (cyclesDone c s.regs + j))
  inTime : ∀ t₀, some t₀ ∈ s.regs.time → s.regs.pos + (chunks.length - 1) * c.c ≤ t₀ + s.params.tTimeout

/-- A legal configuration integrates at least one cycle of each period (R17). -/
theorem cfgLegal_window {p : Params} {c : Cfg} (h : CfgLegal p c) : 1 ≤ c.w ∧ c.w ≤ c.p := by
  obtain ⟨r, -, hvalid, rfl⟩ := h
  obtain ⟨hw, hwp, -⟩ := derivedRegistersInRange p r hvalid
  exact ⟨hw, hwp⟩

/-- The window after a STEP's cycle and some more chunks is the window after all of them (R82). -/
theorem windowAfter_exec_step {s t : State} {c : Cfg} {m : Mode} (h : CycleReady s c m)
    (hm : m = .searchingWakeup ∨ m = .decodingRelease) (hexec : exec .step s = .next t) (rest : List (List Sample)) :
    windowAfter c t.regs rest = windowAfter c s.regs (s.chunkPort :: rest) := by
  cases (exec_step_of_ready h hm).symm.trans hexec
  obtain ⟨-, hwindow⟩ := cycle_takesChunk s.params (configured_of_ready h).ring.canonical (chunk_fits_of_ready h)
  have hfits : s.chunkPort.length ≤ (window c.n s.regs).length := by
    rw [length_window]
    exact chunk_fits_of_ready h
  rw [windowAfter, windowAfter, respond_regs, hwindow, List.append_assoc, ← List.drop_append_of_le_length hfits,
    List.drop_drop, List.flatten_cons, List.length_append]

theorem late_eq_false {p : Params} {time : List (Option Nat)} {pos : Nat}
    (h : ∀ t, some t ∈ time → pos ≤ t + p.tTimeout) : late p time pos = false := by
  rw [Bool.eq_false_iff, Ne, late_iff]
  rintro ⟨t, ht, hlt⟩
  have hle := h t ht
  omega

theorem run_succ {s t : State} (n : Nat) (h : step s = .next t) : core.run (n + 1) s = core.run n t := by
  have hstep : core.step s = .next t := h
  simp only [Host.Core.run, hstep]

section

variable {s : State} {c : Cfg} {ch : List Sample} {rest : List (List Sample)}

/-- `s` with the transmission's next command on the ports. -/
def delivered (s : State) (ch : List Sample) (rest : List (List Sample)) : State :=
  s.deliver (stepCommand s.cfgPort ch) (rest.map (stepCommand s.cfgPort))

theorem Transmission.configured {chunks : List (List Sample)} (h : Transmission s c chunks) :
    ConfiguredLegal s.params c s.regs := h.legal.present c h.receiving.cfg

theorem Transmission.step_eq (h : Transmission s c (ch :: rest)) : step s = exec .step (delivered s ch rest) :=
  step_of_decode s _ _ .step h.host (decode_encode .step)

theorem Transmission.ready (h : Transmission s c (ch :: rest)) : CycleReady (delivered s ch rest) c .decodingRelease :=
  ⟨h.legal, h.receiving.mode, h.receiving.cfg, h.sizes ch List.mem_cons_self⟩

theorem Transmission.incomplete {chunks : List (List Sample)} (h : Transmission s c chunks) : s.regs.nbits < c.l :=
  (h.configured.decoding h.receiving.mode).2

/-- The next cycle's symbol is the transmitted one. -/
theorem Transmission.symbol (h : Transmission s c (ch :: rest)) :
    IsSymbol (windowAfter c s.regs [ch]) c (encodedSymbol c (c.expected.getD s.regs.nbits .zero) s.regs.k) := by
  have hfirst := h.symbols 0 (Nat.succ_pos _)
  rwa [Nat.add_zero (cyclesDone c s.regs), sentSymbol_cyclesDone h.configured.decoder.phase] at hfirst

/-- At the end of a period the transmitted bit is decided (R117, R124). -/
theorem Transmission.bit (h : Transmission s c (ch :: rest)) (hk : s.regs.k + 1 = c.p) :
    decideBit (sumAfter c s.regs (encodedSymbol c (c.expected.getD s.regs.nbits .zero) s.regs.k)) =
      [c.expected.getD s.regs.nbits .zero] := by
  obtain ⟨hw, hwp⟩ := cfgLegal_window h.configured.cfg
  exact decideBit_sumAfter_encoded hw hwp h.receiving.carries hk

/-- With the transmitted bit the message is one bit more of the expected sequence. -/
theorem Transmission.message_append (h : Transmission s c (ch :: rest)) :
    s.regs.msg ++ [c.expected.getD s.regs.nbits .zero] = c.expected.take (s.regs.nbits + 1) := by
  have hbit : s.regs.nbits < c.expected.length := by
    rw [length_expected h.configured.cfg]
    exact h.incomplete
  rw [h.receiving.message, List.getD_eq_getElem _ _ hbit, List.take_append_getElem]

/-- A cycle before the last is in time. -/
theorem Transmission.not_late (h : Transmission s c (ch :: rest)) (hrest : rest ≠ []) :
    late s.params s.regs.time (s.regs.pos + c.c) = false := by
  refine late_eq_false fun t ht => ?_
  have hlast := h.inTime t ht
  have hone : c.c ≤ rest.length * c.c := Nat.le_mul_of_pos_left _ (List.length_pos_iff.mpr hrest)
  rw [List.length_cons, Nat.add_sub_cancel] at hlast
  omega

/-- A cycle that goes on with the attempt and receives what was sent leaves the rest of the transmission. -/
theorem Transmission.tail (h : Transmission s c (ch :: rest)) (hrest : rest ≠ []) {t : State}
    (hexec : exec .step (delivered s ch rest) = .next t) (hreceiving : Receiving c t.regs)
    (hcycles : cyclesDone c t.regs = cyclesDone c s.regs + 1) (htime : t.regs.time = s.regs.time)
    (hpos : t.regs.pos = s.regs.pos + c.c) : Transmission t c rest := by
  have hframe := exec_frame .step _ t hexec
  have hparams : t.params = s.params := by rw [hframe]; rfl
  have hcfgPort : t.cfgPort = s.cfgPort := by rw [hframe]; rfl
  exact {
    legal := inv_of_ready h.ready (.inr rfl) hexec
    receiving := hreceiving
    host := by rw [hcfgPort, hframe]; rfl
    remaining := by
      have hremaining := h.remaining
      rw [List.length_cons] at hremaining
      omega
    sizes := fun ch' hch' => h.sizes ch' (List.mem_cons_of_mem _ hch')
    symbols := fun j hj => by
      rw [windowAfter_exec_step h.ready (.inr rfl) hexec, hcycles, Nat.add_assoc, Nat.add_comm 1 j]
      exact h.symbols (j + 1) (Nat.succ_lt_succ hj)
    inTime := fun t₀ ht₀ => by
      have hlast := h.inTime t₀ (htime ▸ ht₀)
      obtain ⟨n, hn⟩ := Nat.exists_eq_succ_of_ne_zero (mt List.length_eq_zero_iff.mp hrest)
      rw [List.length_cons, hn, Nat.add_sub_cancel, Nat.succ_mul] at hlast
      rw [hpos, hparams, hn, Nat.succ_sub_one]
      omega }

/-- Every cycle of the transmission but the last leads on. -/
theorem Transmission.next (h : Transmission s c (ch :: rest)) (hrest : rest ≠ []) :
    ∃ t, step s = .next t ∧ Transmission t c rest := by
  have hlate : late (delivered s ch rest).params (delivered s ch rest).regs.time
    ((delivered s ch rest).regs.pos + c.c) = false := h.not_late hrest
  rw [h.step_eq]
  by_cases hk : s.regs.k + 1 = c.p
  · have hopen : s.regs.nbits + 1 ≠ c.l := fun hnbits => by
      have hdone := (isLastCycle_iff h.configured.decoder.phase h.incomplete).mpr ⟨hnbits, hk⟩
      have hremaining := h.remaining
      rw [List.length_cons] at hremaining
      exact hrest (List.length_eq_zero_iff.mp (by omega))
    obtain ⟨t, hexec, hleaves⟩ := exec_step_of_open_bit h.ready h.symbol hk (h.bit hk) hopen
      (.inl (h.message_append ▸ List.take_prefix _ _))
    have hrest' := hleaves.rest
    rw [hlate, if_neg Bool.false_ne_true] at hrest'
    refine ⟨t, hexec, h.tail hrest hexec ?_ ?_ ?_ ?_⟩ <;> rw [hrest']
    · exact ⟨h.receiving.mode, h.receiving.cfg, carries_of_fresh rfl rfl, h.message_append⟩
    · exact cyclesDone_of_period_end rfl rfl hk
    · rfl
    · rfl
  · obtain ⟨t, hexec, hleaves⟩ := decodeInsidePeriod _ c _ h.ready h.symbol hk
    have hrest' := hleaves.rest
    rw [hlate, if_neg Bool.false_ne_true] at hrest'
    refine ⟨t, hexec, h.tail hrest hexec ?_ ?_ ?_ ?_⟩ <;> rw [hrest']
    · exact ⟨h.receiving.mode, h.receiving.cfg, sumAfter_encoded h.receiving.carries, h.receiving.message⟩
    · rfl
    · rfl
    · rfl

/-- The last cycle completes the expected sequence (R143). -/
theorem Transmission.last (h : Transmission s c [ch]) :
    ∃ t, step s = .next t ∧ t.regs.mode = .released ∧ t.regs.msg = c.expected := by
  obtain ⟨hnbits, hk⟩ := (isLastCycle_iff h.configured.decoder.phase h.incomplete).mp h.remaining
  rw [h.step_eq]
  refine exec_step_of_matching_bit h.ready h.symbol hk (h.bit hk) (h.message_append.trans ?_)
  rw [hnbits, ← length_expected h.configured.cfg, List.take_length]

end

/-- A clean transmission ends in the release, after as many steps as there are chunks to come. -/
theorem Transmission.run_releases {s : State} {c : Cfg} {ch : List Sample} {rest : List (List Sample)}
    (h : Transmission s c (ch :: rest)) :
    ∃ t, core.run (rest.length + 1) s = .next t ∧ t.regs.mode = .released ∧ t.regs.msg = c.expected := by
  induction rest generalizing s ch with
  | nil =>
    obtain ⟨t, hstep, hreleased⟩ := h.last
    exact ⟨t, run_succ 0 hstep, hreleased⟩
  | cons ch' rest ih =>
    obtain ⟨t, hstep, hnext⟩ := h.next (List.cons_ne_nil _ _)
    obtain ⟨u, hrun, hreleased⟩ := ih hnext
    exact ⟨u, (run_succ _ hstep).trans hrun, hreleased⟩

/-- Settles O47: the first decode cycle finds a transmission whose `L·P` chunks are all to come. -/
theorem cleanTransmissionReleases : Obligations.CleanTransmissionReleases := by
  intro s c chunks hlegal hmode hcfg hk hnbits hhost hlength hsizes hsymbols hintime
  have hconfigured := hlegal.present c hcfg
  obtain ⟨-, hl, hp⟩ := cfgLegal_bounds hconfigured.cfg
  have hcycles : cyclesDone c s.regs = 0 := by rw [cyclesDone, hnbits, hk, Nat.zero_mul]
  have hfresh : s.regs.acc = 0 := by
    have hsum := hconfigured.decoder.sum
    rw [hk, Nat.zero_min] at hsum
    exact Int.natAbs_eq_zero.mp (Nat.le_zero.mp hsum)
  have hmsg : s.regs.msg = [] := List.length_eq_zero_iff.mp (hconfigured.decoder.message.trans hnbits)
  have htransmission : Transmission s c chunks := {
    legal := hlegal
    receiving := ⟨hmode, hcfg, carries_of_fresh hfresh hk, by rw [hmsg, hnbits, List.take_zero]⟩
    host := hhost
    remaining := by rw [hcycles, hlength, Nat.zero_add]
    sizes := hsizes
    symbols := fun j hj => by
      rw [hcycles, Nat.zero_add]
      exact hsymbols j (hlength ▸ hj)
    inTime := by rwa [hlength] }
  cases chunks with
  | nil => exact absurd hlength (Nat.mul_pos hl hp).ne
  | cons ch rest =>
    rw [← hlength]
    exact htransmission.run_releases

end Sys2Proof.Proofs
end

section
/-!
PROOFS of the family 44_message_verifier.md: the verdicts, the two values of `PREFIX_REARM`, the two ways in which a
decided bit ends an attempt, and the entry into `RELEASED`.
-/
namespace Sys2Proof.Proofs

open Sys2Proof.Machine Sys2Proof.Safety Sys2Proof.Laws

/-! ### The verdicts (R127 to R129) -/

/-- That one message begins another, in R127's wording. -/
theorem prefix_iff_length_le_and_getElem? (as bs : List Bit) :
    as <+: bs ↔ as.length ≤ bs.length ∧ ∀ j < as.length, as[j]? = bs[j]? := by
  constructor
  · exact fun h => ⟨h.length_le, fun j hj => by
      rw [List.prefix_iff_getElem?.mp h j hj, List.getElem?_eq_getElem hj]⟩
  · rintro ⟨-, h⟩
    exact List.prefix_iff_getElem?.mpr fun j hj => by rw [← h j hj, List.getElem?_eq_getElem hj]

/-- The mismatch verdict on an appended bit, for each value of `PREFIX_REARM` (R127). -/
theorem verify_isMismatch_iff_ite (p : Params) (c : Cfg) {bits : List Bit} (S : Regs) (hbits : bits ≠ []) :
    (verify p c bits S).isMismatch = true ↔
      if p.prefixRearm = true then ¬S.msg <+: c.expected else S.msg.length = c.l ∧ S.msg ≠ c.expected := by
  rw [verify, if_neg (by simpa using hbits), mismatches]
  split
  · rw [Bool.not_eq_true', Bool.eq_false_iff, Ne, isPrefix_iff]
  · rw [Bool.and_eq_true, decide_eq_true_eq, Bool.not_eq_true', decide_eq_false_iff_not]

/-- The expected sequence does not begin with `msg`, and the message is long enough for VERIFY to report it: at
any length with `PREFIX_REARM`, at full length without (R129). -/
def Mismatched (p : Params) (c : Cfg) (msg : List Bit) : Prop :=
  ¬msg <+: c.expected ∧ (p.prefixRearm = true ∨ msg.length = c.l)

theorem verify_isMismatch_iff {p : Params} {c : Cfg} {bits : List Bit} {S : Regs} (hbits : bits ≠ [])
    (hl : c.l = c.expected.length) : (verify p c bits S).isMismatch = true ↔ Mismatched p c S.msg := by
  rw [verify_isMismatch_iff_ite p c S hbits, Mismatched]
  split
  · next hearly => rw [and_iff_left (.inl hearly)]
  · next hlate =>
    rw [or_iff_right hlate, and_comm]
    refine and_congr_left fun hlen => not_congr ⟨fun h => h ▸ List.prefix_rfl, fun h => ?_⟩
    exact h.eq_of_length (hlen.trans hl)

/-- Settles O48, verdict by verdict. -/
theorem verifyVerdicts : Obligations.VerifyVerdicts := by
  intro p c bits S hl
  have hmatch := verify_isMatch_iff p c bits S
  refine ⟨fun hbits => hbits ▸ verify_nil p c S, fun hbits => ⟨?_, ?_⟩, ?_, fun h => ?_⟩
  · rw [hmatch, and_iff_right hbits]
  · rw [verify_isMismatch_iff_ite p c S hbits, prefix_iff_length_le_and_getElem?, hl]
  · rintro ⟨h, hmismatch⟩
    exact Bool.false_ne_true ((verify_isMismatch_of_isMatch p c bits S h).symm.trans hmismatch)
  · rw [(hmatch.mp h).2, hl]

/-! ### Both values of `PREFIX_REARM` (R129) -/

/-- What the next bit does to an attempt: it completes the message, or the attempt goes on unless the bit is reported
as a mismatch. -/
theorem attemptReleases_cons_iff (p : Params) {c : Cfg} (S : Regs) (msg : List Bit) (b : Bit) (bs : List Bit)
    (hl : c.l = c.expected.length) :
    attemptReleases p c S msg (b :: bs) = true ↔
      msg ++ [b] = c.expected ∨ ¬Mismatched p c (msg ++ [b]) ∧ attemptReleases p c S (msg ++ [b]) bs = true := by
  rw [attemptReleases, Bool.or_eq_true, Bool.and_eq_true, Bool.not_eq_true', Bool.eq_false_iff, Ne, verify_isMatch_iff,
    verify_isMismatch_iff (List.cons_ne_nil b []) hl, and_iff_right (List.cons_ne_nil b [])]

/-- Once the message differs, no later bit can restore a full match (R129). -/
theorem not_prefix_append_of_not_prefix {msg expected : List Bit} (hlen : msg.length ≤ expected.length)
    (h : ¬msg <+: expected) (bits : List Bit) : ¬expected <+: msg ++ bits :=
  fun hp => h (List.prefix_of_prefix_length_le (List.prefix_append msg bits) hp hlen)

/-- An attempt that is not complete ends in a match exactly when its message, with the stream to come, begins with the
expected sequence, whatever `PREFIX_REARM` is. -/
theorem attemptReleases_iff (p : Params) {c : Cfg} (S : Regs) {msg : List Bit} (stream : List Bit)
    (hl : c.l = c.expected.length) (hmsg : msg.length < c.l) :
    attemptReleases p c S msg stream = true ↔ c.expected <+: msg ++ stream := by
  induction stream generalizing msg with
  | nil =>
    rw [List.append_nil]
    exact iff_of_false nofun fun h => absurd h.length_le (by omega)
  | cons b bs ih =>
    have hlen : (msg ++ [b]).length ≤ c.l := by rwa [List.length_append]
    rw [attemptReleases_cons_iff p S msg b bs hl, List.append_cons msg b bs]
    by_cases hcomplete : msg ++ [b] = c.expected
    · exact iff_of_true (.inl hcomplete) (hcomplete ▸ List.prefix_append _ _)
    rw [or_iff_right hcomplete]
    by_cases hmismatch : Mismatched p c (msg ++ [b])
    · exact iff_of_false (fun ⟨hgoesOn, _⟩ => hgoesOn hmismatch)
        (not_prefix_append_of_not_prefix (hl ▸ hlen) hmismatch.1 bs)
    · have hincomplete : (msg ++ [b]).length ≠ c.l := fun hfull =>
        hmismatch ⟨fun hprefix => hcomplete (hprefix.eq_of_length (hfull.trans hl)), .inr hfull⟩
      rw [and_iff_right hmismatch]
      exact ih (lt_of_le_of_ne hlen hincomplete)

/-- Settles O49. Which streams release is said without `PREFIX_REARM`, so both its values release on the same. -/
theorem earlyRearmAcceptsTheSame : Obligations.EarlyRearmAcceptsTheSame := by
  intro p c S stream hl hpos
  have hreleases (q : Params) : attemptReleases q c S [] stream = true ↔ c.expected <+: stream :=
    attemptReleases_iff q S stream hl hpos
  exact ⟨Bool.eq_iff_iff.mpr ((hreleases _).trans (hreleases _).symm), hreleases p⟩

/-! ### A decided bit that ends its attempt (R129 to R132) -/

/-- A match releases, whatever the timeout is (R132, R143). -/
theorem settle_of_match {p : Params} {c : Cfg} {r : DecodeResult} {S : Regs}
    (h : (verify p c r.bits (append r.bits S)).isMatch = true) : settle p c r S = release (append r.bits S) :=
  if_pos h

/-- A mismatch rearms, and comes before the timeout among the causes (R130). -/
theorem settle_of_mismatch {p : Params} {c : Cfg} {r : DecodeResult} {S : Regs} (htie : r.tie = false)
    (h : (verify p c r.bits (append r.bits S)).isMismatch = true) :
    settle p c r S = rearm .mismatch (append r.bits S) := by
  have hmatch : (verify p c r.bits (append r.bits S)).isMatch = false :=
    Bool.eq_false_iff.mpr fun hm => Bool.eq_false_iff.mp (verify_isMismatch_of_isMatch _ _ _ _ hm) h
  rw [settle, hmatch, rearmCause, h, htie]
  rfl

/-- The record of R132, but for the decoder and the message, which the release keeps. -/
def released (c : Cfg) (S : Regs) : Regs :=
  { S with
    flag := List.replicate c.nw false, time := List.replicate c.nw none, pos := 0, mode := .released,
    last := { S.last with evReleased := true } }

/-- The release action, with the vectors written out (R132). -/
theorem release_eq {c : Cfg} {S : Regs} (h : WakeUpLegal c S) : release S = released c S := by
  rw [release, clearWakeUp_eq h]
  rfl

section

variable {s : State} {c : Cfg} {sym : Int} {b : Bit}

/-- After a decoding, which does not touch the wake-up state, the release writes the vectors and the position out. -/
theorem release_decoded (h : CycleReady s c .decodingRelease) :
    release (decoded s.params c sym (taken s c)) =
      withTakenRing s c (released c (decoded s.params c sym (taken s c))) :=
  release_eq (wakeUpLegal_congr (configured_of_ready h).wakeUp rfl rfl (Nat.le_add_right _ _))

/-- Each decided bit is both counted and appended (R36). -/
theorem length_msg_append (h : CycleReady s c .decodingRelease) :
    (s.regs.msg ++ [b]).length = s.regs.nbits + 1 := by
  rw [List.length_append, (configured_of_ready h).decoder.message]
  rfl

end

/-- Settles O43. The completed sequence has full length, so `end_of_cycle` is asserted whether or not the timeout
expires. -/
theorem matchReleases : Obligations.MatchReleases := by
  intro s c sym b h hsym hk hsum hb hmatch
  have e := decodeStepWith_taken_bit h hk (hb ▸ decideBit_of_ne_zero hsum)
  have hcount : s.regs.nbits + 1 = c.l := by
    rw [← length_msg_append h, hmatch, length_expected (configured_of_ready h).cfg]
  rw [decide_eq_true hcount, Bool.true_or, hcount] at e
  refine exec_step_of_settled h hsym ((settle_of_match ?_).trans ((release_decoded h).trans ?_))
  · rw [e]
    exact (verify_isMatch_iff ..).mpr ⟨List.cons_ne_nil _ _, hmatch⟩
  · rw [decoded, e, ← hmatch]
    rfl

/-- Settles O44. `end_of_cycle` is as the count and the timeout have it, and the cause does not depend on it. -/
theorem mismatchRearms : Obligations.MismatchRearms := by
  intro s c sym b h hsym hk hsum hb hprefix hreported
  have e := decodeStepWith_taken_bit h hk (hb ▸ decideBit_of_ne_zero hsum)
  refine exec_step_of_settled h hsym
    ((settle_of_mismatch (by rw [e]) ?_).trans ((rearm_decoded h .mismatch).trans ?_))
  · rw [← length_msg_append h] at hreported
    rw [e]
    exact (verify_isMismatch_iff (List.cons_ne_nil _ _) (length_expected (configured_of_ready h).cfg).symm).mpr
      ⟨hprefix, hreported⟩
  · rw [decoded, e]
    rfl

/-! ### The entry into `RELEASED` (R134) -/

/-- `S'` is released by the bit `b`, which completed the message `msg` (R128, R134). -/
structure ReleasedBy (c : Cfg) (b : Bit) (msg : List Bit) (S' : Regs) : Prop where
  complete : S'.msg = c.expected
  appended : S'.msg = msg ++ [b]
  count : S'.nbits = c.l
  event : S'.last.evReleased = true
  valid : S'.last.evBitValid = true
  bit : S'.last.evBit = b

section

variable {p : Params} {c : Cfg} {S : Regs}

/-- A decode phase that releases has decided a bit: without one the message is still incomplete (R119, R134). -/
theorem exists_releasedBy_of_decodePhase (h : BaseLegal p c S) (hmode : S.mode = .decodingRelease)
    (hincomplete : S.nbits < c.l) (hreleased : (decodePhase p c S).mode = .released) :
    ∃ b, ReleasedBy c b S.msg (decodePhase p c S) := by
  obtain ⟨sym, hsym, ⟨hmatch, hphase⟩ | ⟨cause, -, hphase⟩ | ⟨-, -, hphase⟩⟩ := decodePhase_cases p c S <;>
    rw [hphase] at hreleased ⊢
  · have hcount : (decoded p c sym S).nbits = c.l := by
      rw [← (decoderLegal_decoded hsym h.decoder hincomplete).message, hmatch, length_expected h.valid]
    rw [decoded] at hmatch hcount ⊢
    rcases decodeStepWith_cases p c sym S with ⟨-, e⟩ | ⟨-, -, e⟩ | ⟨-, b, -, e⟩ <;> rw [e] at hmatch hcount ⊢
    · exact absurd hcount hincomplete.ne
    · exact absurd hcount hincomplete.ne
    · exact ⟨b, hmatch, rfl, hcount, rfl, rfl, rfl⟩
  · cases hreleased
  · cases hmode.symm.trans hreleased

/-- The search phase does not release (R135). -/
theorem searchPhase_mode_ne_released (hmode : S.mode = .searchingWakeup) : (searchPhase p c S).mode ≠ .released := by
  have hstill : S.mode ≠ .released := by rw [hmode]; nofun
  rcases searchPhase_cases p c S with ⟨-, e⟩ | ⟨-, -, e⟩ | ⟨-, -, e⟩ <;> rw [e]
  · exact hstill
  · nofun
  · exact hstill

/-- A cycle that releases runs in `DECODING_RELEASE`, and its bit completes the message (R134). -/
theorem exists_releasedBy_of_cycle (h : RegsLegal p S) (hcfg : S.cfg = some c)
    (hmode : S.mode = .searchingWakeup ∨ S.mode = .decodingRelease) {chunk : List Sample}
    (hreleased : (cycle p c chunk (clearLast S)).mode = .released) :
    S.mode = .decodingRelease ∧ ∃ b, ReleasedBy c b S.msg (cycle p c chunk (clearLast S)) := by
  rcases hmode with hm | hm
  · rw [cycle_of_searching (S := clearLast S) hm] at hreleased
    exact absurd hreleased (searchPhase_mode_ne_released hm)
  · have htaken := baseLegal_takeChunk (baseLegal_clearLast h hcfg (.inr hm)) chunk
    rw [cycle_of_decoding (S := clearLast S) hm] at hreleased ⊢
    obtain ⟨-, hincomplete⟩ := (h.present c hcfg).decoding hm
    obtain ⟨b, hb⟩ := exists_releasedBy_of_decodePhase htaken hm hincomplete hreleased
    exact ⟨hm, b, hb⟩

end

/-- Settles O50, by the effects of a step: only a cycle can enter `RELEASED`. -/
theorem onlyFullMatchReleases : Obligations.OnlyFullMatchReleases := by
  intro s t hlegal hstep hreleased hmode
  obtain ⟨-, heffect⟩ := recordEffect_of_step hstep
  generalize t.regs = S' at heffect hreleased ⊢
  cases heffect with
  | kept => exact absurd hreleased hmode
  | reset _ _ _ _ => cases hreleased
  | ignored _ => exact absurd hreleased hmode
  | faulted _ _ _ => cases hreleased
  | stopped _ => cases hreleased
  | configured _ _ _ _ _ _ _ => cases hreleased
  | cycled c chunk mode cfg _ =>
    obtain ⟨hdecoding, b, hb⟩ := exists_releasedBy_of_cycle hlegal cfg mode hreleased
    exact ⟨hdecoding, c, b, cfg, hb.complete, hb.appended, hb.count, hb.event, hb.valid, hb.bit⟩

end Sys2Proof.Proofs
end

section
/-!
PROOFS of the family 45_controller.md: what each command does in every mode (R137, R138, R140, R144 to R147), the
validity of a configuration record (R139), and the transitions of `mode` (R135).
-/
namespace Sys2Proof.Proofs

open Sys2Proof.Machine Sys2Proof.Safety Sys2Proof.Laws

/-! ### The modes in two classes (R147) -/

theorem mem_terminalModes_iff (m : Mode) : m ∈ [Mode.released, .stopped, .faulted] ↔ m.isTerminal = true := by
  rw [isTerminal_iff]
  simp

theorem mem_openModes_iff (m : Mode) :
    m ∈ [Mode.unconfigured, .searchingWakeup, .decodingRelease] ↔ m.isTerminal = false := by
  cases m <;> simp [Mode.isTerminal]

/-! ### Commands and words in the terminal modes (R147) -/

/-- Every command but RESET and STATUS is ignored there: `last` shows it, and nothing else changes. -/
theorem exec_of_terminal {s : State} (hmode : s.regs.mode.isTerminal = true) {i : Instr} (hreset : i ≠ .reset)
    (hstatus : i ≠ .status) : exec i s = .next (s.respond (ignoreCommand s.regs)) := by
  cases i with
  | reset => exact absurd rfl hreset
  | configure => rw [exec_configure, configureRegs, if_pos hmode]
  | step => exact execStep_of_terminal hmode
  | stop => rw [exec_stop, stopRegs, if_pos hmode]
  | status => exact absurd rfl hstatus

/-- Settles O15. -/
theorem ignoredCommands : Obligations.IgnoredCommands := fun _ _ hmode hreset hstatus =>
  ⟨_, exec_of_terminal ((mem_terminalModes_iff _).mp hmode) hreset hstatus, rfl⟩

/-! ### A word that is no command (R146) -/

theorem step_of_illegal {s : State} {c : HostCommand} {rest : List HostCommand} {e : DecodeError}
    (hhost : s.host = c :: rest) (hdecode : decode c.word = .error e) : step s = execIllegal (s.deliver c rest) := by
  rw [step, hhost]
  simp [runWord, hdecode]

theorem illegalRegs_of_terminal {S : Regs} (hmode : S.mode.isTerminal = true) : illegalRegs S = ignoreCommand S :=
  if_pos hmode

theorem illegalRegs_of_open {S : Regs} (hmode : S.mode.isTerminal = false) :
    illegalRegs S = raiseFault .illegalCommand S := if_neg (by simp [hmode])

/-- Settles O4. The record is `illegalRegs` of the record before, which is given no port. -/
theorem illegalWord : Obligations.IllegalWord := fun _ _ _ _ hhost hdecode =>
  ⟨_, step_of_illegal hhost hdecode, rfl, fun hmode => illegalRegs_of_open ((mem_openModes_iff _).mp hmode),
    fun hmode => illegalRegs_of_terminal ((mem_terminalModes_iff _).mp hmode)⟩

/-! ### RESET (R137) -/

theorem statusWord_reset : statusWord Regs.reset = 0x00000000 := rfl

/-- A core that RESET has left is unchanged by another RESET. -/
theorem exec_reset_respond_reset (s : State) :
    exec .reset (s.respond Regs.reset) = .next (s.respond Regs.reset) := rfl

/-- In the terminal modes only RESET changes the mode or the latched fault. -/
theorem exec_keeps_terminal {s t : State} (hmode : s.regs.mode.isTerminal = true) {i : Instr} (hreset : i ≠ .reset)
    (hexec : exec i s = .next t) : t.regs.mode = s.regs.mode ∧ t.regs.fault = s.regs.fault := by
  by_cases hstatus : i = .status
  · subst hstatus
    cases hexec
    exact ⟨rfl, rfl⟩
  · cases (exec_of_terminal hmode hreset hstatus).symm.trans hexec
    exact ⟨rfl, rfl⟩

/-- Settles O7: RESET writes the record of R41, and `FAULTED` is a terminal mode. -/
theorem resetCommand : Obligations.ResetCommand := by
  intro s
  refine ⟨_, exec_reset s, ?_, exec_reset_respond_reset s, fun hmode i u hreset hexec => ?_⟩
  · rw [State.respond, statusWord_reset]
    rfl
  · obtain ⟨hkept, hfault⟩ := exec_keeps_terminal (by rw [hmode]; rfl) hreset hexec
    exact ⟨hkept.trans hmode, hfault⟩

/-! ### CONFIGURE (R138, R139) -/

@[simp] theorem toReal_fHi (r : ConfigRecord) : r.fHi.toReal = r.fc.toReal + 4 * r.fs.toReal / r.n := by
  simp [ConfigRecord.fHi, ConfigRecord.releaseShift]

@[simp] theorem toReal_fLo (r : ConfigRecord) : r.fLo.toReal = r.fc.toReal - 4 * r.fs.toReal / r.n := by
  simp [ConfigRecord.fLo, ConfigRecord.releaseShift]

/-- Settles O19: the machine's checks, with its bins (V8) read over the real numbers. -/
theorem configurationValidity : Obligations.ConfigurationValidity := by
  intro p r
  have hchecks := valid_iff p r
  rw [binIndex_eq, binIndex_eq, toReal_num, toReal_fHi, toReal_fLo] at hchecks
  exact hchecks

/-- The configuration registers of a record, the derived ones over the real numbers (R16, R17). -/
theorem toCfg_eq (r : ConfigRecord) :
    r.toCfg =
      { fs := r.fs, n := r.n, c := r.c, fc := r.fc, fShift := r.fShift, pw := r.pw, pri := r.pri, thetaW := r.thetaW,
        thetaR := r.thetaR, wakeFreqs := r.wakeFreqs, expected := r.expected, rxId := r.rxId,
        nw := r.wakeFreqs.length,
        wakeBin := r.wakeFreqs.map fun f => realBin r.fs.toReal r.n f.toReal,
        binHi := realBin r.fs.toReal r.n (r.fc.toReal + 4 * r.fs.toReal / r.n),
        binLo := realBin r.fs.toReal r.n (r.fc.toReal - 4 * r.fs.toReal / r.n),
        l := r.expected.length,
        w := (realRound (r.pw.toReal * r.fs.toReal / r.c)).toNat,
        p := (realRound ((r.pw.toReal + r.pri.toReal) * r.fs.toReal / r.c)).toNat } := by
  simp [ConfigRecord.toCfg, binIndex_eq, chunksOf_eq, ConfigRecord.period]

/-- Settles O20, check by check in the order of R138. -/
theorem configureCommand : Obligations.ConfigureCommand := by
  intro s fs
  refine ⟨_, exec_configure s, rfl, ?_⟩
  refine if_congr (isTerminal_iff _) rfl (if_congr .rfl rfl (if_congr .rfl rfl (if_congr .rfl rfl ?_)))
  rw [configureWith, toCfg_eq]

/-! ### STEP where no cycle runs, STOP and STATUS (R140, R144, R145) -/

/-- Settles O51, by STEP's checks in their order. -/
theorem stepTurnedAway : Obligations.StepTurnedAway := by
  rintro s (hterminal | hunconfigured | ⟨hruns, c, hcfg, hlen⟩)
  · exact ⟨_, execStep_of_terminal ((mem_terminalModes_iff _).mp hterminal), rfl, (if_pos hterminal).symm⟩
  · refine ⟨_, execStep_of_unconfigured hunconfigured, rfl, ?_⟩
    rw [if_neg (by simp [hunconfigured]), if_pos hunconfigured]
    rfl
  · have hmode : s.regs.mode = .searchingWakeup ∨ s.regs.mode = .decodingRelease := by simpa using hruns
    refine ⟨_, (execStep_of_configured hmode hcfg).trans (stepConfigured_of_wrongLength hlen), rfl, ?_⟩
    rw [if_neg (by rw [mem_terminalModes_iff, not_isTerminal_of_runs hmode]; nofun),
      if_neg (by rcases hmode with hm | hm <;> rw [hm] <;> nofun)]
    rfl

/-- Settles O52. -/
theorem stopCommand : Obligations.StopCommand := fun s =>
  ⟨_, exec_stop s, rfl, if_congr (isTerminal_iff _) rfl rfl⟩

/-- STATUS answers from the record, which it does not write, so a second STATUS answers the same (R54). -/
theorem exec_status_respondStatus (s : State) : exec .status s.respondStatus = .next s.respondStatus := rfl

/-- Settles O53: `respondStatus` fills the result record as R69 lists it. -/
theorem statusCommand : Obligations.StatusCommand := fun s =>
  ⟨_, exec_status s, rfl, exec_status_respondStatus s⟩

/-! ### The transitions of `mode` (R135) -/

/-- The record `S'` is that of a fault raised in `S`, as the last row of R135 has it. -/
structure FaultEntered (S S' : Regs) : Prop where
  mode_open : S.mode.isTerminal = false
  faulted : S'.mode = .faulted
  latched : S'.fault ≠ .none

section

variable {p : Params} {c : Cfg} {S : Regs}

theorem faultEntered_raiseFault {cause : FaultCause} (hcause : cause ≠ .none) (hmode : S.mode.isTerminal = false) :
    FaultEntered S (raiseFault cause S) := ⟨hmode, rfl, hcause⟩

/-- CONFIGURE changes the mode by accepting its record or by a fault. -/
theorem configureRegs_mode_cases {r : ConfigRecord} (h : (configureRegs p r S).mode ≠ S.mode) :
    (S.mode = .unconfigured ∧ (configureRegs p r S).mode = .searchingWakeup ∧ r.lookupOk = true ∧ r.valid p = true) ∨
      FaultEntered S (configureRegs p r S) := by
  rcases configureRegs_cases p r S with ⟨-, e⟩ | ⟨hm, e⟩ | ⟨hm, -, e⟩ | ⟨hm, -, -, e⟩ | ⟨hm, hlookup, hvalid, e⟩ <;>
    rw [e] at h ⊢
  · exact absurd rfl h
  · exact .inr (faultEntered_raiseFault nofun (not_isTerminal_of_runs hm))
  · exact .inr (faultEntered_raiseFault nofun (by rw [hm]; rfl))
  · exact .inr (faultEntered_raiseFault nofun (by rw [hm]; rfl))
  · exact .inl ⟨hm, rfl, hlookup, hvalid⟩

/-- STOP changes the mode to `STOPPED`, and only where it is not ignored. -/
theorem stopRegs_mode_cases (h : (stopRegs S).mode ≠ S.mode) :
    S.mode.isTerminal = false ∧ (stopRegs S).mode = .stopped := by
  rcases stopRegs_cases S with ⟨-, e⟩ | ⟨hm, e⟩ <;> rw [e] at h ⊢
  · exact absurd rfl h
  · exact ⟨hm, rfl⟩

/-- An illegal word changes the mode by its fault alone. -/
theorem illegalRegs_mode_cases (h : (illegalRegs S).mode ≠ S.mode) : FaultEntered S (illegalRegs S) := by
  rcases illegalRegs_cases S with ⟨-, e⟩ | ⟨hm, e⟩ <;> rw [e] at h ⊢
  · exact absurd rfl h
  · exact faultEntered_raiseFault nofun hm

/-- The search phase changes the mode by arming alone (R106). -/
theorem searchPhase_mode_cases (h : (searchPhase p c S).mode ≠ S.mode) :
    (searchPhase p c S).mode = .decodingRelease ∧ armed (searchPhase p c S) = true := by
  rcases searchPhase_cases p c S with ⟨-, e⟩ | ⟨-, harmed, e⟩ | ⟨-, -, e⟩ <;> rw [e] at h ⊢
  · exact absurd rfl h
  · exact ⟨rfl, harmed⟩
  · exact absurd rfl h

/-- The decode phase changes the mode by a release, on the whole message, or by a rearm (R131, R132). -/
theorem decodePhase_mode_cases (h : (decodePhase p c S).mode ≠ S.mode) :
    ((decodePhase p c S).mode = .released ∧ (decodePhase p c S).msg = c.expected) ∨
      ((decodePhase p c S).mode = .searchingWakeup ∧ (decodePhase p c S).last.evRearm = true) := by
  obtain ⟨sym, -, ⟨hmatch, e⟩ | ⟨cause, -, e⟩ | ⟨-, -, e⟩⟩ := decodePhase_cases p c S <;> rw [e] at h ⊢
  · exact .inl ⟨rfl, hmatch⟩
  · exact .inr ⟨rfl, rfl⟩
  · exact absurd rfl h

/-- How a STEP from the record `S` changes the mode to that of `S'`: one constructor for each row of R135. -/
inductive StepTransition (S S' : Regs) : Prop where
  | arms (before : S.mode = .searchingWakeup) (after : S'.mode = .decodingRelease) (tones : armed S' = true)
  | releases (before : S.mode = .decodingRelease) (after : S'.mode = .released)
      (message : ∃ c, S'.cfg = some c ∧ S'.msg = c.expected)
  | rearms (before : S.mode = .decodingRelease) (after : S'.mode = .searchingWakeup) (event : S'.last.evRearm = true)
  | faults (fault : FaultEntered S S')

theorem stepTransition_cycle (hcfg : S.cfg = some c)
    (hmode : S.mode = .searchingWakeup ∨ S.mode = .decodingRelease) (chunk : List Sample)
    (h : (cycle p c chunk (clearLast S)).mode ≠ S.mode) : StepTransition S (cycle p c chunk (clearLast S)) := by
  have hkept : (cycle p c chunk (clearLast S)).cfg = some c := (cycle_cfg p c chunk _).trans hcfg
  rcases hmode with hm | hm
  · rw [cycle_of_searching (S := clearLast S) hm] at h ⊢
    obtain ⟨hafter, harmed⟩ := searchPhase_mode_cases h
    exact .arms hm hafter harmed
  · rw [cycle_of_decoding (S := clearLast S) hm] at h hkept ⊢
    rcases decodePhase_mode_cases h with ⟨hafter, hmatch⟩ | ⟨hafter, hrearm⟩
    · exact .releases hm hafter ⟨c, hkept, hmatch⟩
    · exact .rearms hm hafter hrearm

end

/-- STEP changes the mode by its cycle or by one of its two faults (R140). -/
theorem stepTransition_execStep {s t : State} (hexec : execStep s = .next t) (h : t.regs.mode ≠ s.regs.mode) :
    StepTransition s.regs t.regs := by
  rcases execStep_cases s with ⟨-, e⟩ | ⟨hm, e⟩ | ⟨-, -, e⟩ | ⟨hm, c, hcfg, ⟨-, e⟩ | ⟨-, -, e⟩ | ⟨-, -, e⟩⟩ <;>
    cases e.symm.trans hexec
  · exact absurd rfl h
  · exact .faults (faultEntered_raiseFault nofun (by rw [hm]; rfl))
  · exact .faults (faultEntered_raiseFault nofun (not_isTerminal_of_runs hm))
  · exact stepTransition_cycle hcfg hm _ h

/-- Settles O14. A fault is the last row of R135, whatever raises it; of the rest RESET makes the first row, CONFIGURE
the second, STEP's cycle the next three, and STOP the sixth. -/
theorem modeTransitions : Obligations.ModeTransitions := by
  intro s t _ hstep hchange
  obtain ⟨-, rfl⟩ | ⟨h, rest, hhost, hrun⟩ := step_cases hstep
  · exact absurd rfl hchange
  refine ⟨h, rest, hhost, ?_⟩
  simp only [mem_openModes_iff]
  by_cases hfault : FaultEntered s.regs t.regs
  · obtain ⟨hopen, hfaulted, hlatched⟩ := hfault
    exact .inr (.inr (.inr (.inr (.inr (.inr ⟨hopen, hfaulted, hlatched⟩)))))
  rcases hrun with ⟨i, hdecode, hexec⟩ | ⟨-, hexec⟩
  · have hword : h.word = encode i := (decode_eq_ok_iff h.word i).mp hdecode
    cases i with
    | reset =>
      cases hexec
      exact .inl ⟨hword, rfl⟩
    | configure =>
      cases hexec
      exact .inr (.inl ⟨hword, (configureRegs_mode_cases hchange).resolve_right hfault⟩)
    | step =>
      cases stepTransition_execStep hexec hchange with
      | arms before after tones => exact .inr (.inr (.inl ⟨hword, before, after, tones⟩))
      | releases before after message => exact .inr (.inr (.inr (.inl ⟨hword, before, after, message⟩)))
      | rearms before after event => exact .inr (.inr (.inr (.inr (.inl ⟨hword, before, after, event⟩))))
      | faults fault => exact absurd fault hfault
    | stop =>
      cases hexec
      exact .inr (.inr (.inr (.inr (.inr (.inl ⟨hword, stopRegs_mode_cases hchange⟩)))))
    | status =>
      cases hexec
      exact absurd rfl hchange
  · cases hexec
    exact absurd (illegalRegs_mode_cases hchange) hfault

end Sys2Proof.Proofs
end

section
/-!
PROOFS of the family 60_exceptions.md: the cause that each command and word raises (R153, R157), what a faulting step
leaves unchanged (R156), what no fault depends on (R151), and the idle step (R167).
-/
namespace Sys2Proof.Proofs

open Sys2Proof.Machine Sys2Proof.Safety Sys2Proof.Laws

/-! ### No command to come (R167) -/

theorem step_of_idle {s : State} (hhost : s.host = []) : step s = .next s := by rw [step, hhost]

/-- Settles O5. -/
theorem idleHoldsAllState : Obligations.IdleHoldsAllState := fun _ hhost => step_of_idle hhost

/-! ### The cause that is raised (R153), by the first check that fails (R157), `none` where nothing is raised -/

/-- The one check of a word that is no command (R146). -/
def illegalCause (m : Mode) : FaultCause := if m.isTerminal then .none else .illegalCommand

/-- CONFIGURE's checks (R138). -/
def configureCause (p : Params) (r : ConfigRecord) (m : Mode) : FaultCause :=
  if m.isTerminal then .none
  else if m ≠ .unconfigured then .reconfigure
  else if r.lookupOk = false then .configNotFound
  else if r.valid p = false then .configInvalid
  else .none

/-- STEP's checks (R140). Of the chunk they read the length alone. -/
def stepCause (cfg : Option Cfg) (length : Nat) (m : Mode) : FaultCause :=
  if m.isTerminal then .none
  else if m = .unconfigured then .notConfigured
  else if cfg.any (fun c => decide (length ≠ c.c)) then .chunkSize
  else .none

/-- RESET, STOP and STATUS raise nothing (R137, R144, R145). -/
def commandCause (s : State) : Instr → FaultCause
  | .configure => configureCause s.params s.cfgPort s.regs.mode
  | .step => stepCause s.regs.cfg s.chunkPort.length s.regs.mode
  | .reset | .stop | .status => .none

/-- The cause that the word on the command port raises, decoded as `runWord` does. -/
def wordCause (word : Word) (s : State) : FaultCause :=
  match decode word with
  | .ok i => commandCause s i
  | .error _ => illegalCause s.regs.mode

/-! ### The condition of each cause (R153) -/

section

variable {cause : FaultCause} (hcause : cause ≠ .none)
include hcause

theorem illegalCause_eq_iff (m : Mode) :
    illegalCause m = cause ↔ cause = .illegalCommand ∧ m.isTerminal = false := by
  rw [illegalCause]
  cases m.isTerminal <;> simp [hcause.symm, @eq_comm _ cause]

theorem configureCause_eq_iff (p : Params) (r : ConfigRecord) (m : Mode) :
    configureCause p r m = cause ↔
      (cause = .reconfigure ∧ (m = .searchingWakeup ∨ m = .decodingRelease)) ∨
      (cause = .configNotFound ∧ m = .unconfigured ∧ r.lookupOk = false) ∨
      (cause = .configInvalid ∧ m = .unconfigured ∧ r.lookupOk = true ∧ r.valid p = false) := by
  rw [configureCause]
  cases m with
  | unconfigured =>
    cases r.lookupOk <;> cases r.valid p <;> simp [Mode.isTerminal, hcause.symm, @eq_comm _ cause]
  | searchingWakeup | decodingRelease => simp [Mode.isTerminal, @eq_comm _ cause]
  | released | stopped | faulted => simp [Mode.isTerminal, hcause.symm]

theorem stepCause_eq_iff (cfg : Option Cfg) (length : Nat) (m : Mode) :
    stepCause cfg length m = cause ↔
      (cause = .notConfigured ∧ m = .unconfigured) ∨
      (cause = .chunkSize ∧ (m = .searchingWakeup ∨ m = .decodingRelease) ∧ ∃ c, cfg = some c ∧ length ≠ c.c) := by
  rw [stepCause]
  cases m with
  | unconfigured => simp [Mode.isTerminal, @eq_comm _ cause]
  | searchingWakeup | decodingRelease =>
    cases cfg with
    | none => simp [Mode.isTerminal, hcause.symm]
    | some c => by_cases hlength : length = c.c <;> simp [Mode.isTerminal, hlength, hcause.symm, @eq_comm _ cause]
  | released | stopped | faulted => simp [Mode.isTerminal, hcause.symm]

end

/-! ### What a cause does to the record (R154, R156) -/

/-- `S'` is a record that a command or word leaves of `S` when it raises `cause`: the fault entry, or with no cause a
record whose fault entry is as it was. -/
inductive FaultEffect (S S' : Regs) : FaultCause → Prop where
  | raised {cause : FaultCause} (some_cause : cause ≠ .none) (entry : S' = raiseFault cause S) : FaultEffect S S' cause
  | kept (mode : S'.mode = .faulted ↔ S.mode = .faulted) (fault : S'.fault = S.fault) : FaultEffect S S' .none

section

variable {S S' : Regs} {cause : FaultCause}

theorem FaultEffect.mode_eq_faulted_iff (h : FaultEffect S S' cause) :
    S'.mode = .faulted ↔ cause ≠ .none ∨ S.mode = .faulted := by
  cases h with
  | raised hcause entry => simp [entry, hcause]
  | kept mode _ => simp [mode]

theorem FaultEffect.fault_eq (h : FaultEffect S S' cause) :
    S'.fault = if cause = .none then S.fault else cause := by
  cases h with
  | raised hcause entry => simp [entry, hcause]
  | kept _ fault => simp [fault]

theorem FaultEffect.fault_eq_of_unlatched (h : FaultEffect S S' cause) (hfault : S.fault = .none) :
    S'.fault = cause := by
  cases h with
  | raised _ entry => rw [entry, raiseFault_fault]
  | kept _ fault => exact fault.trans hfault

theorem FaultEffect.precise (h : FaultEffect S S' cause) (hbefore : S.mode ≠ .faulted) (hafter : S'.mode = .faulted) :
    S' = { S with fault := S'.fault, mode := .faulted, last := Last.clear } ∧ S'.fault ≠ .none := by
  cases h with
  | raised hcause entry =>
    subst entry
    exact ⟨rfl, hcause⟩
  | kept mode _ => exact absurd (mode.mp hafter) hbefore

theorem faultEffect_ignoreCommand (S : Regs) : FaultEffect S (ignoreCommand S) .none := .kept .rfl rfl

/-! ### The cause of each command and word -/

theorem faultEffect_illegalRegs (S : Regs) : FaultEffect S (illegalRegs S) (illegalCause S.mode) := by
  rw [illegalCause]
  rcases illegalRegs_cases S with ⟨hm, e⟩ | ⟨hm, e⟩ <;> rw [hm, e]
  · exact faultEffect_ignoreCommand S
  · exact .raised nofun rfl

theorem faultEffect_configureRegs (p : Params) (r : ConfigRecord) (S : Regs) :
    FaultEffect S (configureRegs p r S) (configureCause p r S.mode) := by
  rw [configureRegs, configureCause]
  split_ifs with hterminal
  · exact faultEffect_ignoreCommand S
  · exact .raised nofun rfl
  · exact .raised nofun rfl
  · exact .raised nofun rfl
  · exact .kept (iff_of_false nofun fun h => hterminal (by rw [h]; rfl)) rfl

theorem faultEffect_stopRegs (S : Regs) : FaultEffect S (stopRegs S) .none := by
  rcases stopRegs_cases S with ⟨-, e⟩ | ⟨hm, e⟩ <;> rw [e]
  · exact faultEffect_ignoreCommand S
  · exact .kept (iff_of_false nofun fun h => by rw [h] at hm; cases hm) rfl

/-- No signal condition raises a fault (R151): a cycle, whatever it detects, leaves none. -/
theorem faultEffect_cycle (p : Params) (c : Cfg) (chunk : List Sample)
    (hmode : S.mode = .searchingWakeup ∨ S.mode = .decodingRelease) :
    FaultEffect S (cycle p c chunk (clearLast S)) .none := by
  rcases hmode with hm | hm
  · rw [cycle_of_searching (S := clearLast S) hm]
    rcases searchPhase_cases p c (takeChunk c chunk (clearLast S)) with ⟨-, e⟩ | ⟨-, -, e⟩ | ⟨-, -, e⟩ <;> rw [e]
    · exact .kept .rfl rfl
    · exact .kept (by simp [hm]) rfl
    · exact .kept .rfl rfl
  · rw [cycle_of_decoding (S := clearLast S) hm]
    obtain ⟨_, -, ⟨-, e⟩ | ⟨_, -, e⟩ | ⟨-, -, e⟩⟩ := decodePhase_cases p c (takeChunk c chunk (clearLast S)) <;> rw [e]
    · exact .kept (by simp [hm]) rfl
    · exact .kept (by simp [hm]) rfl
    · exact .kept .rfl rfl

end

theorem faultEffect_execStep {s t : State} (hexec : execStep s = .next t) :
    FaultEffect s.regs t.regs (stepCause s.regs.cfg s.chunkPort.length s.regs.mode) := by
  rw [stepCause]
  rcases execStep_cases s with ⟨hm, e⟩ | ⟨hm, e⟩ | ⟨-, -, e⟩ | ⟨hm, c, hcfg, hrun⟩
  · cases e.symm.trans hexec
    rw [if_pos hm]
    exact faultEffect_ignoreCommand s.regs
  · cases e.symm.trans hexec
    rw [if_neg (by rw [hm]; nofun), if_pos hm]
    exact .raised nofun rfl
  · cases e.symm.trans hexec
  · rw [if_neg (by rw [not_isTerminal_of_runs hm]; nofun), if_neg (by rcases hm with h | h <;> rw [h] <;> nofun), hcfg]
    rcases hrun with ⟨hlength, e⟩ | ⟨hlength, -, e⟩ | ⟨-, -, e⟩ <;> cases e.symm.trans hexec
    · rw [if_pos (by simpa using hlength)]
      exact .raised nofun rfl
    · rw [if_neg (by simpa using hlength)]
      exact faultEffect_cycle s.params c s.chunkPort hm

/-- RESET is left out: it alone changes the fault entry without a cause (R155). -/
theorem faultEffect_exec {i : Instr} {s t : State} (hreset : i ≠ .reset) (hexec : exec i s = .next t) :
    FaultEffect s.regs t.regs (commandCause s i) := by
  cases i with
  | reset => exact absurd rfl hreset
  | configure =>
    cases hexec
    exact faultEffect_configureRegs s.params s.cfgPort s.regs
  | step => exact faultEffect_execStep hexec
  | stop =>
    cases hexec
    exact faultEffect_stopRegs s.regs
  | status =>
    cases hexec
    exact .kept .rfl rfl

theorem exec_reset_unfaulted {s t : State} (hexec : exec .reset s = .next t) :
    t.regs.mode = .unconfigured ∧ t.regs.fault = .none := by
  cases hexec
  exact ⟨rfl, rfl⟩

/-! ### The statements on faults -/

/-- Settles O18: a cause is computed from what the two states share. -/
theorem noSignalFault : Obligations.NoSignalFault := by
  intro i s s' t t' hparams hport hlength hmode hfault hcfg hexec hexec'
  by_cases hreset : i = .reset
  · subst hreset
    obtain ⟨hmodeT, hfaultT⟩ := exec_reset_unfaulted hexec
    obtain ⟨hmodeT', hfaultT'⟩ := exec_reset_unfaulted hexec'
    rw [hmodeT, hmodeT', hfaultT, hfaultT']
    exact ⟨.rfl, rfl⟩
  · have hcause : commandCause s' i = commandCause s i := by
      simp only [commandCause, hparams, hport, hlength, hmode, hcfg]
    have heffect := faultEffect_exec hreset hexec
    have heffect' := faultEffect_exec hreset hexec'
    rw [heffect'.mode_eq_faulted_iff, heffect.mode_eq_faulted_iff, heffect'.fault_eq, heffect.fault_eq, hcause, hmode,
      hfault]
    exact ⟨.rfl, rfl⟩

/-- Settles O17: only a raised cause leads into `FAULTED`, whatever word raises it. -/
theorem faultsArePrecise : Obligations.FaultsArePrecise := by
  intro s t hstep hbefore hafter
  obtain ⟨-, rfl⟩ | ⟨h, rest, -, ⟨i, -, hexec⟩ | ⟨-, hexec⟩⟩ := step_cases hstep
  · exact absurd hafter hbefore
  · have hreset : i ≠ .reset := by
      rintro rfl
      rw [(exec_reset_unfaulted hexec).1] at hafter
      cases hafter
    exact (faultEffect_exec hreset hexec).precise hbefore hafter
  · cases hexec
    exact (faultEffect_illegalRegs s.regs).precise hbefore hafter

/-- In a state with no fault latched, the fault after a word is the cause that the word raises. -/
theorem fault_of_runWord {word : Word} {s t : State} (hfault : s.regs.fault = .none)
    (hrun : runWord word s = .next t) : t.regs.fault = wordCause word s := by
  rw [runWord] at hrun
  rw [wordCause]
  revert hrun
  cases decode word with
  | ok i =>
    intro hrun
    by_cases hreset : i = .reset
    · subst hreset
      exact (exec_reset_unfaulted hrun).2
    · exact (faultEffect_exec hreset hrun).fault_eq_of_unlatched hfault
  | error _ =>
    intro hrun
    cases hrun
    exact (faultEffect_illegalRegs s.regs).fault_eq_of_unlatched hfault

/-- Settles O16: the step raises the cause of its word, and each check's conditions are read off its cause. -/
theorem faultCauses : Obligations.FaultCauses := by
  intro s t h rest hlegal hmode hhost hstep
  rw [step, hhost] at hstep
  have hfault : t.regs.fault = wordCause h.word (s.deliver h rest) := fault_of_runWord (hlegal.fault.mpr hmode) hstep
  rw [hfault, wordCause, mem_openModes_iff]
  cases decode h.word with
  | error _ => simp [illegalCause_eq_iff]
  | ok i =>
    cases i with
    | configure => simp [commandCause, configureCause_eq_iff]
    | step => simp [commandCause, stepCause_eq_iff]
    | reset | stop | status => simp [commandCause]

end Sys2Proof.Proofs
end

section
/-!
PROOFS of the statement on power-on (70_reset_and_hazards.md).
-/
namespace Sys2Proof.Proofs

open Sys2Proof.Machine Sys2Proof.Laws

/-- The power-on ring reads 0 in every slot, as R41 has it, because it lists none. -/
theorem read_reset (a : Nat) : State.reset.regs.ring.read a = 0 := read_nil a

/-- Settles O6: the core powers on with the record of R41, which is the record that RESET responds with. -/
theorem powerOnState : Obligations.PowerOnState :=
  ⟨⟨rfl, rfl, rfl, read_reset, rfl, rfl, rfl, rfl, rfl, rfl, rfl, rfl, rfl⟩,
    fun s => ⟨s.respond Regs.reset, exec_reset s, respond_regs s Regs.reset⟩⟩

end Sys2Proof.Proofs
end
